-- ==== Sys2Proof/Word.lean ====
section
/-! DEFINITION. The word types of HUFF-CORE (00_scope.md R11, R13). All values are unsigned. -/

namespace Sys2Proof

/-- Host data word (R11): 32 bits. -/
abbrev Word := BitVec 32

/-- Symbol, buffer element or bit-stream token (R11): 8 bits. -/
abbrev Byte := BitVec 8

/-- Host byte address (R11): 20 bits. -/
abbrev HostAddr := BitVec 20

/-- Node weight (R11): 40 bits, wide enough that no sum wraps (R118). -/
abbrev Weight := BitVec 40

end Sys2Proof
end

