-- ==== Sys2Proof/Syntax.lean ====
section
/-! DEFINITION. The HUFF command set, revision 1 (00_scope.md R3, 30_encoding.md R81): one constructor per row of opcode_table.json. -/

namespace Sys2Proof

/-- The commands of R81. No command word carries an operand (R82): every operand is implicit. -/
inductive Instr where
  /-- NOP (R165). -/
  | nop
  /-- COUNT (R100). -/
  | count
  /-- BUILD_TREE (R110). -/
  | buildTree
  /-- BUILD_TABLE (R130). -/
  | buildTable
  /-- ENCODE (R140). -/
  | encode
  /-- DECODE (R150). -/
  | decode
  /-- COMPRESS (R166). -/
  | compress
deriving DecidableEq, Repr

end Sys2Proof
end

