-- ==== Sys2Proof/Decode.lean ====
section
/-! DEFINITION. Decoding of command words (30_encoding.md R80, R84, R92), total over all 2^32 words, and the encoder from the same table (R81). -/

namespace Sys2Proof

/-- Why a word is ILLEGAL (R84). -/
inductive DecodeError where
  /-- RSVD, bits [31:4], is not 0. -/
  | reservedBits
  /-- RSVD is 0 and OP is one of 0x7 .. 0xF. -/
  | reservedOpcode
deriving DecidableEq, Repr

/-- Field OP, bits [3:0] (R80). -/
def opField (w : Word) : BitVec 4 := w.extractLsb' 0 4

/-- Field RSVD, bits [31:4] (R80). -/
def rsvdField (w : Word) : BitVec 28 := w.extractLsb' 4 28

/-- The opcode map of R81; the reserved opcodes 0x7 .. 0xF have no command. -/
def instrOfOp (op : BitVec 4) : Option Instr :=
  match op.toNat with
  | 0 => some .nop
  | 1 => some .count
  | 2 => some .buildTree
  | 3 => some .buildTable
  | 4 => some .encode
  | 5 => some .decode
  | 6 => some .compress
  | _ => none

/-- The decode function of R92: a command, or ILLEGAL with its reason. -/
def decodeWord (w : Word) : Except DecodeError Instr :=
  if rsvdField w ≠ 0 then .error .reservedBits
  else
    match instrOfOp (opField w) with
    | some i => .ok i
    | none => .error .reservedOpcode

/-- The opcode of a command (R81). -/
def opOfInstr : Instr → BitVec 4
  | .nop => 0x0
  | .count => 0x1
  | .buildTree => 0x2
  | .buildTable => 0x3
  | .encode => 0x4
  | .decode => 0x5
  | .compress => 0x6

/-- The command word of a command (R80): RSVD = 0 above OP. -/
def encode (i : Instr) : Word := (0#28 ++ opOfInstr i : BitVec 32)

/-- The instruction the decoder reads from the low `nbits` bits of `w`, numbered as opcode_table.json numbers them. Every command is one 32-bit word (R80, R85), so a wider value is none. -/
def decodeTableWord (nbits w : Nat) : Option Instr :=
  let bits := w % 2 ^ nbits
  if bits < 2 ^ 32 then
    match decodeWord (BitVec.ofNat 32 bits) with
    | .ok i => some i
    | .error _ => none
  else none

end Sys2Proof
end

