-- ==== Sys2Proof/Config.lean ====
section
/-! DEFINITION. What an implementation fixes (00_scope.md R10, R12) and the free values the spec leaves open (R48, R64). -/

namespace Sys2Proof.Config

/-- The three capacities of R10. The spec makes them arguments of the model: State carries one value of this type, which no step changes (log 1). -/
structure Caps where
  /-- IN_CAP: bytes in IN_BUF. -/
  inCap  : Nat
  /-- TOK_CAP: tokens in TOK_BUF. -/
  tokCap : Nat
  /-- OUT_CAP: bytes in OUT_BUF. -/
  outCap : Nat
deriving DecidableEq, Repr

/-- The reference configuration: the defaults of R10. -/
def defaultCaps : Caps := { inCap := 0x10000, tokCap := 0x40000, outCap := 0x40000 }

/-- SENTINEL (R12, decision D8): the symbol key of an internal node in the merge order. -/
def sentinel : Nat := 0

/-- SYNTH_SYM (R12): the symbol of the synthetic leaf. -/
def synthSym : Byte := 0

/-- The weight of the synthetic leaf (R12). -/
def synthWeight : Weight := 1

/-- ID (R24): the identification word. -/
def idWord : Word := 0x48554646

/-- A read of a buffer element that nothing has written since reset is a draw of 8 bits under no law (R48): the n-th free value. No body, so nothing can be proved of it (log 2). -/
opaque drawByte : Nat → Byte

/-- A host read of a non-exempt location while the engine is busy is a draw of 32 bits (R64): the n-th free value (log 2). -/
opaque drawWord : Nat → Word

end Sys2Proof.Config
end

