-- ==== Sys2Proof/Machine/State.lean ====
section
/-! DEFINITION. The state of one HUFF-CORE instance (10_state.md R20) with the port's transfer in progress (20_memory.md R73, R74), the reasons a step can stop, and the state after reset (R46, R210). -/

namespace Sys2Proof.Machine

/-- ENG (R20, R22): nothing executes, or a command word is accepted and not yet completed. -/
inductive Engine where
  | idle
  | busy (word : Word)
deriving DecidableEq, Repr

/-- The stored flags of STATUS (R28). BUSY is the view "ENG is Busy" and is not stored twice (log 7); reserved bits have no state (R61). -/
structure Status where
  done         : Bool
  err          : Bool
  treePresent  : Bool
  synthPresent : Bool
  synthCollide : Bool
  synthHit     : Bool
  busyViol     : Bool
  busErr       : Bool
deriving DecidableEq, Repr

/-- ERRCODE's values (R185). The reserved codes 9 to 15 are never produced and have no constructor. -/
inductive ErrCode where
  | none
  | illegalCmd
  | malformedBit
  | truncated
  | symbolNotInTable
  | noTree
  | lenRange
  | outOverflow
  /-- Kept for the numbering of R185; nothing raises it (R120, log 12). -/
  | mergeUnderflow
deriving DecidableEq, Repr

/-- A NODE entry (R35): INTERNAL tells a Leaf from an Internal node; the unused fields of each are 0. A node index is 0..510 (R11). -/
structure Node where
  isInternal : Bool
  weight     : Weight
  sym        : Byte
  synth      : Bool
  left       : Fin 511
  right      : Fin 511
deriving DecidableEq, Repr

/-- ZERO_NODE of R110. -/
def zeroNode : Node := { isInternal := false, weight := 0, sym := 0, synth := false, left := 0, right := 0 }

/-- A CODE entry (R39). -/
structure CodeEntry where
  valid : Bool
  synth : Bool
  len   : BitVec 8
  bits  : BitVec 255
deriving DecidableEq, Repr

/-- ZERO_CODE of R110: an invalid entry is all-zero (R39). -/
def zeroCode : CodeEntry := { valid := false, synth := false, len := 0, bits := 0 }

/-- FREQ[0..255] (R30). -/
abbrev FreqTable := Vector Word 256

/-- NODE[0..510] (R34). -/
abbrev NodeTable := Vector Node 511

/-- CODE[0..255] (R38). -/
abbrev CodeTable := Vector CodeEntry 256

/-- A table of n entries from its first entries, the rest all `d` (D33: unused entries are all-zero). -/
def tableOfList {α : Type} (n : Nat) (d : α) (l : List α) : Vector α n :=
  ⟨((l ++ List.replicate n d).take n).toArray, by simp⟩

/-- The all-zero tables of R46. -/
def zeroFreq : FreqTable := tableOfList 256 0 []
def zeroNodes : NodeTable := tableOfList 511 zeroNode []
def zeroCodes : CodeTable := tableOfList 256 zeroCode []

/-- A buffer: the elements written since reset, by index. An unlisted index is unwritten and has no value (R48). -/
abbrev Memory := List Host.Cell

/-- The indices listed are strictly rising and all above `lo`, where given. -/
def Memory.rising : Option Nat → Memory → Bool
  | _, [] => true
  | none, (k, _) :: m => Memory.rising (some k) m
  | some lo, (k, _) :: m => decide (lo < k) && Memory.rising (some k) m

/-- The one canonical form of a buffer: indices strictly rising. No entry can equal what an unlisted index reads as, since an unlisted index has no value. -/
def Memory.wf (m : Memory) : Bool := Memory.rising none m

/-- A host transaction waiting at the port (R50): req_write, req_addr, req_wdata of R72. -/
inductive Request where
  | read (addr : HostAddr)
  | write (addr : HostAddr) (data : Word)
deriving DecidableEq, Repr

/-- A response (R74): rsp_rdata, which is 0 for a write, and rsp_err. -/
structure Response where
  data : Word
  err  : Bool
deriving DecidableEq, Repr

/-- What can happen next: the steps of R233, with the response transfer of R74. -/
inductive Move where
  /-- The oldest waiting host transaction transfers and takes effect (R73). -/
  | request
  /-- The outstanding response transfers to the host (R74). -/
  | response
  /-- The completion step of the accepted command (R83). -/
  | completion
  /-- A rising edge of clk with rst = 1 (R210). -/
  | reset
deriving DecidableEq, Repr

/-- The state. The first block is R20's tuple; `rsp` is the port's transfer in progress (R73); `caps` is the configuration, an argument of the model that no step changes (R9, log 1); the last block, from `draws` on, is the model's own (logs 2, 3, 4, 18): `accepts` says how many more responses the host takes, none for all of them (R230). -/
structure State where
  eng       : Engine
  irqEn     : Bool
  status    : Status
  errCode   : ErrCode
  errPos    : Word
  inLen     : Word
  tokLen    : Word
  outLen    : Word
  root      : Fin 511
  nodeCount : Fin 512
  leafCount : Fin 257
  freq      : FreqTable
  node      : NodeTable
  code      : CodeTable
  inBuf     : Memory
  tokBuf    : Memory
  outBuf    : Memory
  rsp       : Option Response
  caps      : Config.Caps
  draws     : Nat
  requests  : List Request
  schedule  : List Move
  received  : List Response
  accepts   : Option Nat
deriving DecidableEq, Repr

/-- STATUS = 0 (R46). -/
def Status.reset : Status :=
  { done := false, err := false, treePresent := false, synthPresent := false,
    synthCollide := false, synthHit := false, busyViol := false, busErr := false }

/-- The machine right after reset (R46, R210), in the reference configuration. Buffers are unwritten, no response is outstanding, and no host transaction waits (logs 2, 3, 4, 18 for the model's own fields). -/
def State.reset : State :=
  { eng := .idle
    irqEn := false
    status := Status.reset
    errCode := .none
    errPos := 0
    inLen := 0
    tokLen := 0
    outLen := 0
    root := 0
    nodeCount := 0
    leafCount := 0
    freq := zeroFreq
    node := zeroNodes
    code := zeroCodes
    inBuf := []
    tokBuf := []
    outBuf := []
    rsp := none
    caps := Config.defaultCaps
    draws := 0
    requests := []
    schedule := []
    received := []
    accepts := none }

/-- Reasons the machine stops with a fault. -/
inductive Fault where
  /-- A merge from fewer than two nodes (R120, 93_implementation_defined.md U13), the only condition the spec calls a fault. Raised by nothing: the merge loop of R110 runs only while two nodes can be extracted. Safe. -/
  | mergeUnderflow
deriving DecidableEq, Repr

/-- Reasons the model has no answer. -/
inductive Refusal where
  /-- An instruction without a meaning yet, by its mnemonic. Raised only by an arm of `exec` that rejects its instruction by name; no arm does. Safe. -/
  | notModelled (mnemonic : String)
deriving DecidableEq, Repr

end Sys2Proof.Machine
end

