-- ==== Sys2Proof/Machine/Ops.lean ====
section
/-! DEFINITION. The operations over buffers and registers that all commands share, error entry (60_exceptions.md R187), and the acceptance and end of a command (30_encoding.md R83). -/

namespace Sys2Proof.Machine

/-! ## Buffers (10_state.md R41 to R43, R48) -/

/-- The value written at index `k`, or none where nothing has written it since reset (R48). -/
def Memory.read : Memory → Nat → Option Byte
  | [], _ => none
  | (j, v) :: m, k => if j = k then some v else Memory.read m k

/-- MemWrite(buf, k, v) of R17, keeping the canonical form. -/
def Memory.write : Memory → Nat → Byte → Memory
  | [], k, v => [(k, v)]
  | (j, u) :: m, k, v =>
    if k < j then (k, v) :: (j, u) :: m
    else if k = j then (k, v) :: m
    else (j, u) :: Memory.write m k v

/-- MemWrite of consecutive elements from index `k` on, in increasing order (R65). -/
def Memory.writeList : Memory → Nat → List Byte → Memory
  | m, _, [] => m
  | m, k, v :: vs => Memory.writeList (Memory.write m k v) (k + 1) vs

/-- Every listed index is below `cap`. -/
def Memory.below (cap : Nat) : Memory → Bool
  | [] => true
  | (k, _) :: m => decide (k < cap) && Memory.below cap m

/-- The `n` elements read from index `k` on, in increasing order; each unwritten one is the next draw after `d` (R48). -/
def Memory.readList (m : Memory) (d : Nat) : Nat → Nat → List Byte
  | _, 0 => []
  | k, n + 1 =>
    match m.read k with
    | some v => v :: Memory.readList m d (k + 1) n
    | none => Config.drawByte d :: Memory.readList m (d + 1) (k + 1) n

/-- How many draws `readList` takes. -/
def Memory.drawCount (m : Memory) : Nat → Nat → Nat
  | _, 0 => 0
  | k, n + 1 =>
    match m.read k with
    | some _ => Memory.drawCount m (k + 1) n
    | none => Memory.drawCount m (k + 1) n + 1

/-! ## Tables -/

/-- The index of a symbol in FREQ and CODE. -/
def symIndex (b : Byte) : Fin 256 := ⟨b.toNat, b.isLt⟩

/-- BUILD_TREE and BUILD_TABLE first clear CODE to all-invalid (R116, R130). -/
def State.clearCode (s : State) : State := { s with code := zeroCodes }

/-! ## Command results: `complete` and `raise CmdError` (R17) -/

/-- How the body of a command ends: with `complete`, or with `raise CmdError(code, pos)`; the state holds the effects made up to there (R187). -/
inductive CmdResult where
  | completed (s : State)
  | raised (code : ErrCode) (pos : Nat) (s : State)
deriving DecidableEq, Repr

/-- The state a body ended in. -/
def CmdResult.state : CmdResult → State
  | .completed s => s
  | .raised _ _ s => s

/-- Run the next body after a `complete` "read as go on to the next line" (R166); a raise ends the command at once (R17). -/
def CmdResult.andThen (r : CmdResult) (next : State → CmdResult) : CmdResult :=
  match r with
  | .completed s => next s
  | .raised c p s => .raised c p s

/-- Error entry (R187): ERRCODE, ERRPOS and STATUS.ERR are written; nothing else is saved. This is all the block has of "taking an exception": no mode, no vector, no saved program counter (R187, R188). -/
def State.enterError (s : State) (code : ErrCode) (pos : Nat) : State :=
  { s with errCode := code, errPos := BitVec.ofNat 32 pos, status := { s.status with err := true } }

/-- The last line of complete_step (R83): BUSY <- 0, DONE <- 1, ENG <- Idle. -/
def State.endCommand (s : State) : State :=
  { s with eng := .idle, status := { s.status with done := true } }

/-- The end of a command: `complete` ends it with ERR = 0 (R17), a raise with the error entry (R187); the last line of complete_step runs either way (R83). -/
def CmdResult.finish : CmdResult → State
  | .completed s => State.endCommand { s with status := { s.status with err := false } }
  | .raised c p s => State.endCommand (s.enterError c p)

/-- accept(d) (R83). It is also the only thing that ends an error report (R189): there is no return from error. -/
def State.accept (s : State) (w : Word) : State :=
  { s with
    eng := .busy w
    errCode := .none
    errPos := 0
    status := { s.status with done := false, err := false } }

/-! ## Reset (70_reset_and_hazards.md R210, R211) -/

/-- A rising edge with rst = 1: every item takes its reset value, every buffer element becomes unwritten, an outstanding response is lost. The configuration is constant; what the host still has to present, what it has received and the model's free-value counter are not the block's (log 5). -/
def State.applyReset (s : State) : State :=
  { State.reset with
    caps := s.caps
    draws := s.draws
    requests := s.requests
    schedule := s.schedule
    received := s.received
    accepts := s.accepts }

end Sys2Proof.Machine
end

