-- ==== Sys2Proof/Machine/Operands.lean ====
section
/-! DEFINITION. Where operands lie: the address map of the host window (20_memory.md R53 to R55), the word layouts of the tables (30_encoding.md R86, R87), and the implicit operands of the commands (R82, 10_state.md R49). -/

namespace Sys2Proof.Machine

/-- The 17 registers of R23. -/
inductive Reg where
  | id | paramInCap | paramTokCap | paramOutCap | ctrl | cmd | status | errCode | errPos
  | inLen | tokLen | outLen | root | nodeCount | leafCount | rootWeightLo | rootWeightHi
deriving DecidableEq, Repr

/-- What a mapped word address presents. Buffer words are named by their first element. -/
inductive Location where
  | reg (r : Reg)
  | freq (s : Fin 256)
  | node (i : Fin 511) (word : Fin 4)
  | code (s : Fin 256) (word : Fin 16)
  | inBuf (k : Nat)
  | tokBuf (k : Nat)
  | outBuf (k : Nat)
deriving DecidableEq, Repr

/-- The register at word offset `n` of the window (R23). -/
def regAt : Nat → Option Reg
  | 0 => some .id
  | 1 => some .paramInCap
  | 2 => some .paramTokCap
  | 3 => some .paramOutCap
  | 4 => some .ctrl
  | 5 => some .cmd
  | 6 => some .status
  | 7 => some .errCode
  | 8 => some .errPos
  | 9 => some .inLen
  | 10 => some .tokLen
  | 11 => some .outLen
  | 12 => some .root
  | 13 => some .nodeCount
  | 14 => some .leafCount
  | 15 => some .rootWeightLo
  | 16 => some .rootWeightHi
  | _ => none

/-- The address map of R53; none for a misaligned (R58) or unmapped (R59) address. -/
def locate (c : Config.Caps) (a : HostAddr) : Option Location :=
  let n := a.toNat
  if n % 4 ≠ 0 then none
  else if n < 0x44 then (regAt (n / 4)).map Location.reg
  else if 0x400 ≤ n ∧ n < 0x800 then some (.freq (Fin.ofNat 256 ((n - 0x400) / 4)))
  else if 0x2000 ≤ n ∧ n < 0x3FF0 then
    some (.node (Fin.ofNat 511 ((n - 0x2000) / 16)) (Fin.ofNat 4 (n / 4)))
  else if 0x4000 ≤ n ∧ n < 0x8000 then
    some (.code (Fin.ofNat 256 ((n - 0x4000) / 64)) (Fin.ofNat 16 (n / 4)))
  else if 0x10000 ≤ n ∧ n < 0x10000 + c.inCap then some (.inBuf (n - 0x10000))
  else if 0x40000 ≤ n ∧ n < 0x40000 + c.tokCap then some (.tokBuf (n - 0x40000))
  else if 0x80000 ≤ n ∧ n < 0x80000 + c.outCap then some (.outBuf (n - 0x80000))
  else none

/-- `read_only` of R52. -/
def Location.readOnly : Location → Bool
  | .reg .ctrl => false
  | .reg .cmd => false
  | .reg .status => false
  | .reg .inLen => false
  | .reg .tokLen => false
  | .reg _ => true
  | .freq _ => false
  | .node _ _ => true
  | .code _ _ => true
  | .inBuf _ => false
  | .tokBuf _ => false
  | .outBuf _ => false

/-- The locations a HostRead gives exactly while the engine is busy (R51, R64); CMD, which reads 0 always, is not among them. -/
def Location.exactWhileBusy : Location → Bool
  | .reg .id => true
  | .reg .paramInCap => true
  | .reg .paramTokCap => true
  | .reg .paramOutCap => true
  | .reg .ctrl => true
  | .reg .status => true
  | _ => false

/-! ## Word layouts -/

/-- NODE[i] word j (R86). -/
def Node.word (n : Node) (j : Fin 4) : Word :=
  match j with
  | 0 => n.weight.extractLsb' 0 32
  | 1 => (0#24 ++ n.weight.extractLsb' 32 8 : BitVec 32)
  | 2 => (0#7 ++ BitVec.ofNat 9 n.right.val ++ 0#7 ++ BitVec.ofNat 9 n.left.val : BitVec 32)
  | 3 => (BitVec.ofBool n.isInternal ++ 0#22 ++ BitVec.ofBool n.synth ++ n.sym : BitVec 32)

/-- CODE[s] word j (R87): BITS has no bit 255, which reads 0; words 9 to 15 read 0. -/
def CodeEntry.word (e : CodeEntry) (j : Fin 16) : Word :=
  if j.val = 0 then (0#22 ++ BitVec.ofBool e.synth ++ BitVec.ofBool e.valid ++ e.len : BitVec 32)
  else if j.val ≤ 8 then e.bits.extractLsb' (32 * (j.val - 1)) 32
  else 0

/-- The four lanes of a buffer word, lane 0 in bits [7:0] (R56). -/
def wordOfLanes (b0 b1 b2 b3 : Byte) : Word := (b3 ++ b2 ++ b1 ++ b0 : BitVec 32)

/-- Lane `b` of a word (R56). -/
def lane (d : Word) (b : Nat) : Byte := d.extractLsb' (8 * b) 8

/-- The word a list of four elements makes (R56). -/
def wordOfList : List Byte → Word
  | [b0, b1, b2, b3] => wordOfLanes b0 b1 b2 b3
  | _ => 0

/-- The four elements of a word, in increasing index (R56). -/
def lanesOf (d : Word) : List Byte := [lane d 0, lane d 1, lane d 2, lane d 3]

/-! ## Implicit operands of the commands -/

/-- The input sequence of COUNT, ENCODE and COMPRESS: IN_BUF[0..IN_LEN-1] (R41), unwritten elements drawn (R48). -/
def State.inputBytes (s : State) : List Byte := s.inBuf.readList s.draws 0 s.inLen.toNat

/-- The stream DECODE reads: TOK_BUF[0..TOK_LEN-1] (R42), unwritten elements drawn (R48). -/
def State.streamTokens (s : State) : List Byte := s.tokBuf.readList s.draws 0 s.tokLen.toNat

/-- The input length check: IN_LEN > IN_CAP (R31). -/
def State.inLenBad (s : State) : Bool := decide (s.caps.inCap < s.inLen.toNat)

/-- The stream length check: TOK_LEN > TOK_CAP (R32). -/
def State.tokLenBad (s : State) : Bool := decide (s.caps.tokCap < s.tokLen.toNat)

end Sys2Proof.Machine
end

