-- ==== Sys2Proof/Machine/Flags.lean ====
section
/-! DEFINITION. STATUS, CTRL and the codes of ERRCODE as the host reads them, write-1-to-clear, the flags commands write, and `irq` (10_state.md R26, R28, R29, R45, R47). -/

namespace Sys2Proof.Machine

/-- STATUS.BUSY: 1 iff ENG is Busy (R28). -/
def State.busy (s : State) : Bool :=
  match s.eng with
  | .idle => false
  | .busy _ => true

/-- The STATUS word (R28): bits 0 to 9 in order, bit 7 and bits [31:10] read 0. -/
def State.statusWord (s : State) : Word :=
  (BitVec.ofBoolListLE
    [s.busy, s.status.done, s.status.err, s.status.treePresent, s.status.synthPresent,
     s.status.synthCollide, s.status.synthHit, false, s.status.busyViol, s.status.busErr]).setWidth 32

/-- The CTRL word (R26): bit 0 is IRQ_EN, bits [31:1] read 0. -/
def State.ctrlWord (s : State) : Word := (BitVec.ofBool s.irqEn).setWidth 32

/-- The codes of R185. -/
def ErrCode.toCode : ErrCode → BitVec 4
  | .none => 0
  | .illegalCmd => 1
  | .malformedBit => 2
  | .truncated => 3
  | .symbolNotInTable => 4
  | .noTree => 5
  | .lenRange => 6
  | .outOverflow => 7
  | .mergeUnderflow => 8

/-- The ERRCODE word (R29): bits [3:0] the code, the rest 0. -/
def State.errCodeWord (s : State) : Word := s.errCode.toCode.setWidth 32

/-- A write of `d` to STATUS clears each W1C field whose bit in `d` is 1 and changes no other (R28, R52). -/
def State.clearStatus (s : State) (d : Word) : State :=
  { s with status := { s.status with
      done := s.status.done && !d.getLsbD 1
      busyViol := s.status.busyViol && !d.getLsbD 8
      busErr := s.status.busErr && !d.getLsbD 9 } }

/-- A write of `d` to CTRL (R26, R52). -/
def State.writeCtrl (s : State) (d : Word) : State := { s with irqEn := d.getLsbD 0 }

/-- A bus error sets STATUS.BUS_ERR (R58 to R60). -/
def State.flagBusErr (s : State) : State := { s with status := { s.status with busErr := true } }

/-- A write dropped because the engine is busy sets STATUS.BUSY_VIOL (R63). -/
def State.flagBusyViol (s : State) : State := { s with status := { s.status with busyViol := true } }

/-- SYNTH_HIT is 0 from the start of ENCODE and COMPRESS (R28, R140, R166). -/
def State.clearSynthHit (s : State) : State := { s with status := { s.status with synthHit := false } }

/-- `irq = CTRL.IRQ_EN AND STATUS.DONE` (R47); 0 in the reset state (R210), and R47 alone before a reset's first edge (log 19). -/
def State.irq (s : State) : Bool := s.irqEn && s.status.done

end Sys2Proof.Machine
end

