-- ==== Sys2Proof/Machine/Frequency.lean ====
section
/-! DEFINITION. COUNT, the frequency analyzer (40_frequency.md). -/

namespace Sys2Proof.Machine

/-- FREQ[s] <- FREQ[s] + 1 (R100). -/
def bumpFreq (f : FreqTable) (b : Byte) : FreqTable :=
  f.set (symIndex b).val (f.get (symIndex b) + 1) (symIndex b).isLt

/-- The table COUNT builds of an input: from all-zero, one increment a byte, in order (R100). -/
def countTable (input : List Byte) : FreqTable := input.foldl bumpFreq zeroFreq

/-- COUNT_body (R166): COUNT after its length check. -/
def countBody (s : State) : CmdResult :=
  .completed { s with
    freq := countTable s.inputBytes
    draws := s.draws + s.inBuf.drawCount 0 s.inLen.toNat }

/-- exec_COUNT (R100): the check is made before any write. -/
def countCommand (s : State) : CmdResult :=
  if s.inLenBad then .raised .lenRange 0 s else countBody s

/-- COUNT's completion step (R83, R100). -/
def execCount (s : State) : Host.Outcome State Fault Refusal := .next (countCommand s).finish

end Sys2Proof.Machine
end

