-- ==== Sys2Proof/Machine/TreeBuilder.lean ====
section
/-! DEFINITION. BUILD_TREE, the tree builder (41_tree_builder.md). -/

namespace Sys2Proof.Machine

/-- A leaf of symbol `s` and weight `w` (R35, R111). -/
def leafNode (s : Byte) (w : Weight) : Node := { zeroNode with weight := w, sym := s }

/-- The synthetic leaf (R112). -/
def synthLeaf : Node := { zeroNode with weight := Config.synthWeight, sym := Config.synthSym, synth := true }

/-- Step 1 (R111): one leaf per non-zero count, in increasing symbol order; `s` is the symbol of the first count given. -/
def leavesFrom : Nat → List Word → List Node
  | _, [] => []
  | s, c :: cs =>
    if c = 0 then leavesFrom (s + 1) cs
    else leafNode (BitVec.ofNat 8 s) (c.setWidth 40) :: leavesFrom (s + 1) cs

/-- Step 2 (R112): the synthetic leaf joins exactly when there is one leaf. -/
def withSynthetic (leaves : List Node) : List Node :=
  match leaves with
  | [l] => [l, synthLeaf]
  | ls => ls

/-- NODE[i] among the nodes made so far. -/
def nodeAt (nodes : List Node) (i : Nat) : Node := nodes.getD i zeroNode

/-- `symkey(i)` of R113; SENTINEL is an argument so that another reading of it can be compared (R12, log 11). -/
def symKey (sentinel : Nat) (n : Node) : Nat := if n.isInternal then sentinel else n.sym.toNat

/-- `key(i) < key(j)` (R113, compared as in R16): weight, then symkey, then index. -/
def keyLt (sentinel : Nat) (nodes : List Node) (i j : Nat) : Bool :=
  let a := nodeAt nodes i
  let b := nodeAt nodes j
  let wa := a.weight.toNat
  let wb := b.weight.toNat
  let ya := symKey sentinel a
  let yb := symKey sentinel b
  decide (wa < wb) || (wa == wb && (decide (ya < yb) || (ya == yb && decide (i < j))))

/-- The element of `best` and the list with the smallest key (R16). -/
def argminKey (sentinel : Nat) (nodes : List Node) : Nat → List Nat → Nat
  | best, [] => best
  | best, j :: js => argminKey sentinel nodes (if keyLt sentinel nodes j best then j else best) js

/-- Take the lowest-key node out of Q (R115); none when Q is empty. -/
def extractMin (sentinel : Nat) (nodes : List Node) : List Nat → Option (Nat × List Nat)
  | [] => none
  | i :: q =>
    let a := argminKey sentinel nodes i q
    some (a, (i :: q).erase a)

/-- The internal node over `a` and `b` (R115): the first extracted is LEFT, the second RIGHT; the stored SYM is 0 (R12). -/
def mergeNode (nodes : List Node) (a b : Nat) : Node :=
  { zeroNode with
    isInternal := true
    weight := (nodeAt nodes a).weight + (nodeAt nodes b).weight
    left := Fin.ofNat 511 a
    right := Fin.ofNat 511 b }

/-- Step 4 (R115): while two nodes can be extracted, merge them. The first argument bounds the merges, L - 1 of them (R117). -/
def mergeLoop (sentinel : Nat) : Nat → List Node → List Nat → List Node
  | 0, nodes, _ => nodes
  | k + 1, nodes, q =>
    match extractMin sentinel nodes q with
    | none => nodes
    | some (a, q1) =>
      match extractMin sentinel nodes q1 with
      | none => nodes
      | some (b, q2) => mergeLoop sentinel k (nodes ++ [mergeNode nodes a b]) (q2 ++ [nodes.length])

/-- All nodes of the tree over `leaves`, by index. -/
def mergeAll (sentinel : Nat) (leaves : List Node) : List Node :=
  mergeLoop sentinel (leaves.length - 1) leaves (List.range leaves.length)

/-- What BUILD_TREE leaves in NODE memory, the tree registers and the three tree flags: a function of FREQ alone (R121). -/
structure TreeImage where
  node         : NodeTable
  root         : Fin 511
  nodeCount    : Fin 512
  leafCount    : Fin 257
  present      : Bool
  synthPresent : Bool
  synthCollide : Bool
deriving DecidableEq, Repr

/-- The absent tree (R114). -/
def absentTree : TreeImage :=
  { node := zeroNodes, root := 0, nodeCount := 0, leafCount := 0,
    present := false, synthPresent := false, synthCollide := false }

/-- The tree over the leaves of step 1 (R110). -/
def treeOfLeaves (sentinel : Nat) (real : List Node) : TreeImage :=
  match real with
  | [] => absentTree
  | l :: ls =>
    let leaves := withSynthetic (l :: ls)
    let nodes := mergeAll sentinel leaves
    { node := tableOfList 511 zeroNode nodes
      root := Fin.ofNat 511 (nodes.length - 1)
      nodeCount := Fin.ofNat 512 nodes.length
      leafCount := Fin.ofNat 257 leaves.length
      present := true
      synthPresent := ls.isEmpty
      synthCollide := ls.isEmpty && l.sym == Config.synthSym }

/-- The tree of a frequency table, with SENTINEL as R12 fixes it. -/
def treeOf (f : FreqTable) : TreeImage := treeOfLeaves Config.sentinel (leavesFrom 0 f.toList)

/-- Write a tree image into NODE memory, the tree registers and the tree flags (R110). -/
def State.installTree (s : State) (t : TreeImage) : State :=
  { s with
    node := t.node
    root := t.root
    nodeCount := t.nodeCount
    leafCount := t.leafCount
    status := { s.status with
      treePresent := t.present
      synthPresent := t.synthPresent
      synthCollide := t.synthCollide } }

/-- BUILD_TREE_body, which is all of exec_BUILD_TREE (R110): NODE and CODE are cleared first (R116). -/
def buildTreeBody (s : State) : CmdResult :=
  .completed (s.clearCode.installTree (treeOf s.freq))

/-- BUILD_TREE's completion step (R83, R110). -/
def execBuildTree (s : State) : Host.Outcome State Fault Refusal := .next (buildTreeBody s).finish

end Sys2Proof.Machine
end

