-- ==== Sys2Proof/Machine/CodeTable.lean ====
section
/-! DEFINITION. BUILD_TABLE, the code-table generator (42_code_table.md). -/

namespace Sys2Proof.Machine

/-- A path (00_scope.md R14), first digit first: false is '0' (left), true is '1' (right). -/
abbrev Path := List Bool

/-- The number whose bit j is digit j of the path. -/
def pathNumber : Path → Nat
  | [] => 0
  | b :: p => b.toNat + 2 * pathNumber p

/-- `BITS = p`: BITS[j] = p[j] for j < len(p), and 0 above (R130). -/
def pathBits (p : Path) : BitVec 255 := BitVec.ofNat 255 (pathNumber p)

/-- walk(i, p) of R130: depth-first, left first; the leaves met, each with its path (R131). The first argument bounds the depth: children have smaller indices (R36), so 511 levels reach every leaf of a tree BUILD_TREE made (log 8). -/
def walk (node : NodeTable) : Nat → Fin 511 → Path → List (Node × Path)
  | 0, _, _ => []
  | depth + 1, i, p =>
    let n := node.get i
    if n.isInternal then
      walk node depth n.left (p ++ [false]) ++ walk node depth n.right (p ++ [true])
    else [(n, p)]

/-- The leaves of the tree rooted at `root`, each with its path. -/
def leafPaths (node : NodeTable) (root : Fin 511) : List (Node × Path) := walk node 511 root []

/-- The entry of a path (R130, R132). -/
def codeEntry (synth : Bool) (p : Path) : CodeEntry :=
  { valid := true, synth := synth, len := BitVec.ofNat 8 p.length, bits := pathBits p }

/-- record(i, p) of R130: a real leaf records its code; the synthetic leaf only if no real leaf of the tree has its symbol (R132). -/
def recordLeaf (leaves : List (Node × Path)) (c : CodeTable) (l : Node × Path) : CodeTable :=
  if l.1.synth && leaves.any (fun r => !r.1.synth && r.1.sym == l.1.sym) then c
  else c.set (symIndex l.1.sym).val (codeEntry l.1.synth l.2) (symIndex l.1.sym).isLt

/-- The code table of the tree rooted at `root` (R130). -/
def codeTableOf (node : NodeTable) (root : Fin 511) : CodeTable :=
  (leafPaths node root).foldl (recordLeaf (leafPaths node root)) zeroCodes

/-- The table BUILD_TABLE leaves: that of the tree held, or all-invalid when no tree is present (R133). -/
def State.tableHeld (s : State) : CodeTable :=
  if s.status.treePresent then codeTableOf s.node s.root else zeroCodes

/-- BUILD_TABLE_body, which is all of exec_BUILD_TABLE (R130): CODE is cleared, then written. -/
def buildTableBody (s : State) : CmdResult := .completed { s.clearCode with code := s.tableHeld }

/-- BUILD_TABLE's completion step (R83, R130). -/
def execBuildTable (s : State) : Host.Outcome State Fault Refusal := .next (buildTableBody s).finish

end Sys2Proof.Machine
end

