-- ==== Sys2Proof/Machine/Encoder.lean ====
section
/-! DEFINITION. ENCODE, the bit-stream encoder (43_encoder.md). -/

namespace Sys2Proof.Machine

/-- The token of a binary digit (30_encoding.md R88): 0x30 for '0', 0x31 for '1'. -/
def tokenOf (b : Bool) : Byte := if b then 0x31 else 0x30

/-- The tokens of an entry's code: digit j is BITS[j], for j < LEN (R140). -/
def CodeEntry.tokens (e : CodeEntry) : List Byte :=
  (List.range e.len.toNat).map fun j => tokenOf (e.bits.getLsbD j)

/-- What the loop of R140 does: the tokens it writes, whether a synthetic entry was used (R143), how many input bytes it read, and the error it raised. -/
structure EncodeRun where
  tokens : List Byte
  hit    : Bool
  read   : Nat
  error  : Option (ErrCode × Nat)
deriving DecidableEq, Repr

/-- The loop of R140 from byte index `k` and output position `p`: for each byte the table check comes before the capacity check, and nothing of a failing byte is written (R141, R142, R186). -/
def encodeLoop (code : CodeTable) (tokCap : Nat) : Nat → Nat → List Byte → EncodeRun
  | _, _, [] => { tokens := [], hit := false, read := 0, error := none }
  | k, p, b :: bs =>
    let e := code.get (symIndex b)
    if !e.valid then { tokens := [], hit := false, read := 1, error := some (.symbolNotInTable, k) }
    else if tokCap < p + e.len.toNat then
      { tokens := [], hit := false, read := 1, error := some (.outOverflow, k) }
    else
      let r := encodeLoop code tokCap (k + 1) (p + e.len.toNat) bs
      { tokens := e.tokens ++ r.tokens, hit := e.synth || r.hit, read := r.read + 1, error := r.error }

/-- The run of ENCODE on the state's input. -/
def State.encodeRun (s : State) : EncodeRun := encodeLoop s.code s.caps.tokCap 0 0 s.inputBytes

/-- ENCODE_body (R166): ENCODE after its length check. TOK_LEN is the stream length on success and 0 on an error; tokens written before the error stay (R146). SYNTH_HIT, cleared first, ends as "a synthetic entry was used". -/
def encodeBody (s : State) : CmdResult :=
  let r := s.encodeRun
  let t : State :=
    { s with
      tokBuf := s.tokBuf.writeList 0 r.tokens
      status := { s.status with synthHit := r.hit }
      draws := s.draws + s.inBuf.drawCount 0 r.read }
  match r.error with
  | none => .completed { t with tokLen := BitVec.ofNat 32 r.tokens.length }
  | some (c, k) => .raised c k { t with tokLen := 0 }

/-- The LEN_RANGE branch of ENCODE and COMPRESS (R140, R166): TOK_LEN <- 0, SYNTH_HIT <- 0, and the raise. -/
def raiseInLen (s : State) : CmdResult := .raised .lenRange 0 { s.clearSynthHit with tokLen := 0 }

/-- exec_ENCODE (R140). -/
def encodeCommand (s : State) : CmdResult :=
  if s.inLenBad then raiseInLen s else encodeBody s

/-- ENCODE's completion step (R83, R140). -/
def execEncode (s : State) : Host.Outcome State Fault Refusal := .next (encodeCommand s).finish

end Sys2Proof.Machine
end

