-- ==== Sys2Proof/Machine/Decoder.lean ====
section
/-! DEFINITION. DECODE, the bit-stream decoder (44_decoder.md). -/

namespace Sys2Proof.Machine

/-- The decoder's two states (R155); local to one completion step (10_state.md R44). -/
inductive DecoderState where
  | atRoot
  | descending
deriving DecidableEq, Repr

/-- The branch a token selects (R88, R150): '0' is left (false), '1' is right (true), any other token none. -/
def digitOf (t : Byte) : Option Bool :=
  if t = 0x30 then some false else if t = 0x31 then some true else none

/-- The child of a node on a branch (R150). -/
def Node.child (n : Node) (digit : Bool) : Fin 511 := if digit then n.right else n.left

/-- What the loop of R150 does: the bytes it writes, how many tokens it read, and the error it raised. -/
structure DecodeRun where
  bytes : List Byte
  read  : Nat
  error : Option (ErrCode × Nat)
deriving DecidableEq, Repr

/-- The loop of R150 from token index `k`, with `cur`, `st` and `start` as there. A malformed token ends it at once (R151); truncation is seen only at the end (R154). -/
def decodeLoop (node : NodeTable) (root : Fin 511) :
    Nat → Fin 511 → DecoderState → Nat → List Byte → DecodeRun
  | _, _, .atRoot, _, [] => { bytes := [], read := 0, error := none }
  | _, _, .descending, start, [] => { bytes := [], read := 0, error := some (.truncated, start) }
  | k, cur, _, start, t :: ts =>
    match digitOf t with
    | none => { bytes := [], read := 1, error := some (.malformedBit, k) }
    | some digit =>
      let next := (node.get cur).child digit
      if (node.get next).isInternal then
        let r := decodeLoop node root (k + 1) next .descending start ts
        { r with read := r.read + 1 }
      else
        let r := decodeLoop node root (k + 1) root .atRoot (k + 1) ts
        { bytes := (node.get next).sym :: r.bytes, read := r.read + 1, error := r.error }

/-- The run of DECODE on the state's stream: it starts AtRoot (R150). -/
def State.decodeRun (s : State) : DecodeRun :=
  decodeLoop s.node s.root 0 s.root .atRoot 0 s.streamTokens

/-- DECODE past its length and tree checks (R150). OUT_LEN is the output length on success and 0 on an error; bytes written before the error stay (R158). -/
def decodeBody (s : State) : CmdResult :=
  let r := s.decodeRun
  let t : State :=
    { s with
      outBuf := s.outBuf.writeList 0 r.bytes
      draws := s.draws + s.tokBuf.drawCount 0 r.read }
  match r.error with
  | none => .completed { t with outLen := BitVec.ofNat 32 r.bytes.length }
  | some (c, k) => .raised c k { t with outLen := 0 }

/-- exec_DECODE (R150): the length check, the empty stream (R156), the absent tree (R157), then the loop. -/
def decodeCommand (s : State) : CmdResult :=
  if s.tokLenBad then .raised .lenRange 0 { s with outLen := 0 }
  else if s.tokLen = 0 then .completed { s with outLen := 0 }
  else if !s.status.treePresent then .raised .noTree 0 { s with outLen := 0 }
  else decodeBody s

/-- DECODE's completion step (R83, R150). -/
def execDecode (s : State) : Host.Outcome State Fault Refusal := .next (decodeCommand s).finish

end Sys2Proof.Machine
end

