-- ==== Sys2Proof/Machine/Control.lean ====
section
/-! DEFINITION. NOP, COMPRESS and the reserved words (45_control.md). -/

namespace Sys2Proof.Machine

/-- exec_NOP: `complete` (R165). -/
def nopCommand (s : State) : CmdResult := .completed s

/-- NOP's completion step (R83, R165). -/
def execNop (s : State) : Host.Outcome State Fault Refusal := .next (nopCommand s).finish

/-- The four bodies of COMPRESS, one after the other (R166). -/
def compressBody (s : State) : CmdResult :=
  (((countBody s).andThen buildTreeBody).andThen buildTableBody).andThen encodeBody

/-- exec_COMPRESS (R166). -/
def compressCommand (s : State) : CmdResult :=
  if s.inLenBad then raiseInLen s else compressBody s.clearSynthHit

/-- COMPRESS's completion step (R83, R166). -/
def execCompress (s : State) : Host.Outcome State Fault Refusal := .next (compressCommand s).finish

/-- exec_ILLEGAL (R167): an accepted reserved word is reported, and nothing else changes (R84). -/
def illegalCommand (s : State) : CmdResult := .raised .illegalCmd 0 s

/-- The completion step of a reserved word (R83, R167). -/
def completeIllegal (s : State) : Host.Outcome State Fault Refusal := .next (illegalCommand s).finish

end Sys2Proof.Machine
end

