-- ==== Sys2Proof/Machine/Bus.lean ====
section
/-! DEFINITION. The host port: HostRead and HostWrite (20_memory.md R51, R52), and the request and response transfers (R73, R74). -/

namespace Sys2Proof.Machine

/-- The weight of the root when a tree is present, else 0 (10_state.md R37). -/
def State.rootWeight (s : State) : Weight :=
  if s.status.treePresent then (s.node.get s.root).weight else 0

/-- What a register reads (10_state.md R23 to R37). CMD is write-only and reads 0 (R27). -/
def State.regWord (s : State) : Reg → Word
  | .id => Config.idWord
  | .paramInCap => BitVec.ofNat 32 s.caps.inCap
  | .paramTokCap => BitVec.ofNat 32 s.caps.tokCap
  | .paramOutCap => BitVec.ofNat 32 s.caps.outCap
  | .ctrl => s.ctrlWord
  | .cmd => 0
  | .status => s.statusWord
  | .errCode => s.errCodeWord
  | .errPos => s.errPos
  | .inLen => s.inLen
  | .tokLen => s.tokLen
  | .outLen => s.outLen
  | .root => BitVec.ofNat 32 s.root.val
  | .nodeCount => BitVec.ofNat 32 s.nodeCount.val
  | .leafCount => BitVec.ofNat 32 s.leafCount.val
  | .rootWeightLo => s.rootWeight.extractLsb' 0 32
  | .rootWeightHi => (0#24 ++ s.rootWeight.extractLsb' 32 8 : BitVec 32)

/-- A buffer word (R56): unwritten lanes are draws (R48). -/
def Memory.readWord (m : Memory) (d k : Nat) : Word := wordOfList (m.readList d k 4)

/-- `word_at(a)` of R51. -/
def State.wordAt (s : State) : Location → Word
  | .reg r => s.regWord r
  | .freq y => s.freq.get y
  | .node i j => (s.node.get i).word j
  | .code y j => (s.code.get y).word j
  | .inBuf k => s.inBuf.readWord s.draws k
  | .tokBuf k => s.tokBuf.readWord s.draws k
  | .outBuf k => s.outBuf.readWord s.draws k

/-- How many draws `wordAt` takes: one for each unwritten lane. -/
def State.drawsAt (s : State) : Location → Nat
  | .inBuf k => s.inBuf.drawCount k 4
  | .tokBuf k => s.tokBuf.drawCount k 4
  | .outBuf k => s.outBuf.drawCount k 4
  | _ => 0

/-- HostRead(a) of R51: the response and the state after. -/
def hostRead (a : HostAddr) (s : State) : Response × State :=
  match locate s.caps a with
  | none => ({ data := 0, err := true }, s.flagBusErr)
  | some l =>
    if l = .reg .cmd then ({ data := 0, err := false }, s)
    else if s.busy && !l.exactWhileBusy then
      ({ data := Config.drawWord s.draws, err := false }, { s with draws := s.draws + 1 })
    else ({ data := s.wordAt l, err := false }, { s with draws := s.draws + s.drawsAt l })

/-- `store_word(a, d)` of R52; the locations it is not used for are unchanged. -/
def State.storeWord (s : State) (l : Location) (d : Word) : State :=
  match l with
  | .reg .inLen => { s with inLen := d }
  | .reg .tokLen => { s with tokLen := d }
  | .freq y => { s with freq := s.freq.set y.val d y.isLt }
  | .inBuf k => { s with inBuf := s.inBuf.writeList k (lanesOf d) }
  | .tokBuf k => { s with tokBuf := s.tokBuf.writeList k (lanesOf d) }
  | .outBuf k => { s with outBuf := s.outBuf.writeList k (lanesOf d) }
  | _ => s

/-- HostWrite(a, d) of R52: the err bit and the state after. -/
def hostWrite (a : HostAddr) (d : Word) (s : State) : Bool × State :=
  match locate s.caps a with
  | none => (true, s.flagBusErr)
  | some l =>
    if l.readOnly then (true, s.flagBusErr)
    else if l = .reg .status then (false, s.clearStatus d)
    else if l = .reg .ctrl then (false, s.writeCtrl d)
    else if s.busy then (true, s.flagBusyViol)
    else if l = .reg .cmd then (false, s.accept d)
    else (false, s.storeWord l d)

/-- A request transfers and takes effect at that edge; its response is then outstanding (R73, R74). -/
def State.transfer (s : State) : Request → State
  | .read a => { (hostRead a s).2 with rsp := some (hostRead a s).1 }
  | .write a d => { (hostWrite a d s).2 with rsp := some { data := 0, err := (hostWrite a d s).1 } }

/-- The move `request` (R73): the oldest waiting request transfers if no response is outstanding; otherwise nothing transfers at this edge. -/
def State.requestEdge (s : State) : State :=
  match s.rsp, s.requests with
  | none, r :: rs => State.transfer { s with requests := rs } r
  | _, _ => s

/-- One response fewer for the host to take. -/
def State.countAccepted (s : State) : State := { s with accepts := s.accepts.map (· - 1) }

/-- The host no longer takes responses: it holds rsp_ready = 0 for good (R230; 93_implementation_defined.md U18; log 18). -/
def State.hostStalls (s : State) : Bool := s.accepts == some 0

/-- The move `response` (R74): the outstanding response transfers to the host. Where the host takes no more, nothing transfers, and the port is stuck (R230, U18). -/
def State.responseEdge (s : State) : State :=
  match s.rsp with
  | some r => if s.hostStalls then s else { s.countAccepted with rsp := none, received := r :: s.received }
  | none => s

end Sys2Proof.Machine
end

