-- ==== Sys2Proof/Machine/Schedule.lean ====
section
/-! DEFINITION. The completion step (30_encoding.md R83) and the moves of 70_reset_and_hazards.md R233. -/

namespace Sys2Proof.Machine

/-- complete_step of R83 for the accepted word `w`: decode, then the command, or the report of an illegal word. -/
def completeStep (w : Word) (s : State) : Host.Outcome State Fault Refusal :=
  match decodeWord w with
  | .ok i => exec i s
  | .error _ => completeIllegal s

/-- One move. A move that is not enabled changes nothing: an edge at which nothing happens. -/
def perform (m : Move) (s : State) : Host.Outcome State Fault Refusal :=
  match m with
  | .request => .next s.requestEdge
  | .response => .next s.responseEdge
  | .completion =>
    match s.eng with
    | .idle => .next s
    | .busy w => completeStep w s
  | .reset => .next s.applyReset

/-- The move once the schedule is used up: the accepted command completes, else the outstanding response transfers, else a waiting request does (R231). With a host that takes no more responses, the response's move changes nothing, and so does every step from there on (U18). -/
def State.defaultMove (s : State) : Move :=
  if s.busy then .completion else if s.rsp.isSome then .response else .request

/-- The next move: the schedule's first, or the default. -/
def State.nextMove (s : State) : Move :=
  match s.schedule with
  | m :: _ => m
  | [] => s.defaultMove

/-- The state with that move taken off the schedule. -/
def State.popped (s : State) : State := { s with schedule := s.schedule.tail }

end Sys2Proof.Machine
end

