-- ==== Sys2Proof/Machine/Ports.lean ====
section
/-! DEFINITION. The ports of 20_memory.md R72 but clk, as they stand before the next move. The inputs of the coming edge are what the next move says they are (logs 3, 19); waits of the block or the host with a valid port at 0, and a ready port at 1 where nothing transfers, are not shown (log 20). Where the spec gives a port no value the function answers none (log 17). -/

namespace Sys2Proof.Machine

/-! ## Inputs -/

/-- rst: 1 before each rising edge that resets (R210; log 19). -/
def State.rst (s : State) : Bool := s.nextMove == .reset

/-- The request the host offers. -/
def State.reqPort (s : State) : Option Request := s.requests.head?

/-- req_valid: the host offers a request. DESIGN CHOICE (log 20): the host offers its next transaction all the time, where R73 leaves it free to hold req_valid = 0 between requests. -/
def State.reqValid (s : State) : Bool := s.reqPort.isSome

/-- A HostWrite. -/
def Request.isWrite : Request → Bool
  | .read _ => false
  | .write _ _ => true

/-- The byte address of a request. -/
def Request.addr : Request → HostAddr
  | .read a => a
  | .write a _ => a

/-- The write data of a request; a HostRead has none. -/
def Request.wdata : Request → Option Word
  | .read _ => none
  | .write _ d => some d

/-- req_write. DESIGN CHOICE (log 17): none while req_valid = 0, where the spec leaves it to the host. -/
def State.reqWrite (s : State) : Option Bool := s.reqPort.map Request.isWrite

/-- req_addr. DESIGN CHOICE (log 17): none while req_valid = 0, where the spec leaves it to the host. -/
def State.reqAddr (s : State) : Option HostAddr := s.reqPort.map Request.addr

/-- req_wdata. DESIGN CHOICE (log 17): none while req_valid = 0 and for a HostRead, where the spec leaves it to the host. -/
def State.reqWdata (s : State) : Option Word := s.reqPort.bind Request.wdata

/-- rsp_ready: the host takes a response at the coming edge; never again once it stalls (R230; log 18). DESIGN CHOICE (log 20): it is 0 at every edge where no response is to transfer, where the spec leaves its level to the host. -/
def State.rspReady (s : State) : Bool := s.nextMove == .response && !s.hostStalls

/-! ## Outputs -/

/-- req_ready: the block takes a request at the coming edge. It is 0 while a response is outstanding (R73) and while rst = 1 (R210); at any other edge the block may hold it 0 (R73), which the next move says. DESIGN CHOICE (log 20): it is 0 at every edge where no request is to transfer, where the spec leaves its level to the block. -/
def State.reqReady (s : State) : Bool := s.nextMove == .request && s.rsp.isNone

/-- The response the block offers: the outstanding one (R74), none while rst = 1 (R210). DESIGN CHOICE (log 20): it is offered from the transfer of its request on, where R74 and R232 leave the block's delay open. -/
def State.rspPort (s : State) : Option Response := if s.rst then none else s.rsp

/-- rsp_valid. Its rise right at a request's transfer is the model's choice (log 20). -/
def State.rspValid (s : State) : Bool := s.rspPort.isSome

/-- rsp_rdata. DESIGN CHOICE (log 17): none while rsp_valid = 0, where the spec gives no value. -/
def State.rspRdata (s : State) : Option Word := s.rspPort.map Response.data

/-- rsp_err. DESIGN CHOICE (log 17): none while rsp_valid = 0, where the spec gives no value. -/
def State.rspErr (s : State) : Option Bool := s.rspPort.map Response.err

end Sys2Proof.Machine
end

