-- ==== Sys2Proof/Machine/Step.lean ====
section
/-! DEFINITION. One step of the machine (70_reset_and_hazards.md R233): the next move is the schedule's, or a fair default (R231). -/

namespace Sys2Proof.Machine

/-- One step: the schedule's next move, or the default. -/
def step (s : State) : Host.Outcome State Fault Refusal := perform s.nextMove s.popped

/-- `s` with the command word `w` accepted (R83), so that the next step is its completion step (log 6). The block fetches nothing (R22, R70): the accepted word in ENG is what it runs next. -/
def State.withFetchWord (s : State) (nbits w : Nat) : State :=
  { s.accept (BitVec.ofNat 32 (w % 2 ^ nbits)) with schedule := .completion :: s.schedule }

end Sys2Proof.Machine
end

