-- ==== Sys2Proof/WellFormed.lean ====
section
/-! DEFINITION. The checks on what the model is given: an instruction (none can fail: commands have no operand, 30_encoding.md R82), a command word (R84) and a configuration (00_scope.md R10). -/

namespace Sys2Proof

/-- A command has no operand field, so every term of `Instr` is well formed (R82). -/
def Instr.wellFormed : Instr → Bool
  | .nop => true
  | .count => true
  | .buildTree => true
  | .buildTable => true
  | .encode => true
  | .decode => true
  | .compress => true

/-- R84: a command word is legal iff RSVD = 0 and OP < 0x7. -/
def legalWord (w : Word) : Bool := rsvdField w == 0 && decide ((opField w).toNat < 7)

/-- The constraint of R10 on IN_CAP. -/
def Config.Caps.inCapOk (c : Config.Caps) : Bool := c.inCap % 4 == 0 && decide (4 ≤ c.inCap) && decide (c.inCap ≤ 0x30000)

/-- The constraint of R10 on TOK_CAP. -/
def Config.Caps.tokCapOk (c : Config.Caps) : Bool := c.tokCap % 4 == 0 && decide (4 ≤ c.tokCap) && decide (c.tokCap ≤ 0x40000)

/-- The constraint of R10 on OUT_CAP, with OUT_CAP ≥ TOK_CAP. -/
def Config.Caps.outCapOk (c : Config.Caps) : Bool := c.outCap % 4 == 0 && decide (c.tokCap ≤ c.outCap) && decide (c.outCap ≤ 0x80000)

/-- A configuration R10 allows. -/
def Config.Caps.valid (c : Config.Caps) : Bool := c.inCapOk && c.tokCapOk && c.outCapOk

end Sys2Proof
end

