-- ==== Sys2Proof/Safety.lean ====
section
/-! DEFINITION. What a safe run is, in the terms the statements use: the invariants the spec states of every state (10_state.md R36, R38, R40), defined operands (70_reset_and_hazards.md R216), and what a command leaves in STATUS and in a buffer. -/

namespace Sys2Proof.Machine

/-! ## What a command leaves -/

/-- The STATUS flags after a command ended: DONE = 1, ERR as given, the rest as they were (R45). -/
def Status.ended (st : Status) (err : Bool) : Status := { st with done := true, err := err }

/-- The buffer holds `vs` from index 0 on. -/
def Memory.holds (m : Memory) (vs : List Byte) : Prop := ∀ j (h : j < vs.length), m.read j = some vs[j]

/-- Every element at or above index `n` reads as it did in `m`. -/
def Memory.sameFrom (m m' : Memory) (n : Nat) : Prop := ∀ k, n ≤ k → m'.read k = m.read k

/-- The concatenation, in input order, of the codes' tokens (R89). -/
def codeTokens (c : CodeTable) (bs : List Byte) : List Byte := bs.flatMap fun b => (c.get (symIndex b)).tokens

/-- Every symbol of `bs` has a valid entry. -/
def allCoded (c : CodeTable) (bs : List Byte) : Prop := ∀ b ∈ bs, (c.get (symIndex b)).valid = true

/-- Some symbol of `bs` is encoded by a synthetic entry (R143). -/
def usesSynthetic (c : CodeTable) (bs : List Byte) : Bool := bs.any fun b => (c.get (symIndex b)).synth

/-- Every token is a binary digit (R88). -/
def allDigits (ts : List Byte) : Prop := ∀ t ∈ ts, t = 0x30 ∨ t = 0x31

/-- The elements ENCODE stores into TOK_BUF, from index 0 on: none when the length check fails, else what its loop emits (R140, R146). -/
def State.encodeStores (s : State) : List Byte := if s.inLenBad then [] else s.encodeRun.tokens

/-- The elements DECODE stores into OUT_BUF, from index 0 on: none when a check before the loop ends it, else what its loop emits (R150, R158). -/
def State.decodeStores (s : State) : List Byte :=
  if s.tokLenBad || s.tokLen == 0 || !s.status.treePresent then [] else s.decodeRun.bytes

/-- The elements COMPRESS stores into TOK_BUF, from index 0 on: those of its ENCODE_body, run on the state its first three bodies leave (R166). -/
def State.compressStores (s : State) : List Byte :=
  if s.inLenBad then []
  else (buildTableBody (buildTreeBody (countBody s.clearSynthHit).state).state).state.encodeRun.tokens

/-! ## The address map, in numbers (R53) -/

/-- The ranges R53 lists as mapped, for a word-aligned byte address. -/
def mappedRange (c : Config.Caps) (n : Nat) : Prop :=
  n ≤ 0x00043 ∨ (0x00400 ≤ n ∧ n ≤ 0x007FF) ∨ (0x02000 ≤ n ∧ n ≤ 0x03FEF) ∨ (0x04000 ≤ n ∧ n ≤ 0x07FFF) ∨
    (0x10000 ≤ n ∧ n ≤ 0x10000 + c.inCap - 1) ∨ (0x40000 ≤ n ∧ n ≤ 0x40000 + c.tokCap - 1) ∨
    (0x80000 ≤ n ∧ n ≤ 0x80000 + c.outCap - 1)

/-- An address is `mapped` iff it is word-aligned and falls in one of the ranges (R53). -/
def mapped (c : Config.Caps) (a : HostAddr) : Prop := a.toNat % 4 = 0 ∧ mappedRange c a.toNat

/-- The addresses of `read_only` (R52), in numbers: the RO registers, every NODE word and every CODE word. -/
def readOnlyAddr (n : Nat) : Prop :=
  n ∈ [0x00, 0x04, 0x08, 0x0C, 0x1C, 0x20, 0x2C, 0x30, 0x34, 0x38, 0x3C, 0x40] ∨
    (n % 4 = 0 ∧ 0x02000 ≤ n ∧ n ≤ 0x03FEF) ∨ (n % 4 = 0 ∧ 0x04000 ≤ n ∧ n ≤ 0x07FFF)

/-! ## Idle reads of buffer words (R48, R56) -/

/-- How many of the `b` elements of `m` from index `k` on nothing has written since reset. -/
def Memory.unwrittenIn (m : Memory) (k b : Nat) : Nat := ((List.range b).filter fun j => (m.read (k + j)).isNone).length

/-- HostRead of `a` gives elements k to k+3 of `m` in lanes 0 to 3: a written one exactly, each unwritten one the next draw; nothing but the draw counter changes. -/
def readsLanes (s : State) (a : HostAddr) (m : Memory) (k : Nat) : Prop :=
  (hostRead a s).1.err = false ∧ (hostRead a s).2 = { s with draws := s.draws + m.unwrittenIn k 4 } ∧
    ∀ b, b < 4 → BitVec.ofNat 8 ((hostRead a s).1.data.toNat / 2 ^ (8 * b)) =
      (m.read (k + b)).getD (Config.drawByte (s.draws + m.unwrittenIn k b))

/-! ## Streams of leaf paths (R160) -/

/-- The tokens of a sequence of leaf paths, one after the other. -/
def pathTokens (ls : List (Node × Path)) : List Byte := ls.flatMap fun l => l.2.map tokenOf

/-! ## Defined operands (R216) -/

/-- The first `n` elements have been written since reset. -/
def Memory.written (m : Memory) (n : Nat) : Prop := ∀ k, k < n → (m.read k).isSome = true

/-- R216's table: the buffer elements a command reads have all been written, so that its result is free of draws. -/
def definedOperands (i : Instr) (s : State) : Prop :=
  match i with
  | .nop => True
  | .count => s.inLenBad = false → s.inBuf.written s.inLen.toNat
  | .buildTree => True
  | .buildTable => True
  | .encode => s.inLenBad = false → s.inBuf.written s.inLen.toNat
  | .decode =>
    s.tokLenBad = false → s.tokLen ≠ 0 → s.status.treePresent = true → s.tokBuf.written s.tokLen.toNat
  | .compress => s.inLenBad = false → s.inBuf.written s.inLen.toNat

/-! ## Invariants -/

/-- The nodes of the tree held are the entries below NODE_COUNT. -/
def State.inTree (s : State) (i : Fin 511) : Prop := i.val < s.nodeCount.val

/-- A leaf of the tree held. -/
def State.isLeaf (s : State) (i : Fin 511) : Prop := s.inTree i ∧ (s.node.get i).isInternal = false

/-- An internal node of the tree held. -/
def State.isInner (s : State) (i : Fin 511) : Prop := s.inTree i ∧ (s.node.get i).isInternal = true

/-- The tree invariant of R36 for TREE_PRESENT = 1, clause by clause, with R35's "entries at or above NODE_COUNT are all-zero" and the weight of an internal node. -/
structure TreeShape (s : State) : Prop where
  /-- (a) -/
  counts : s.nodeCount.val = 2 * s.leafCount.val - 1 ∧ 2 ≤ s.leafCount.val ∧ s.leafCount.val ≤ 256
  /-- (b) -/
  rootLast : s.root.val = s.nodeCount.val - 1 ∧ (s.node.get s.root).isInternal = true
  /-- (c) -/
  childrenBelow : ∀ i, s.isInner i →
    (s.node.get i).left < i ∧ (s.node.get i).right < i ∧ (s.node.get i).left ≠ (s.node.get i).right
  /-- (d) -/
  oneParent : ∀ j, s.inTree j → j ≠ s.root →
    ∃ i, (s.isInner i ∧ ((s.node.get i).left = j ∨ (s.node.get i).right = j)) ∧
      ∀ i', s.isInner i' → ((s.node.get i').left = j ∨ (s.node.get i').right = j) → i' = i
  /-- (e) -/
  leavesFirst : ∀ i, s.inTree i → ((s.node.get i).isInternal = false ↔ i.val < s.leafCount.val)
  /-- (f) -/
  synthOnce : (∀ i j, s.isLeaf i → s.isLeaf j → (s.node.get i).synth = true → (s.node.get j).synth = true → i = j) ∧
    ((∃ i, s.isLeaf i ∧ (s.node.get i).synth = true) ↔ s.status.synthPresent = true)
  /-- (g) -/
  realDistinct : ∀ i j, s.isLeaf i → s.isLeaf j → (s.node.get i).synth = false → (s.node.get j).synth = false →
    (s.node.get i).sym = (s.node.get j).sym → i = j
  /-- R35, D33 -/
  restZero : ∀ i, ¬ s.inTree i → s.node.get i = zeroNode
  /-- R35, R12: an internal node has SYM = 0 and SYNTH = 0, a leaf has no children. -/
  unusedZero : (∀ i, s.isInner i → (s.node.get i).sym = 0 ∧ (s.node.get i).synth = false) ∧
    (∀ i, s.isLeaf i → (s.node.get i).left = 0 ∧ (s.node.get i).right = 0)
  /-- R35 -/
  weights : ∀ i, s.isInner i →
    (s.node.get i).weight.toNat = (s.node.get (s.node.get i).left).weight.toNat + (s.node.get (s.node.get i).right).weight.toNat

/-- R36 for TREE_PRESENT = 0, with the flags of R114. -/
def TreeAbsent (s : State) : Prop :=
  s.nodeCount.val = 0 ∧ s.leafCount.val = 0 ∧ s.root.val = 0 ∧ (∀ i, s.node.get i = zeroNode) ∧
    s.status.synthPresent = false ∧ s.status.synthCollide = false

/-- The tree invariant of R36. -/
def TreeInvariant (s : State) : Prop :=
  (s.status.treePresent = true → TreeShape s) ∧ (s.status.treePresent = false → TreeAbsent s)

/-- `key(i) < key(j)` of R113 over NODE memory, compared as in R16; SENTINEL = 0. -/
def State.keyBelow (s : State) (i j : Fin 511) : Prop :=
  let wi := (s.node.get i).weight.toNat
  let wj := (s.node.get j).weight.toNat
  let yi := if (s.node.get i).isInternal then 0 else (s.node.get i).sym.toNat
  let yj := if (s.node.get j).isInternal then 0 else (s.node.get j).sym.toNat
  wi < wj ∨ (wi = wj ∧ (yi < yj ∨ (yi = yj ∧ i < j)))

/-- Node `j` is still in Q when node `n` is made (R115): made before `n`, and child of no internal node made before `n`. -/
def State.unmergedAt (s : State) (n j : Fin 511) : Prop :=
  j < n ∧ ∀ i, s.isInner i → i < n → (s.node.get i).left ≠ j ∧ (s.node.get i).right ≠ j

/-- The tree held was built by R110 from some frequency table (R34). -/
def TreeBuilt (s : State) : Prop := ∃ f : FreqTable, s.installTree (treeOf f) = s

/-- R38: the CODE table is either all-invalid or the table of the tree held. -/
def CodeTableInvariant (s : State) : Prop :=
  s.code = zeroCodes ∨ (s.status.treePresent = true ∧ s.code = codeTableOf s.node s.root)

/-- Each buffer is in its canonical form and holds nothing at or above its capacity (R55). -/
def BufferInvariant (s : State) : Prop :=
  (s.inBuf.wf = true ∧ s.inBuf.below s.caps.inCap = true) ∧
  (s.tokBuf.wf = true ∧ s.tokBuf.below s.caps.tokCap = true) ∧
  (s.outBuf.wf = true ∧ s.outBuf.below s.caps.outCap = true)

/-- The error report (R29, R83, R185): while busy DONE, ERR, ERRCODE and ERRPOS are 0; without an error ERRCODE and ERRPOS are 0; with one ERRCODE is not 0; MERGE_UNDERFLOW is never reported (R120). -/
def ReportInvariant (s : State) : Prop :=
  (s.busy = true → s.status.done = false ∧ s.status.err = false) ∧
  (s.status.err = false → s.errCode = .none ∧ s.errPos = 0) ∧
  (s.status.err = true → s.errCode ≠ .none) ∧
  s.errCode ≠ .mergeUnderflow

/-- What holds of every state a run from a reset reaches. -/
structure BlockInvariant (s : State) : Prop where
  caps    : s.caps.valid = true
  buffers : BufferInvariant s
  report  : ReportInvariant s
  tree    : TreeInvariant s
  code    : CodeTableInvariant s

/-! ## Safe runs -/

/-- The machine goes on: the spec gives it no trap, no fatal state and nothing undefined (R188, R191). -/
def goesOn (s : State) : Prop := ∃ t, step s = .next t

/-- `t` is reached from `s` in exactly `n` steps. -/
def reaches : Nat → State → State → Prop
  | 0, s, t => s = t
  | n + 1, s, t => ∃ u, step s = .next u ∧ reaches n u t

/-- A run of `n` moves that never stops, every state on the way meeting `P`. -/
def safeFor (P : State → Prop) : Nat → State → Prop
  | 0, s => P s
  | n + 1, s => P s ∧ ∃ t, step s = .next t ∧ safeFor P n t

end Sys2Proof.Machine
end

