-- ==== Sys2Proof/Certificates/Slice0/Obligations.lean ====
section
/-! DEFINITION. The statements for the provers, from the numbered rules of spec/. -/

open Sys2Proof Sys2Proof.Machine

/-- The words 0 to 6 decode to NOP, COUNT, BUILD_TREE, BUILD_TABLE, ENCODE, DECODE and COMPRESS; 7, 0xF, 0x10 and 0xFFFFFFFF decode to no command. (30_encoding.md R81, 30_encoding.md R84, 45_control.md R167) -/
def Obligations.CommandWordsDecode : Prop :=
  [0, 1, 2, 3, 4, 5, 6].map (decodeTableWord 32) =
      [some .nop, some .count, some .buildTree, some .buildTable, some .encode, some .decode, some .compress] ∧
    [7, 0xF, 0x10, 0xFFFFFFFF].map (decodeTableWord 32) = [none, none, none, none]

/-- For every word w: if w[31:4] is not 0, w is ILLEGAL; otherwise w[3:0] = 0 to 6 gives NOP, COUNT, BUILD_TREE, BUILD_TABLE, ENCODE, DECODE, COMPRESS in that order, and 7 to 15 gives ILLEGAL. The fields are written as arithmetic on the number of w. (R92) -/
def Obligations.DecodeIsTheOpcodeMap : Prop :=
  ∀ w : Word,
    (w.toNat / 16 ≠ 0 → ∃ e, decodeWord w = .error e) ∧
    (w.toNat / 16 = 0 →
      (w.toNat % 16 = 0 → decodeWord w = .ok .nop) ∧
      (w.toNat % 16 = 1 → decodeWord w = .ok .count) ∧
      (w.toNat % 16 = 2 → decodeWord w = .ok .buildTree) ∧
      (w.toNat % 16 = 3 → decodeWord w = .ok .buildTable) ∧
      (w.toNat % 16 = 4 → decodeWord w = .ok .encode) ∧
      (w.toNat % 16 = 5 → decodeWord w = .ok .decode) ∧
      (w.toNat % 16 = 6 → decodeWord w = .ok .compress) ∧
      (7 ≤ w.toNat % 16 → ∃ e, decodeWord w = .error e))

/-- For every word w and command i, the decoder reads i from w iff w is the encoding of i: no bit of the word is dropped, and each command has one word. (30_encoding.md R80, 30_encoding.md R81, 30_encoding.md R85) -/
def Obligations.DecodeAndEncodeAgree : Prop :=
  ∀ (w : Word) (i : Instr), decodeWord w = .ok i ↔ w = encode i

/-- If ENG is Busy(w), w decodes to i and the next move is the completion step (by the schedule, or by the default when the schedule is empty), the step answers exec i on the state with that move taken off the schedule. So for every number w below 2^32 that decodes to i, the step from withFetchWord is exec i on the state after the acceptance of w. The schedule and withFetchWord are the model's own (logs 3, 6). (30_encoding.md R83, 70_reset_and_hazards.md R233, 20_memory.md R70) -/
def Obligations.StepRunsTheDecodedCommand : Prop :=
  (∀ (s : State) (w : Word) (i : Instr), s.eng = .busy w → decodeWord w = .ok i →
    (∀ rest, s.schedule = .completion :: rest → step s = exec i { s with schedule := rest }) ∧
    (s.schedule = [] → step s = exec i s)) ∧
  ∀ (s : State) (w : Nat) (i : Instr), w < 2 ^ 32 → decodeTableWord 32 w = some i →
    step (s.withFetchWord 32 w) = exec i (s.accept (BitVec.ofNat 32 w))

/-- A HostWrite of any word d to CMD (0x14) while the engine is idle answers err 0 and leaves the state with ENG = Busy(d), BUSY = 1, DONE, ERR, ERRCODE and ERRPOS 0, and nothing else changed. (30_encoding.md R83, 10_state.md R29) -/
def Obligations.AcceptanceLatchesTheWord : Prop :=
  ∀ (s : State) (d : Word), s.eng = .idle →
    hostWrite 0x14 d s =
      (false, { s with eng := .busy d, errCode := .none, errPos := 0,
                       status := { s.status with done := false, err := false } }) ∧
    (hostWrite 0x14 d s).2.busy = true

/-- With ENG = Busy(w) and the completion step next, by the schedule or by the default when the schedule is empty: w is ILLEGAL iff RSVD is not 0 or OP >= 7, and then the step gives ERR = 1, DONE = 1, ERRCODE = ILLEGAL_CMD (code 1), ERRPOS = 0 and ENG = Idle, with every other field unchanged (the schedule less its head). The schedule and the default move are the model's own choice (log 3). (30_encoding.md R83, 30_encoding.md R84, 45_control.md R167) -/
def Obligations.ReservedWordIsReported : Prop :=
  ∀ (s : State) (w : Word), s.eng = .busy w →
    ((∃ e, decodeWord w = .error e) ↔ (w.toNat / 16 ≠ 0 ∨ 7 ≤ w.toNat % 16)) ∧
    ((w.toNat / 16 ≠ 0 ∨ 7 ≤ w.toNat % 16) →
      (∀ rest, s.schedule = .completion :: rest →
        step s = .next { s with schedule := rest, eng := .idle, errCode := .illegalCmd, errPos := 0,
                                status := s.status.ended true }) ∧
      (s.schedule = [] →
        step s = .next { s with eng := .idle, errCode := .illegalCmd, errPos := 0, status := s.status.ended true })) ∧
    ErrCode.illegalCmd.toCode = 1

/-- With the move 'request' next and no response outstanding, the oldest waiting HostRead or HostWrite takes effect on the state and its result becomes the outstanding response (data 0 for a write); with one outstanding nothing transfers. The move 'response' gives the outstanding response to a host that takes it. A host that takes no more responses stalls the port: every step but a reset leaves the outstanding response, the waiting requests and the responses taken as they are. req_ready is 1 only with no response outstanding and rst = 0, and then the step transfers the request offered; while rst = 1 req_ready and rsp_valid are 0. While rst = 0 rsp_valid is 1 iff a response is outstanding, and rsp_rdata and rsp_err are its data and err; with rsp_ready = 1 it is then given to the host. req_write, req_addr and req_wdata are those of the oldest waiting request, which is the one that transfers. Moves, the received list and the count of responses the host takes are the model's own (logs 3, 4, 18), and so are the levels of rst, req_valid, req_ready, rsp_valid and rsp_ready as functions of the state and the next move (logs 19, 20). (20_memory.md R72, 20_memory.md R73, 20_memory.md R74, 70_reset_and_hazards.md R210, 70_reset_and_hazards.md R230, 93_implementation_defined.md U18) -/
def Obligations.PortTransfersOneAtATime : Prop :=
  (∀ (s : State) (ms : List Move),
    (s.schedule = .request :: ms → s.rsp = none →
      (∀ a rs, s.requests = .read a :: rs →
        step s = .next { (hostRead a { s with schedule := ms, requests := rs }).2 with
                         rsp := some (hostRead a { s with schedule := ms, requests := rs }).1 }) ∧
      (∀ a d rs, s.requests = .write a d :: rs →
        step s = .next { (hostWrite a d { s with schedule := ms, requests := rs }).2 with
                         rsp := some { data := 0, err := (hostWrite a d { s with schedule := ms, requests := rs }).1 } })) ∧
    (s.schedule = .request :: ms → s.rsp ≠ none → step s = .next { s with schedule := ms }) ∧
    (∀ r, s.schedule = .response :: ms → s.rsp = some r →
      (s.accepts = none →
        step s = .next { s with schedule := ms, rsp := none, received := r :: s.received }) ∧
      (∀ n, s.accepts = some (n + 1) →
        step s = .next { s with schedule := ms, rsp := none, received := r :: s.received, accepts := some n }))) ∧
  (∀ (s t : State) (r : Response), s.rsp = some r → s.accepts = some 0 → s.rst = false → step s = .next t →
    t.rsp = some r ∧ t.accepts = some 0 ∧ t.requests = s.requests ∧ t.received = s.received) ∧
  (∀ s : State, (s.reqReady = true → s.rsp = none ∧ s.rst = false) ∧
    (s.rst = true → s.reqReady = false ∧ s.rspValid = false) ∧
    (s.reqReady = true → s.reqValid = true → ∃ t, step s = .next t ∧ t.requests = s.requests.tail ∧ t.rsp.isSome = true) ∧
    (s.rst = false → s.rspValid = s.rsp.isSome ∧ s.rspRdata = s.rsp.map Response.data ∧ s.rspErr = s.rsp.map Response.err) ∧
    (∀ r, s.rspReady = true → s.rsp = some r → ∃ t, step s = .next t ∧ t.rsp = none ∧ t.received = r :: s.received) ∧
    (∀ a rs, s.requests = .read a :: rs → s.reqValid = true ∧ s.reqWrite = some false ∧ s.reqAddr = some a) ∧
    (∀ a d rs, s.requests = .write a d :: rs →
      s.reqValid = true ∧ s.reqWrite = some true ∧ s.reqAddr = some a ∧ s.reqWdata = some d))

/-- From every state exec NOP answers the state with ENG = Idle, DONE = 1, ERR = 0 and nothing else changed. (45_control.md R165, 00_scope.md R17) -/
def Obligations.NopHasNoEffect : Prop :=
  ∀ s : State, exec .nop s = .next { s with eng := .idle, status := s.status.ended false }

/-- For a configuration R10 allows and IN_LEN <= IN_CAP, exec COUNT answers a next state with FREQ[y] = the number of bytes equal to y among the IN_LEN input bytes, for every y; the FREQ entries sum to IN_LEN; ERR = 0; nothing changes but FREQ, the completion fields and the draw counter (the model's own, log 2). Unwritten input bytes are draws. (R101) -/
def Obligations.CountGivesTheCounts : Prop :=
  ∀ s : State, s.caps.valid = true → s.inLen.toNat ≤ s.caps.inCap →
    ∃ t, exec .count s = .next t ∧
      (∀ y : Fin 256, (t.freq.get y).toNat = s.inputBytes.count (BitVec.ofNat 8 y.val)) ∧
      (∑ y : Fin 256, (t.freq.get y).toNat) = s.inLen.toNat ∧
      t = { s with eng := .idle, status := s.status.ended false, freq := t.freq, draws := t.draws }

/-- inputBytes has IN_LEN elements and its k-th is IN_BUF[k] wherever that has been written; streamTokens has TOK_LEN elements and its k-th is TOK_BUF[k] wherever that has been written. (10_state.md R41, 10_state.md R42, 20_memory.md R65) -/
def Obligations.InputAndStreamAreTheBuffers : Prop :=
  ∀ s : State,
    s.inputBytes.length = s.inLen.toNat ∧
    (∀ k v, k < s.inLen.toNat → s.inBuf.read k = some v → s.inputBytes[k]? = some v) ∧
    s.streamTokens.length = s.tokLen.toNat ∧
    (∀ k v, k < s.tokLen.toNat → s.tokBuf.read k = some v → s.streamTokens[k]? = some v)

/-- When IN_LEN > IN_CAP: COUNT changes only the completion fields and the report (FREQ unchanged); ENCODE and COMPRESS also set TOK_LEN and SYNTH_HIT to 0; each ends with ERR = 1, ERRCODE = LEN_RANGE (code 6), ERRPOS = 0. (40_frequency.md R100, 43_encoder.md R140, 45_control.md R166, 60_exceptions.md R185) -/
def Obligations.LongInputIsRejected : Prop :=
  ∀ s : State, s.caps.inCap < s.inLen.toNat →
    exec .count s = .next { s with eng := .idle, errCode := .lenRange, errPos := 0, status := s.status.ended true } ∧
    exec .encode s = .next { s with eng := .idle, errCode := .lenRange, errPos := 0, tokLen := 0,
                                    status := { s.status.ended true with synthHit := false } } ∧
    exec .compress s = .next { s with eng := .idle, errCode := .lenRange, errPos := 0, tokLen := 0,
                                      status := { s.status.ended true with synthHit := false } } ∧
    ErrCode.lenRange.toCode = 6

/-- With IN_LEN = 0: exec COUNT succeeds and leaves FREQ all-zero, equal to its reset value, and exec BUILD_TREE on the result leaves TREE_PRESENT = 0; exec ENCODE answers the state with TOK_LEN = 0, SYNTH_HIT = 0, ERR = 0, ENG = Idle, DONE = 1 and nothing else changed, whatever the table. With TOK_LEN = 0 exec DECODE answers the state with OUT_LEN = 0, ERR = 0, ENG = Idle, DONE = 1 and nothing else changed, whatever TREE_PRESENT, ROOT and NODE are. (R102, R145, R156) -/
def Obligations.EmptyOperandsSucceed : Prop :=
  ∀ s : State,
    (s.inLen = 0 →
      (∃ t u, exec .count s = .next t ∧ t.status.err = false ∧ t.freq = State.reset.freq ∧ (∀ y, t.freq.get y = 0) ∧
        exec .buildTree t = .next u ∧ u.status.treePresent = false) ∧
      exec .encode s = .next { s with eng := .idle, tokLen := 0, status := { s.status.ended false with synthHit := false } }) ∧
    (s.tokLen = 0 →
      exec .decode s = .next { s with eng := .idle, outLen := 0, status := s.status.ended false })

/-- exec BUILD_TREE always answers a next state; TREE_PRESENT is 0 in it iff every FREQ entry is 0, and then SYNTH_PRESENT, SYNTH_COLLIDE, ROOT, NODE_COUNT, LEAF_COUNT, NODE and CODE are all 0, ERR = 0 and nothing else changed. (R114) -/
def Obligations.AllZeroCountsGiveTheAbsentTree : Prop :=
  ∀ s : State, ∃ t, exec .buildTree s = .next t ∧
    (t.status.treePresent = false ↔ ∀ y, s.freq.get y = 0) ∧
    ((∀ y, s.freq.get y = 0) →
      t = { s with
        eng := .idle
        status := { s.status.ended false with treePresent := false, synthPresent := false, synthCollide := false }
        root := 0, nodeCount := 0, leafCount := 0, node := t.node, code := t.code } ∧
      (∀ i, t.node.get i = zeroNode) ∧ (∀ y, t.code.get y = zeroCode))

/-- From every state exec BUILD_TREE answers a next state with ERR = 0 and every CODE entry all-zero, in which only NODE, ROOT, NODE_COUNT, LEAF_COUNT, CODE, TREE_PRESENT, SYNTH_PRESENT, SYNTH_COLLIDE and the completion fields may differ. Two states with equal FREQ give equal NODE, ROOT, NODE_COUNT, LEAF_COUNT, TREE_PRESENT, SYNTH_PRESENT and SYNTH_COLLIDE. (41_tree_builder.md R110, 41_tree_builder.md R116, 41_tree_builder.md R121, 10_state.md R49) -/
def Obligations.BuildTreeWritesOnlyTheTreeOfFreq : Prop :=
  (∀ s : State, ∃ t, exec .buildTree s = .next t ∧ (∀ y, t.code.get y = zeroCode) ∧
    t = { s with
      eng := .idle
      status := { s.status.ended false with
        treePresent := t.status.treePresent, synthPresent := t.status.synthPresent, synthCollide := t.status.synthCollide }
      root := t.root, nodeCount := t.nodeCount, leafCount := t.leafCount, node := t.node, code := t.code }) ∧
  ∀ s s' t t' : State, s.freq = s'.freq → exec .buildTree s = .next t → exec .buildTree s' = .next t' →
    t.node = t'.node ∧ t.root = t'.root ∧ t.nodeCount = t'.nodeCount ∧ t.leafCount = t'.leafCount ∧
    t.status.treePresent = t'.status.treePresent ∧ t.status.synthPresent = t'.status.synthPresent ∧
    t.status.synthCollide = t'.status.synthCollide

/-- After BUILD_TREE, for every symbol y with FREQ[y] not 0, the NODE entry whose index is the number of smaller symbols with non-zero count is the leaf of symbol y with weight zext_40(FREQ[y]) and SYNTH = 0; and every non-synthetic leaf of the tree is such an entry, so there is no other. (R111) -/
def Obligations.LeavesInSymbolOrder : Prop :=
  ∀ s t : State, exec .buildTree s = .next t →
    (∀ y : Fin 256, s.freq.get y ≠ 0 →
      ∃ i : Fin 511, i.val = (Finset.univ.filter fun z : Fin 256 => z < y ∧ s.freq.get z ≠ 0).card ∧ t.isLeaf i ∧
        t.node.get i = { isInternal := false, weight := (s.freq.get y).setWidth 40, sym := BitVec.ofNat 8 y.val,
                         synth := false, left := 0, right := 0 }) ∧
    (∀ i, t.isLeaf i → (t.node.get i).synth = false →
      ∃ y : Fin 256, s.freq.get y ≠ 0 ∧ i.val = (Finset.univ.filter fun z : Fin 256 => z < y ∧ s.freq.get z ≠ 0).card)

/-- After BUILD_TREE SYNTH_PRESENT = 1 iff exactly one count is non-zero. If that is FREQ[x] = n: N0 is the leaf of x with weight n, N1 the synthetic leaf (symbol 0, weight 1), N2 the internal root of weight n + 1; SYNTH_COLLIDE = 1 iff x = 0; N1 is the left child unless x = 0 and n = 1, when N0 is. (41_tree_builder.md R112, 45_control.md R177, 41_tree_builder.md R115) -/
def Obligations.OneSymbolGetsTheSyntheticLeaf : Prop :=
  ∀ s : State, ∃ t, exec .buildTree s = .next t ∧
    (t.status.synthPresent = true ↔ ∃ x, s.freq.get x ≠ 0 ∧ ∀ y, y ≠ x → s.freq.get y = 0) ∧
    ∀ x, s.freq.get x ≠ 0 → (∀ y, y ≠ x → s.freq.get y = 0) →
      t.status.treePresent = true ∧ (t.status.synthCollide = true ↔ x = 0) ∧
      t.leafCount = 2 ∧ t.nodeCount = 3 ∧ t.root = 2 ∧
      t.node.get 0 = { isInternal := false, weight := (s.freq.get x).setWidth 40, sym := BitVec.ofNat 8 x.val,
                       synth := false, left := 0, right := 0 } ∧
      t.node.get 1 = { isInternal := false, weight := 1, sym := 0, synth := true, left := 0, right := 0 } ∧
      t.node.get 2 = { isInternal := true, weight := (s.freq.get x).setWidth 40 + 1, sym := 0, synth := false,
                       left := if x = 0 ∧ s.freq.get x = 1 then 0 else 1,
                       right := if x = 0 ∧ s.freq.get x = 1 then 1 else 0 }

/-- After BUILD_TREE, for every internal node n: LEFT and RIGHT are two different nodes made before n and merged by no earlier node; LEFT's key (weight, symkey, index) is below that of every other such node, and RIGHT's is below that of every one but LEFT. (41_tree_builder.md R113, 41_tree_builder.md R115, 00_scope.md R16) -/
def Obligations.MergesTakeTheTwoLeastKeys : Prop :=
  ∀ s t : State, exec .buildTree s = .next t → ∀ n, t.isInner n →
    t.unmergedAt n (t.node.get n).left ∧ t.unmergedAt n (t.node.get n).right ∧
    (t.node.get n).left ≠ (t.node.get n).right ∧
    ∀ j, t.unmergedAt n j → j ≠ (t.node.get n).left →
      t.keyBelow (t.node.get n).left j ∧ (j ≠ (t.node.get n).right → t.keyBelow (t.node.get n).right j)

/-- Whatever FREQ holds, the state after BUILD_TREE meets TreeInvariant: clauses (a) to (g) of R36, the weights of internal nodes as the exact sums of their children's, SYM = 0 and SYNTH = 0 in every internal node, LEFT = RIGHT = 0 in every leaf, and zero entries beyond NODE_COUNT; or the absent tree. (10_state.md R35, 10_state.md R36, 00_scope.md R12, 41_tree_builder.md R110, 41_tree_builder.md R117, 41_tree_builder.md R119) -/
def Obligations.BuiltTreeMeetsTheTreeInvariant : Prop :=
  ∀ s t : State, exec .buildTree s = .next t → TreeInvariant t

/-- After BUILD_TREE with a tree present, NODE[ROOT].WEIGHT as a number is the sum of all FREQ entries, plus 1 if SYNTH_PRESENT = 1; ROOT_WEIGHT_LO reads its bits 31 to 0 and ROOT_WEIGHT_HI its bits 39 to 32. (41_tree_builder.md R117, 41_tree_builder.md R118, 10_state.md R37) -/
def Obligations.RootWeightIsTheTotal : Prop :=
  ∀ s t : State, exec .buildTree s = .next t → t.status.treePresent = true →
    (t.node.get t.root).weight.toNat =
      (∑ y : Fin 256, (s.freq.get y).toNat) + (if t.status.synthPresent then 1 else 0) ∧
    (t.regWord .rootWeightLo).toNat = (t.node.get t.root).weight.toNat % 2 ^ 32 ∧
    (t.regWord .rootWeightHi).toNat = (t.node.get t.root).weight.toNat / 2 ^ 32

/-- From every state exec BUILD_TABLE answers a next state with ERR = 0 in which only CODE and the completion fields may differ; if TREE_PRESENT = 0 every CODE entry in it is all-zero; two states with equal TREE_PRESENT, ROOT and NODE get equal tables. (42_code_table.md R130, 42_code_table.md R133, 42_code_table.md R139, 10_state.md R49) -/
def Obligations.BuildTableWritesOnlyTheTableOfTheTree : Prop :=
  (∀ s : State, ∃ t, exec .buildTable s = .next t ∧
    t = { s with eng := .idle, status := s.status.ended false, code := t.code } ∧
    (s.status.treePresent = false → ∀ y, t.code.get y = zeroCode)) ∧
  (∀ s s' t t' : State, s.status.treePresent = s'.status.treePresent → s.root = s'.root → s.node = s'.node →
    exec .buildTable s = .next t → exec .buildTable s' = .next t' → t.code = t'.code)

/-- In a state whose tree was built by R110 (TreeBuilt) with TREE_PRESENT = 1, after BUILD_TABLE: CODE[y] is valid iff some leaf of the tree has symbol y; the number of valid entries is LEAF_COUNT, less 1 when SYNTH_COLLIDE = 1; an entry has SYNTH = 1 iff y = 0 with SYNTH_PRESENT = 1 and SYNTH_COLLIDE = 0. (42_code_table.md R134, 42_code_table.md R130, 42_code_table.md R132, 10_state.md R39) -/
def Obligations.TableEntriesAreTheLeaves : Prop :=
  ∀ s t : State, TreeBuilt s → s.status.treePresent = true → exec .buildTable s = .next t →
    (∀ y : Fin 256, (t.code.get y).valid = true ↔ ∃ i, s.isLeaf i ∧ (s.node.get i).sym = BitVec.ofNat 8 y.val) ∧
    (Finset.univ.filter fun y : Fin 256 => (t.code.get y).valid = true).card =
      s.leafCount.val - (if s.status.synthCollide then 1 else 0) ∧
    (∀ y : Fin 256, (t.code.get y).synth = true ↔
      y = 0 ∧ s.status.synthPresent = true ∧ s.status.synthCollide = false)

/-- In a state that meets the tree and code-table invariants, every valid CODE entry has 1 <= LEN <= LEAF_COUNT - 1 <= 255, and its BITS are 0 at and above LEN. (42_code_table.md R135) -/
def Obligations.CodeLengthBounds : Prop :=
  ∀ s : State, TreeInvariant s → CodeTableInvariant s → ∀ y, (s.code.get y).valid = true →
    1 ≤ (s.code.get y).len.toNat ∧ (s.code.get y).len.toNat ≤ s.leafCount.val - 1 ∧ s.leafCount.val - 1 ≤ 255 ∧
    ∀ j, (s.code.get y).len.toNat ≤ j → (s.code.get y).bits.getLsbD j = false

/-- In a state that meets the tree and code-table invariants, for two different symbols with valid entries, neither token sequence is a beginning of the other. (R137) -/
def Obligations.CodesArePrefixFree : Prop :=
  ∀ s : State, TreeInvariant s → CodeTableInvariant s → ∀ x y, x ≠ y →
    (s.code.get x).valid = true → (s.code.get y).valid = true →
    ¬ (s.code.get x).tokens <+: (s.code.get y).tokens ∧ ¬ (s.code.get y).tokens <+: (s.code.get x).tokens

/-- For a configuration R10 allows, IN_LEN <= IN_CAP, every input byte coded and the total length at most TOK_CAP: exec ENCODE succeeds; TOK_LEN is the sum of the input bytes' LEN; TOK_BUF holds the concatenation of their codes' tokens from index 0 and is unchanged from TOK_LEN on; SYNTH_HIT = 1 iff a synthetic entry was used; nothing else changes but the completion fields and the draw counter. (43_encoder.md R140, 43_encoder.md R143, 43_encoder.md R144, 30_encoding.md R89) -/
def Obligations.EncodeConcatenatesTheCodes : Prop :=
  ∀ s : State, s.caps.valid = true → s.inLen.toNat ≤ s.caps.inCap → allCoded s.code s.inputBytes →
    (codeTokens s.code s.inputBytes).length ≤ s.caps.tokCap →
    ∃ t, exec .encode s = .next t ∧
      t.tokLen.toNat = (s.inputBytes.map fun b => (s.code.get (symIndex b)).len.toNat).sum ∧
      t.tokBuf.holds (codeTokens s.code s.inputBytes) ∧ s.tokBuf.sameFrom t.tokBuf t.tokLen.toNat ∧
      (codeTokens s.code s.inputBytes).length = t.tokLen.toNat ∧
      t = { s with
        eng := .idle
        status := { s.status.ended false with synthHit := usesSynthetic s.code s.inputBytes }
        tokBuf := t.tokBuf, tokLen := t.tokLen, draws := t.draws }

/-- If the input is pre ++ b :: post, IN_LEN <= IN_CAP, every byte of pre is coded and their codes fit, then: if b has no valid entry ENCODE ends with SYMBOL_NOT_IN_TABLE; if it has one but its code would pass TOK_CAP, with OUT_OVERFLOW; either way ERRPOS is b's index, TOK_LEN = 0, TOK_BUF holds exactly the codes of pre and is unchanged above them, and SYNTH_HIT = 1 iff pre used a synthetic entry. (43_encoder.md R141, 43_encoder.md R142, 43_encoder.md R146, 60_exceptions.md R186) -/
def Obligations.EncodeReportsTheFirstFailingByte : Prop :=
  ∀ (s : State) (pre : List Byte) (b : Byte) (post : List Byte) (c : ErrCode), s.inLen.toNat ≤ s.caps.inCap →
    s.inputBytes = pre ++ b :: post → allCoded s.code pre → (codeTokens s.code pre).length ≤ s.caps.tokCap →
    (((s.code.get (symIndex b)).valid = false ∧ c = .symbolNotInTable) ∨
      ((s.code.get (symIndex b)).valid = true ∧
        s.caps.tokCap < (codeTokens s.code pre).length + (s.code.get (symIndex b)).len.toNat ∧ c = .outOverflow)) →
    ∃ t, exec .encode s = .next t ∧ t.errPos.toNat = pre.length ∧
      t.tokBuf.holds (codeTokens s.code pre) ∧ s.tokBuf.sameFrom t.tokBuf (codeTokens s.code pre).length ∧
      t = { s with
        eng := .idle, errCode := c, errPos := t.errPos
        status := { s.status.ended true with synthHit := usesSynthetic s.code pre }
        tokBuf := t.tokBuf, tokLen := 0, draws := t.draws }

/-- Whenever exec ENCODE answers a next state, only TOK_BUF, TOK_LEN, SYNTH_HIT, the completion fields (ENG, DONE, ERR, ERRCODE, ERRPOS) and the draw counter differ; TOK_BUF reads as before at and above the number of elements stored; an error leaves TOK_LEN = 0. (R148) -/
def Obligations.EncodeWritesOnlyItsWriteSet : Prop :=
  ∀ s t : State, exec .encode s = .next t →
    t = { s with
      eng := .idle, errCode := t.errCode, errPos := t.errPos
      status := { s.status.ended t.status.err with synthHit := t.status.synthHit }
      tokBuf := t.tokBuf, tokLen := t.tokLen, draws := t.draws } ∧
    s.tokBuf.sameFrom t.tokBuf s.encodeStores.length ∧ t.tokBuf.holds s.encodeStores ∧
    (t.status.err = true → t.tokLen = 0)

/-- Two states of one configuration with equal draw counters that agree on IN_LEN, IN_BUF and CODE, and may differ in everything else, give after ENCODE the same ERR, SYNTH_HIT, TOK_LEN, stream TOK_BUF[0..TOK_LEN-1], and, on an error, the same ERRCODE and ERRPOS. Two that agree on TOK_LEN, TOK_BUF, NODE, ROOT and TREE_PRESENT give after DECODE the same ERR, OUT_LEN, output OUT_BUF[0..OUT_LEN-1], and, on an error, the same ERRCODE and ERRPOS. The draw counter is the model's own (log 2): that equal counters give equal draws, so that unwritten operands read the same in both states, is the model's choice and no rule of the spec. (43_encoder.md R147, 44_decoder.md R159, 10_state.md R49) -/
def Obligations.EncodeIgnoresTheTreeAndDecodeTheTable : Prop :=
  ∀ s s' t t' : State, s.caps = s'.caps → s.draws = s'.draws →
    (s.inLen = s'.inLen → s.inBuf = s'.inBuf → s.code = s'.code →
      exec .encode s = .next t → exec .encode s' = .next t' →
      t.status.err = t'.status.err ∧ t.status.synthHit = t'.status.synthHit ∧ t.tokLen = t'.tokLen ∧
      (∀ k, k < t.tokLen.toNat → t.tokBuf.read k = t'.tokBuf.read k) ∧
      (t.status.err = true → t.errCode = t'.errCode ∧ t.errPos = t'.errPos)) ∧
    (s.tokLen = s'.tokLen → s.tokBuf = s'.tokBuf → s.node = s'.node → s.root = s'.root →
      s.status.treePresent = s'.status.treePresent →
      exec .decode s = .next t → exec .decode s' = .next t' →
      t.status.err = t'.status.err ∧ t.outLen = t'.outLen ∧
      (∀ k, k < t.outLen.toNat → t.outBuf.read k = t'.outBuf.read k) ∧
      (t.status.err = true → t.errCode = t'.errCode ∧ t.errPos = t'.errPos))

/-- TOK_LEN > TOK_CAP gives LEN_RANGE; 0 < TOK_LEN <= TOK_CAP with TREE_PRESENT = 0 gives NO_TREE; each with ERRPOS = 0, OUT_LEN = 0, ERR = 1 and nothing else changed: no token is read. (44_decoder.md R150, 44_decoder.md R157, 60_exceptions.md R185, 60_exceptions.md R186) -/
def Obligations.DecodeChecksLengthThenTree : Prop :=
  ∀ s : State,
    (s.caps.tokCap < s.tokLen.toNat →
      exec .decode s = .next { s with eng := .idle, errCode := .lenRange, errPos := 0, outLen := 0,
                                      status := s.status.ended true }) ∧
    (0 < s.tokLen.toNat → s.tokLen.toNat ≤ s.caps.tokCap → s.status.treePresent = false →
      exec .decode s = .next { s with eng := .idle, errCode := .noTree, errPos := 0, outLen := 0,
                                      status := s.status.ended true })

/-- With a tree present and TOK_LEN <= TOK_CAP, if the stream is pre ++ x :: post, pre all 0x30 or 0x31 and x neither, exec DECODE ends with ERR = 1, ERRCODE = MALFORMED_BIT (code 2), ERRPOS = the index of x and OUT_LEN = 0, whatever post holds. (44_decoder.md R151, 45_control.md R180, 60_exceptions.md R186) -/
def Obligations.MalformedTokenIsReported : Prop :=
  ∀ (s : State) (pre : List Byte) (x : Byte) (post : List Byte), s.status.treePresent = true →
    s.tokLen.toNat ≤ s.caps.tokCap → s.streamTokens = pre ++ x :: post → allDigits pre → x ≠ 0x30 → x ≠ 0x31 →
    ∃ t, exec .decode s = .next t ∧ t.status.err = true ∧ t.errCode = .malformedBit ∧
      ErrCode.malformedBit.toCode = 2 ∧ t.errPos.toNat = pre.length ∧ t.outLen = 0

/-- Whenever exec DECODE answers a next state, only OUT_BUF, OUT_LEN, the completion fields and the draw counter differ; OUT_BUF holds the elements stored and reads as before at and above them; an error leaves OUT_LEN = 0. (44_decoder.md R150, 44_decoder.md R158, 10_state.md R49) -/
def Obligations.DecodeWritesOnlyItsWriteSet : Prop :=
  ∀ s t : State, exec .decode s = .next t →
    t = { s with
      eng := .idle, errCode := t.errCode, errPos := t.errPos, status := s.status.ended t.status.err
      outBuf := t.outBuf, outLen := t.outLen, draws := t.draws } ∧
    s.outBuf.sameFrom t.outBuf s.decodeStores.length ∧ t.outBuf.holds s.decodeStores ∧
    (t.status.err = true → t.outLen = 0)

/-- For a configuration R10 allows and TOK_LEN <= TOK_CAP: DECODE stores at most TOK_LEN <= TOK_CAP <= OUT_CAP bytes, and leaves every OUT_BUF index at or above OUT_CAP as it was. (R153) -/
def Obligations.DecodeNeverOverflowsOutBuf : Prop :=
  ∀ s t : State, s.caps.valid = true → s.tokLen.toNat ≤ s.caps.tokCap → exec .decode s = .next t →
    s.decodeStores.length ≤ s.tokLen.toNat ∧ s.tokLen.toNat ≤ s.caps.tokCap ∧ s.caps.tokCap ≤ s.caps.outCap ∧
    s.outBuf.sameFrom t.outBuf s.caps.outCap

/-- For a configuration R10 allows, in a state with a tree present that meets the tree invariant, and TOK_LEN <= TOK_CAP: if the stream TOK_BUF[0..TOK_LEN-1] is the concatenation of the paths of a list of leaves of the tree, the synthetic leaf included, then exec DECODE succeeds with OUT_LEN = the number of leaves, OUT_BUF holding exactly their symbols, and OUT_BUF unchanged above; and the same if the stream is the concatenation of the codes, in the tree's table, of a list of coded symbols bs, with OUT_BUF holding bs. (44_decoder.md R160, 44_decoder.md R150, 44_decoder.md R152) -/
def Obligations.DecodeInvertsTheCode : Prop :=
  ∀ s : State, s.caps.valid = true → TreeInvariant s → s.status.treePresent = true → s.tokLen.toNat ≤ s.caps.tokCap →
    (∀ ls : List (Node × Path), (∀ l ∈ ls, l ∈ leafPaths s.node s.root) → s.streamTokens = pathTokens ls →
      ∃ t, exec .decode s = .next t ∧ t.outLen.toNat = ls.length ∧ t.outBuf.holds (ls.map fun l => l.1.sym) ∧
        s.outBuf.sameFrom t.outBuf ls.length ∧
        t = { s with eng := .idle, status := s.status.ended false, outBuf := t.outBuf, outLen := t.outLen, draws := t.draws }) ∧
    (∀ bs : List Byte, allCoded (codeTableOf s.node s.root) bs →
      s.streamTokens = codeTokens (codeTableOf s.node s.root) bs →
      ∃ t, exec .decode s = .next t ∧ t.outLen.toNat = bs.length ∧ t.outBuf.holds bs ∧
        s.outBuf.sameFrom t.outBuf bs.length ∧
        t = { s with eng := .idle, status := s.status.ended false, outBuf := t.outBuf, outLen := t.outLen, draws := t.draws })

/-- In a state with a tree present that meets the tree invariant and TOK_LEN <= TOK_CAP: if the stream is the concatenation of the codes of bs followed by a non-empty proper beginning of some symbol's code, exec DECODE ends with ERR = 1, ERRCODE = TRUNCATED (code 3), ERRPOS = the length of the complete codes, OUT_LEN = 0, and OUT_BUF holding bs. (44_decoder.md R154, 44_decoder.md R155, 44_decoder.md R158) -/
def Obligations.TruncatedStreamIsReported : Prop :=
  ∀ (s : State) (bs : List Byte) (y : Byte) (rest more : List Byte), TreeInvariant s → s.status.treePresent = true →
    s.tokLen.toNat ≤ s.caps.tokCap → allCoded (codeTableOf s.node s.root) (y :: bs) →
    rest ≠ [] → more ≠ [] → ((codeTableOf s.node s.root).get (symIndex y)).tokens = rest ++ more →
    s.streamTokens = codeTokens (codeTableOf s.node s.root) bs ++ rest →
    ∃ t, exec .decode s = .next t ∧ t.status.err = true ∧ t.errCode = .truncated ∧ ErrCode.truncated.toCode = 3 ∧
      t.errPos.toNat = (codeTokens (codeTableOf s.node s.root) bs).length ∧ t.outLen = 0 ∧ t.outBuf.holds bs ∧
      s.outBuf.sameFrom t.outBuf bs.length

/-- If IN_LEN <= IN_CAP and the four commands, run one after another, answer the states a, b, c and d, then exec COMPRESS answers d. From every state exec COMPRESS answers a next state in which only FREQ, the tree (NODE, ROOT, counts, flags), CODE, TOK_BUF, TOK_LEN, SYNTH_HIT, the completion fields and the draw counter may differ; TOK_BUF holds the elements stored and reads as before at and above them; an error leaves TOK_LEN = 0. (45_control.md R166, 45_control.md R169, 10_state.md R49, 43_encoder.md R146) -/
def Obligations.CompressIsTheFourCommands : Prop :=
  (∀ s a b c d : State, s.inLen.toNat ≤ s.caps.inCap → exec .count s = .next a → exec .buildTree a = .next b →
    exec .buildTable b = .next c → exec .encode c = .next d → exec .compress s = .next d) ∧
  ∀ s : State, ∃ t, exec .compress s = .next t ∧
    t = { s with
      eng := .idle, errCode := t.errCode, errPos := t.errPos
      status := { s.status.ended t.status.err with
        treePresent := t.status.treePresent, synthPresent := t.status.synthPresent
        synthCollide := t.status.synthCollide, synthHit := t.status.synthHit }
      freq := t.freq, root := t.root, nodeCount := t.nodeCount, leafCount := t.leafCount, node := t.node, code := t.code
      tokBuf := t.tokBuf, tokLen := t.tokLen, draws := t.draws } ∧
    s.tokBuf.sameFrom t.tokBuf s.compressStores.length ∧ t.tokBuf.holds s.compressStores ∧
    (t.status.err = true → t.tokLen = 0)

/-- For a configuration R10 allows, IN_LEN <= IN_CAP and every input element written: exec COMPRESS answers a next state with SYNTH_HIT = 0 in which ERR = 1 only with ERRCODE = OUT_OVERFLOW; and ERR = 0 iff the total length of the input's codes in the new table is at most TOK_CAP. (45_control.md R166) -/
def Obligations.CompressFindsEverySymbol : Prop :=
  ∀ s : State, s.caps.valid = true → s.inLen.toNat ≤ s.caps.inCap → s.inBuf.written s.inLen.toNat →
    ∃ t, exec .compress s = .next t ∧ t.status.synthHit = false ∧ (t.status.err = true → t.errCode = .outOverflow) ∧
      (t.status.err = false ↔ (codeTokens t.code s.inputBytes).length ≤ s.caps.tokCap)

/-- Two states of one configuration with equal IN_LEN <= IN_CAP and equal, written input elements give after COMPRESS equal FREQ, NODE, ROOT, NODE_COUNT, LEAF_COUNT, tree flags, SYNTH_HIT, ERR, CODE, TOK_LEN and TOK_BUF[0..TOK_LEN-1], and, on an error, equal ERRCODE and ERRPOS. (45_control.md R176) -/
def Obligations.CompressIsDeterministic : Prop :=
  ∀ s s' t t' : State, s.caps = s'.caps → s.inLen = s'.inLen → s.inLen.toNat ≤ s.caps.inCap →
    s.inBuf.written s.inLen.toNat → (∀ k, k < s.inLen.toNat → s.inBuf.read k = s'.inBuf.read k) →
    exec .compress s = .next t → exec .compress s' = .next t' →
    t.freq = t'.freq ∧ t.node = t'.node ∧ t.root = t'.root ∧ t.nodeCount = t'.nodeCount ∧ t.leafCount = t'.leafCount ∧
    t.status.treePresent = t'.status.treePresent ∧ t.status.synthPresent = t'.status.synthPresent ∧
    t.status.synthCollide = t'.status.synthCollide ∧ t.status.synthHit = t'.status.synthHit ∧
    t.status.err = t'.status.err ∧ t.code = t'.code ∧ t.tokLen = t'.tokLen ∧
    (∀ k, k < t.tokLen.toNat → t.tokBuf.read k = t'.tokBuf.read k) ∧
    (t.status.err = true → t.errCode = t'.errCode ∧ t.errPos = t'.errPos)

/-- With IN_LEN = 0, exec COMPRESS succeeds with TOK_LEN = 0 and TREE_PRESENT = 0, and exec DECODE on the result succeeds with OUT_LEN = 0. (R178) -/
def Obligations.EmptyInputRoundTrip : Prop :=
  ∀ s : State, s.inLen = 0 →
    ∃ t u, exec .compress s = .next t ∧ t.status.err = false ∧ t.tokLen = 0 ∧ t.status.treePresent = false ∧
      exec .decode t = .next u ∧ u.status.err = false ∧ u.outLen = 0

/-- For a configuration R10 allows and any byte sequence bs with IN_LEN = its length <= IN_CAP, written in IN_BUF[0..], whose encoded length in the table of its own tree is at most TOK_CAP: exec COMPRESS succeeds, and exec DECODE, run after the acceptance of its word, succeeds with OUT_LEN = the length and OUT_BUF holding bs. (45_control.md R175, 45_control.md R168) -/
def Obligations.RoundTripLaw : Prop :=
  ∀ (s : State) (bs : List Byte), s.caps.valid = true → bs.length = s.inLen.toNat → bs.length ≤ s.caps.inCap →
    s.inBuf.holds bs →
    (codeTokens (codeTableOf (treeOf (countTable bs)).node (treeOf (countTable bs)).root) bs).length ≤ s.caps.tokCap →
    ∃ t u, exec .compress s = .next t ∧ t.status.err = false ∧ exec .decode (t.accept (encode .decode)) = .next u ∧
      u.status.err = false ∧ u.outLen.toNat = bs.length ∧ u.outBuf.holds bs

/-- For a configuration R10 allows, IN_LEN = n >= 1 copies of the byte x in IN_BUF, n <= IN_CAP and n <= TOK_CAP: exec COMPRESS succeeds with LEAF_COUNT = 2, SYNTH_PRESENT = 1, the code of x of length 1 with digit '0' iff x = 0 and n = 1, and TOK_LEN = n. (45_control.md R177) -/
def Obligations.SingleSymbolCompress : Prop :=
  ∀ (s : State) (x : Byte), s.caps.valid = true → 1 ≤ s.inLen.toNat → s.inLen.toNat ≤ s.caps.inCap →
    s.inLen.toNat ≤ s.caps.tokCap → s.inBuf.holds (List.replicate s.inLen.toNat x) →
    ∃ t, exec .compress s = .next t ∧ t.status.err = false ∧ t.leafCount = 2 ∧ t.status.synthPresent = true ∧
      (t.code.get (symIndex x)).valid = true ∧ (t.code.get (symIndex x)).len = 1 ∧
      ((t.code.get (symIndex x)).bits.getLsbD 0 = false ↔ x = 0 ∧ s.inLen.toNat = 1) ∧ t.tokLen = s.inLen

/-- Whenever exec of a command answers a next state, IN_BUF and IN_LEN are unchanged; FREQ is unchanged unless the command is COUNT or COMPRESS; TOK_BUF is unchanged unless it is ENCODE or COMPRESS. (R228) -/
def Obligations.CommandsKeepTheInput : Prop :=
  ∀ (i : Instr) (s t : State), exec i s = .next t →
    t.inBuf = s.inBuf ∧ t.inLen = s.inLen ∧
    (i ≠ .count → i ≠ .compress → t.freq = s.freq) ∧ (i ≠ .encode → i ≠ .compress → t.tokBuf = s.tokBuf)

/-- Every step but a reset and the completion of an accepted BUILD_TREE or COMPRESS leaves NODE, ROOT, NODE_COUNT, LEAF_COUNT, TREE_PRESENT, SYNTH_PRESENT and SYNTH_COLLIDE as they were, whatever the host does, also while such a command waits in the engine. Which move is next is the model's own (log 3). (10_state.md R34, 10_state.md R46, 20_memory.md R60, 70_reset_and_hazards.md R210) -/
def Obligations.OnlyTreeCommandsChangeTheTree : Prop :=
  ∀ s t : State, s.nextMove ≠ .reset →
    (∀ w, s.nextMove = .completion → s.eng = .busy w → decodeWord w ≠ .ok .buildTree ∧ decodeWord w ≠ .ok .compress) →
    step s = .next t →
    t.node = s.node ∧ t.root = s.root ∧ t.nodeCount = s.nodeCount ∧ t.leafCount = s.leafCount ∧
    t.status.treePresent = s.status.treePresent ∧ t.status.synthPresent = s.status.synthPresent ∧
    t.status.synthCollide = s.status.synthCollide

/-- If every buffer element the command reads (R216) has been written since reset, exec takes no draw, and from the same state with any other draw counter it answers the same state with that counter. The draw counter is the model's own (log 2). (70_reset_and_hazards.md R216, 10_state.md R48) -/
def Obligations.WrittenOperandsGiveDrawFreeResults : Prop :=
  ∀ (i : Instr) (s t : State) (d : Nat), definedOperands i s → exec i s = .next t →
    t.draws = s.draws ∧ exec i { s with draws := d } = .next { t with draws := d }

/-- While ENG is Busy, a HostWrite to a mapped, writable address other than STATUS and CTRL answers err 1, sets BUSY_VIOL and changes nothing else; a write to STATUS clears its W1C flags and a write to CTRL sets IRQ_EN, with err 0; and any HostWrite at all changes nothing but IRQ_EN, DONE, BUSY_VIOL and BUS_ERR. (R63) -/
def Obligations.HostCannotTouchARunningCommand : Prop :=
  ∀ (s : State) (d : Word), s.busy = true →
    (∀ a, mapped s.caps a → ¬ readOnlyAddr a.toNat → a ≠ 0x18 → a ≠ 0x10 →
      hostWrite a d s = (true, { s with status := { s.status with busyViol := true } })) ∧
    hostWrite 0x18 d s = (false, { s with status := { s.status with
      done := s.status.done && !d.getLsbD 1, busyViol := s.status.busyViol && !d.getLsbD 8
      busErr := s.status.busErr && !d.getLsbD 9 } }) ∧
    hostWrite 0x10 d s = (false, { s with irqEn := d.getLsbD 0 }) ∧
    (∀ a, ∃ b e f g, (hostWrite a d s).2 =
      { s with irqEn := b, status := { s.status with done := e, busyViol := f, busErr := g } })

/-- While ENG is Busy: ID, the PARAM registers, CTRL and STATUS read their values without changing the state, and STATUS bit 0 reads 1; CMD reads 0; any other mapped address answers err 0 with the next draw, whatever the state holds there, and changes nothing but the draw counter (log 2). (20_memory.md R64, 20_memory.md R51) -/
def Obligations.BusyReadsAreDrawsButForTheExemptOnes : Prop :=
  ∀ s : State, s.busy = true →
    hostRead 0x00 s = ({ data := 0x48554646, err := false }, s) ∧
    hostRead 0x04 s = ({ data := BitVec.ofNat 32 s.caps.inCap, err := false }, s) ∧
    hostRead 0x08 s = ({ data := BitVec.ofNat 32 s.caps.tokCap, err := false }, s) ∧
    hostRead 0x0C s = ({ data := BitVec.ofNat 32 s.caps.outCap, err := false }, s) ∧
    hostRead 0x10 s = ({ data := if s.irqEn then 1 else 0, err := false }, s) ∧
    hostRead 0x18 s = ({ data := s.statusWord, err := false }, s) ∧ s.statusWord.getLsbD 0 = true ∧
    hostRead 0x14 s = ({ data := 0, err := false }, s) ∧
    ∀ a, mapped s.caps a → a.toNat ∉ [0x00, 0x04, 0x08, 0x0C, 0x10, 0x14, 0x18] →
      hostRead a s = ({ data := Config.drawWord s.draws, err := false }, { s with draws := s.draws + 1 })

/-- For an address that is misaligned or that R53 does not list as mapped, a HostRead returns 0 with err 1 and a HostWrite is dropped with err 1; a HostWrite to a read-only address is dropped with err 1; each sets STATUS.BUS_ERR and changes nothing else, busy or idle. (R58, R59, R60) -/
def Obligations.UnmappedAndReadOnlyAccessesAreBusErrors : Prop :=
  ∀ (s : State) (a : HostAddr) (d : Word), s.caps.valid = true →
    (¬ mapped s.caps a →
      hostRead a s = ({ data := 0, err := true }, { s with status := { s.status with busErr := true } }) ∧
      hostWrite a d s = (true, { s with status := { s.status with busErr := true } })) ∧
    (readOnlyAddr a.toNat → hostWrite a d s = (true, { s with status := { s.status with busErr := true } }))

/-- For a configuration R10 allows, an address has a location iff it is mapped by R53; FREQ[y] is at 0x400 + 4y, NODE[i] word j at 0x2000 + 16i + 4j, CODE[y] word j at 0x4000 + 64y + 4j, and the buffer words from elements 4m on at 0x10000, 0x40000 and 0x80000 + 4m. (20_memory.md R53, 20_memory.md R54, 20_memory.md R55) -/
def Obligations.AddressMapPlacesEveryTable : Prop :=
  ∀ c : Config.Caps, c.valid = true →
    (∀ a, (locate c a).isSome = true ↔ mapped c a) ∧
    (∀ y : Fin 256, locate c (BitVec.ofNat 20 (0x400 + 4 * y.val)) = some (.freq y)) ∧
    (∀ (i : Fin 511) (j : Fin 4), locate c (BitVec.ofNat 20 (0x2000 + 16 * i.val + 4 * j.val)) = some (.node i j)) ∧
    (∀ (y : Fin 256) (j : Fin 16), locate c (BitVec.ofNat 20 (0x4000 + 64 * y.val + 4 * j.val)) = some (.code y j)) ∧
    (∀ m, 4 * m < c.inCap → locate c (BitVec.ofNat 20 (0x10000 + 4 * m)) = some (.inBuf (4 * m))) ∧
    (∀ m, 4 * m < c.tokCap → locate c (BitVec.ofNat 20 (0x40000 + 4 * m)) = some (.tokBuf (4 * m))) ∧
    (∀ m, 4 * m < c.outCap → locate c (BitVec.ofNat 20 (0x80000 + 4 * m)) = some (.outBuf (4 * m)))

/-- A NODE entry reads as its weight in words 0 and 1, LEFT and RIGHT at bits 0 and 16 of word 2, SYM, SYNTH and INTERNAL at bits 0, 8 and 31 of word 3; a CODE entry as LEN, VALID and SYNTH at bits 0, 8 and 9 of word 0, digit n at bit n mod 32 of word 1 + n / 32 for n < 255, and 0 in words 9 to 15 and at bit 31 of word 8. (30_encoding.md R86, 30_encoding.md R87) -/
def Obligations.WordLayoutsOfNodeAndCode : Prop :=
  (∀ n : Node,
    (n.word 0).toNat = n.weight.toNat % 2 ^ 32 ∧ (n.word 1).toNat = n.weight.toNat / 2 ^ 32 ∧
    (n.word 2).toNat = n.left.val + 2 ^ 16 * n.right.val ∧
    (n.word 3).toNat = n.sym.toNat + 2 ^ 8 * n.synth.toNat + 2 ^ 31 * n.isInternal.toNat) ∧
  (∀ e : CodeEntry,
    (e.word 0).toNat = e.len.toNat + 2 ^ 8 * e.valid.toNat + 2 ^ 9 * e.synth.toNat ∧
    (∀ n, n < 255 → (e.word (Fin.ofNat 16 (1 + n / 32))).getLsbD (n % 32) = e.bits.getLsbD n) ∧
    (e.word 8).getLsbD 31 = false ∧ (∀ j : Fin 16, 9 ≤ j.val → e.word j = 0))

/-- STATUS bits 0 to 9 read BUSY, DONE, ERR, TREE_PRESENT, SYNTH_PRESENT, SYNTH_COLLIDE, SYNTH_HIT, 0, BUSY_VIOL, BUS_ERR, the rest 0; a HostWrite of d to STATUS answers err 0 and changes only DONE, BUSY_VIOL and BUS_ERR, each cleared iff d has bit 1, 8 or 9 set. (10_state.md R28, 20_memory.md R61, 20_memory.md R52) -/
def Obligations.StatusBitsAndWriteOneToClear : Prop :=
  ∀ (s : State) (d : Word),
    s.statusWord.toNat = s.busy.toNat + 2 * s.status.done.toNat + 4 * s.status.err.toNat +
      8 * s.status.treePresent.toNat + 16 * s.status.synthPresent.toNat + 32 * s.status.synthCollide.toNat +
      64 * s.status.synthHit.toNat + 256 * s.status.busyViol.toNat + 512 * s.status.busErr.toNat ∧
    (hostRead 0x18 s).1 = { data := s.statusWord, err := false } ∧
    hostWrite 0x18 d s = (false, { s with status := { s.status with
      done := s.status.done && !d.getLsbD 1, busyViol := s.status.busyViol && !d.getLsbD 8
      busErr := s.status.busErr && !d.getLsbD 9 } })

/-- In every state a HostRead of ID gives 0x48554646, and of the PARAM registers the three capacities as 32-bit numbers, with no effect; with the defaults they read 0x00010000, 0x00040000 and 0x00040000. (R24, R25) -/
def Obligations.IdAndParamsAreConstants : Prop :=
  (∀ s : State, s.caps.valid = true →
    hostRead 0x00 s = ({ data := 0x48554646, err := false }, s) ∧
    ((hostRead 0x04 s).1.data.toNat = s.caps.inCap ∧ (hostRead 0x04 s).1.err = false ∧ (hostRead 0x04 s).2 = s) ∧
    ((hostRead 0x08 s).1.data.toNat = s.caps.tokCap ∧ (hostRead 0x08 s).1.err = false ∧ (hostRead 0x08 s).2 = s) ∧
    ((hostRead 0x0C s).1.data.toNat = s.caps.outCap ∧ (hostRead 0x0C s).1.err = false ∧ (hostRead 0x0C s).2 = s)) ∧
  State.reset.caps.valid = true ∧
  (hostRead 0x04 State.reset).1.data = 0x00010000 ∧ (hostRead 0x08 State.reset).1.data = 0x00040000 ∧
  (hostRead 0x0C State.reset).1.data = 0x00040000

/-- While the engine is idle, a HostRead of ERRCODE, ERRPOS, IN_LEN, TOK_LEN, OUT_LEN, ROOT, NODE_COUNT, LEAF_COUNT, ROOT_WEIGHT_LO or ROOT_WEIGHT_HI answers err 0 with its value (the codes of R185 for ERRCODE; the root's weight, or 0 with no tree), a HostRead of FREQ[y], of NODE[i] word j or of CODE[y] word j that count or word, and none changes the state; a HostRead of CMD answers err 0 with 0 and changes nothing. A HostWrite of d to IN_LEN, TOK_LEN or FREQ[y] answers err 0, changes that item alone to d, and a HostRead of it then gives d; a write of CTRL keeps bit 0 of d alone, and CTRL then reads that bit with 0 above. (20_memory.md R51, 20_memory.md R52, 20_memory.md R54, 10_state.md R26, 10_state.md R27, 10_state.md R29, 10_state.md R30, 10_state.md R31, 10_state.md R32, 10_state.md R33, 10_state.md R37, 60_exceptions.md R185) -/
def Obligations.IdleReadsAndWritesOfRegistersAndTables : Prop :=
  ∀ (s : State) (d : Word), s.eng = .idle →
    hostRead 0x1C s = ({ data := BitVec.ofNat 32 s.errCode.toCode.toNat, err := false }, s) ∧
    [ErrCode.none, .illegalCmd, .malformedBit, .truncated, .symbolNotInTable, .noTree, .lenRange, .outOverflow, .mergeUnderflow].map
      (fun c => c.toCode.toNat) = [0, 1, 2, 3, 4, 5, 6, 7, 8] ∧
    hostRead 0x14 s = ({ data := 0, err := false }, s) ∧
    hostRead 0x20 s = ({ data := s.errPos, err := false }, s) ∧
    hostRead 0x24 s = ({ data := s.inLen, err := false }, s) ∧ hostRead 0x28 s = ({ data := s.tokLen, err := false }, s) ∧
    hostRead 0x2C s = ({ data := s.outLen, err := false }, s) ∧
    hostRead 0x30 s = ({ data := BitVec.ofNat 32 s.root.val, err := false }, s) ∧
    hostRead 0x34 s = ({ data := BitVec.ofNat 32 s.nodeCount.val, err := false }, s) ∧
    hostRead 0x38 s = ({ data := BitVec.ofNat 32 s.leafCount.val, err := false }, s) ∧
    (∀ v, v = (if s.status.treePresent then (s.node.get s.root).weight.toNat else 0) →
      hostRead 0x3C s = ({ data := BitVec.ofNat 32 (v % 2 ^ 32), err := false }, s) ∧
      hostRead 0x40 s = ({ data := BitVec.ofNat 32 (v / 2 ^ 32), err := false }, s)) ∧
    (∀ y : Fin 256, hostRead (BitVec.ofNat 20 (0x400 + 4 * y.val)) s = ({ data := s.freq.get y, err := false }, s)) ∧
    (∀ (i : Fin 511) (j : Fin 4),
      hostRead (BitVec.ofNat 20 (0x2000 + 16 * i.val + 4 * j.val)) s = ({ data := (s.node.get i).word j, err := false }, s)) ∧
    (∀ (y : Fin 256) (j : Fin 16),
      hostRead (BitVec.ofNat 20 (0x4000 + 64 * y.val + 4 * j.val)) s = ({ data := (s.code.get y).word j, err := false }, s)) ∧
    hostWrite 0x24 d s = (false, { s with inLen := d }) ∧ (hostRead 0x24 { s with inLen := d }).1 = { data := d, err := false } ∧
    hostWrite 0x28 d s = (false, { s with tokLen := d }) ∧ (hostRead 0x28 { s with tokLen := d }).1 = { data := d, err := false } ∧
    (∀ y : Fin 256, ∃ t, hostWrite (BitVec.ofNat 20 (0x400 + 4 * y.val)) d s = (false, t) ∧
      t = { s with freq := t.freq } ∧ t.freq.get y = d ∧ (∀ z, z ≠ y → t.freq.get z = s.freq.get z) ∧
      (hostRead (BitVec.ofNat 20 (0x400 + 4 * y.val)) t).1 = { data := d, err := false }) ∧
    hostWrite 0x10 d s = (false, { s with irqEn := d.getLsbD 0 }) ∧
    (hostRead 0x10 { s with irqEn := d.getLsbD 0 }).1 = { data := BitVec.ofNat 32 (d.toNat % 2), err := false }

/-- For a configuration R10 allows and an idle engine, a HostWrite of d to the IN_BUF, TOK_BUF or OUT_BUF word of elements 4m to 4m+3 answers err 0; element 4m+b then holds bits [8b+7:8b] of d for b = 0..3, every other element of that buffer reads as before, nothing else changes, and a HostRead of the word gives d. A HostRead of that word gives each written element exactly in its lane and each unwritten one as the next draw. A HostRead of any mapped address answers err 0 and changes nothing but the draw counter (the model's own, log 2). (20_memory.md R51, 20_memory.md R55, 20_memory.md R56, 20_memory.md R62, 10_state.md R48) -/
def Obligations.BufferWordsAndIdleReads : Prop :=
  ∀ (s : State) (d : Word) (m : Nat), s.caps.valid = true → s.eng = .idle →
    (4 * m < s.caps.inCap → ∃ t, hostWrite (BitVec.ofNat 20 (0x10000 + 4 * m)) d s = (false, t) ∧
      t = { s with inBuf := t.inBuf } ∧
      (∀ b, b < 4 → t.inBuf.read (4 * m + b) = some (BitVec.ofNat 8 (d.toNat / 2 ^ (8 * b)))) ∧
      (∀ k, k < 4 * m ∨ 4 * m + 4 ≤ k → t.inBuf.read k = s.inBuf.read k) ∧
      hostRead (BitVec.ofNat 20 (0x10000 + 4 * m)) t = ({ data := d, err := false }, t)) ∧
    (4 * m < s.caps.tokCap → ∃ t, hostWrite (BitVec.ofNat 20 (0x40000 + 4 * m)) d s = (false, t) ∧
      t = { s with tokBuf := t.tokBuf } ∧
      (∀ b, b < 4 → t.tokBuf.read (4 * m + b) = some (BitVec.ofNat 8 (d.toNat / 2 ^ (8 * b)))) ∧
      (∀ k, k < 4 * m ∨ 4 * m + 4 ≤ k → t.tokBuf.read k = s.tokBuf.read k) ∧
      hostRead (BitVec.ofNat 20 (0x40000 + 4 * m)) t = ({ data := d, err := false }, t)) ∧
    (4 * m < s.caps.outCap → ∃ t, hostWrite (BitVec.ofNat 20 (0x80000 + 4 * m)) d s = (false, t) ∧
      t = { s with outBuf := t.outBuf } ∧
      (∀ b, b < 4 → t.outBuf.read (4 * m + b) = some (BitVec.ofNat 8 (d.toNat / 2 ^ (8 * b)))) ∧
      (∀ k, k < 4 * m ∨ 4 * m + 4 ≤ k → t.outBuf.read k = s.outBuf.read k) ∧
      hostRead (BitVec.ofNat 20 (0x80000 + 4 * m)) t = ({ data := d, err := false }, t)) ∧
    (4 * m < s.caps.inCap → readsLanes s (BitVec.ofNat 20 (0x10000 + 4 * m)) s.inBuf (4 * m)) ∧
    (4 * m < s.caps.tokCap → readsLanes s (BitVec.ofNat 20 (0x40000 + 4 * m)) s.tokBuf (4 * m)) ∧
    (4 * m < s.caps.outCap → readsLanes s (BitVec.ofNat 20 (0x80000 + 4 * m)) s.outBuf (4 * m)) ∧
    ∀ a, mapped s.caps a → ∃ n, (hostRead a s).1.err = false ∧ (hostRead a s).2 = { s with draws := n }

/-- irq is IRQ_EN and DONE; after any command's completion it equals IRQ_EN; after an acceptance, a STATUS write with bit 1 set, a CTRL write with bit 0 clear, or a reset, it is 0. That irq is R47's function also in the cycle before a reset's first edge is the model's choice (log 19). (10_state.md R47, 60_exceptions.md R193) -/
def Obligations.IrqIsEnableAndDone : Prop :=
  (∀ s : State, s.irq = true ↔ s.irqEn = true ∧ s.status.done = true) ∧
  (∀ (i : Instr) (s t : State), exec i s = .next t → t.irq = s.irqEn) ∧
  (∀ (s : State) (w : Word), (s.accept w).irq = false) ∧
  (∀ (s : State) (d : Word), d.getLsbD 1 = true → (hostWrite 0x18 d s).2.irq = false) ∧
  (∀ (s : State) (d : Word), d.getLsbD 0 = false → (hostWrite 0x10 d s).2.irq = false) ∧
  (∀ s : State, s.applyReset.irq = false)

/-- With the move 'reset' next, rst = 1, req_ready and rsp_valid are 0, and the step gives ENG Idle, CTRL, STATUS, ERRCODE, ERRPOS, lengths and tree registers 0, FREQ, NODE and CODE all-zero, every buffer unwritten, no outstanding response and irq 0; the configuration and the model's own fields (logs 2 to 5, 18) stay. If the move after is a reset too, req_ready and rsp_valid are 0 in that state as well; if it is the move 'request', req_ready is 1. The levels of rst, req_ready and rsp_valid are the model's functions of the next move (logs 3, 19): the spec lets the block hold req_ready = 0 longer. (70_reset_and_hazards.md R210, 70_reset_and_hazards.md R211, 10_state.md R46) -/
def Obligations.ResetEntersTheResetState : Prop :=
  ∀ (s : State) (ms : List Move), s.schedule = .reset :: ms → s.rst = true ∧ s.reqReady = false ∧ s.rspValid = false ∧
    ∃ t, step s = .next t ∧
    t.eng = .idle ∧ t.irqEn = false ∧ t.statusWord = 0 ∧ t.errCode = .none ∧ t.errPos = 0 ∧
    t.inLen = 0 ∧ t.tokLen = 0 ∧ t.outLen = 0 ∧ t.root = 0 ∧ t.nodeCount = 0 ∧ t.leafCount = 0 ∧
    (∀ y, t.freq.get y = 0) ∧ (∀ i, t.node.get i = zeroNode) ∧ (∀ y, t.code.get y = zeroCode) ∧
    (∀ k, t.inBuf.read k = none ∧ t.tokBuf.read k = none ∧ t.outBuf.read k = none) ∧
    t.rsp = none ∧ t.rspValid = false ∧ t.irq = false ∧ t.caps = s.caps ∧
    t.draws = s.draws ∧ t.requests = s.requests ∧ t.schedule = ms ∧ t.received = s.received ∧
    t.accepts = s.accepts ∧ (ms.head? = some .reset → t.reqReady = false ∧ t.rspValid = false) ∧
    (ms.head? = some .request → t.reqReady = true)

/-- Any state with IN_LEN = 0 has, after COMPRESS, the reset values of FREQ, NODE, CODE, ROOT, NODE_COUNT, LEAF_COUNT, TREE_PRESENT, SYNTH_PRESENT, SYNTH_COLLIDE, SYNTH_HIT and TOK_LEN; exec DECODE from the reset state, after the acceptance of its word, succeeds with OUT_LEN = 0. (R214) -/
def Obligations.ResetIsTheEmptyResult : Prop :=
  (∀ s t : State, s.inLen = 0 → exec .compress s = .next t →
    t.freq = State.reset.freq ∧ t.node = State.reset.node ∧ t.code = State.reset.code ∧ t.root = State.reset.root ∧
    t.nodeCount = State.reset.nodeCount ∧ t.leafCount = State.reset.leafCount ∧ t.tokLen = State.reset.tokLen ∧
    t.status = { Status.reset with done := true, busyViol := s.status.busyViol, busErr := s.status.busErr }) ∧
  ∃ u, exec .decode (State.reset.accept (encode .decode)) = .next u ∧ u.status.err = false ∧ u.outLen = 0

/-- From every state the step answers a next state: never a fault, never a refusal. From every state with ENG = Busy(w) and no reset in the schedule, after some number of steps at most the length of the schedule ENG is still Busy(w), and the step after is the completion: it leaves ENG = Idle with DONE = 1. The schedule is the model's own (log 3). (70_reset_and_hazards.md R231, 00_scope.md R8, 30_encoding.md R83, 60_exceptions.md R188, 60_exceptions.md R191) -/
def Obligations.EveryStepGoesOnAndCommandsComplete : Prop :=
  (∀ s : State, goesOn s) ∧
  ∀ (s : State) (w : Word), s.eng = .busy w → .reset ∉ s.schedule →
    ∃ n u t, n ≤ s.schedule.length ∧ reaches n s u ∧ u.eng = .busy w ∧ step u = .next t ∧
      t.eng = .idle ∧ t.status.done = true

/-- If the configuration meets R10 and each buffer lists its written elements by strictly rising index below its capacity, the same holds after any step, and the capacities are the same. (10_state.md R41, 20_memory.md R55, 44_decoder.md R153, 43_encoder.md R142) -/
def Obligations.StepsKeepBuffersCanonicalAndInCapacity : Prop :=
  ∀ s t : State, s.caps.valid = true → BufferInvariant s → step s = .next t → BufferInvariant t ∧ t.caps = s.caps

/-- ReportInvariant is kept by every step: while busy DONE and ERR are 0; with ERR = 0, ERRCODE and ERRPOS are 0; with ERR = 1, ERRCODE is not 0; ERRCODE is never MERGE_UNDERFLOW. (10_state.md R29, 30_encoding.md R83, 41_tree_builder.md R120, 60_exceptions.md R185, 70_reset_and_hazards.md R227) -/
def Obligations.StepsKeepTheErrorReportSound : Prop :=
  ∀ s t : State, ReportInvariant s → step s = .next t → ReportInvariant t

/-- The reset state, and the state after any step from one with the property, hold in NODE, ROOT, NODE_COUNT, LEAF_COUNT and the tree flags exactly the tree of some frequency table (absent for the all-zero table). (10_state.md R34, 41_tree_builder.md R121) -/
def Obligations.EveryTreeHeldWasBuilt : Prop :=
  TreeBuilt State.reset ∧ ∀ s t : State, TreeBuilt s → step s = .next t → TreeBuilt t

/-- BlockInvariant (the configuration of R10, canonical buffers within capacity, a sound report, the tree invariant of R36, and CODE all-invalid or the table of the tree held) is kept by every step, whatever the host and the schedule do. (10_state.md R36, 10_state.md R38, 10_state.md R40, 10_state.md R34) -/
def Obligations.StepsKeepTheBlockInvariant : Prop :=
  ∀ s t : State, BlockInvariant s → step s = .next t → BlockInvariant t

/-- BlockInvariant holds of the reset state. (10_state.md R46, 70_reset_and_hazards.md R210) -/
def Obligations.ResetMeetsTheBlockInvariant : Prop :=
  BlockInvariant State.reset
end

