-- ==== Sys2Proof/Laws/State.lean ====
section
/-! SUPPORT. One lemma per field per named update of State, each true by rfl, so that no later proof unfolds a record update. -/

namespace Sys2Proof.Machine

/-! ## clearCode: BUILD_TREE and BUILD_TABLE clear CODE -/

@[simp] theorem State.clearCode_eng (s : State) : (s.clearCode).eng = s.eng := rfl
@[simp] theorem State.clearCode_irqEn (s : State) : (s.clearCode).irqEn = s.irqEn := rfl
@[simp] theorem State.clearCode_status (s : State) : (s.clearCode).status = s.status := rfl
@[simp] theorem State.clearCode_errCode (s : State) : (s.clearCode).errCode = s.errCode := rfl
@[simp] theorem State.clearCode_errPos (s : State) : (s.clearCode).errPos = s.errPos := rfl
@[simp] theorem State.clearCode_inLen (s : State) : (s.clearCode).inLen = s.inLen := rfl
@[simp] theorem State.clearCode_tokLen (s : State) : (s.clearCode).tokLen = s.tokLen := rfl
@[simp] theorem State.clearCode_outLen (s : State) : (s.clearCode).outLen = s.outLen := rfl
@[simp] theorem State.clearCode_root (s : State) : (s.clearCode).root = s.root := rfl
@[simp] theorem State.clearCode_nodeCount (s : State) : (s.clearCode).nodeCount = s.nodeCount := rfl
@[simp] theorem State.clearCode_leafCount (s : State) : (s.clearCode).leafCount = s.leafCount := rfl
@[simp] theorem State.clearCode_freq (s : State) : (s.clearCode).freq = s.freq := rfl
@[simp] theorem State.clearCode_node (s : State) : (s.clearCode).node = s.node := rfl
@[simp] theorem State.clearCode_code (s : State) : (s.clearCode).code = zeroCodes := rfl
@[simp] theorem State.clearCode_inBuf (s : State) : (s.clearCode).inBuf = s.inBuf := rfl
@[simp] theorem State.clearCode_tokBuf (s : State) : (s.clearCode).tokBuf = s.tokBuf := rfl
@[simp] theorem State.clearCode_outBuf (s : State) : (s.clearCode).outBuf = s.outBuf := rfl
@[simp] theorem State.clearCode_rsp (s : State) : (s.clearCode).rsp = s.rsp := rfl
@[simp] theorem State.clearCode_caps (s : State) : (s.clearCode).caps = s.caps := rfl
@[simp] theorem State.clearCode_draws (s : State) : (s.clearCode).draws = s.draws := rfl
@[simp] theorem State.clearCode_requests (s : State) : (s.clearCode).requests = s.requests := rfl
@[simp] theorem State.clearCode_schedule (s : State) : (s.clearCode).schedule = s.schedule := rfl
@[simp] theorem State.clearCode_received (s : State) : (s.clearCode).received = s.received := rfl
@[simp] theorem State.clearCode_accepts (s : State) : (s.clearCode).accepts = s.accepts := rfl

/-! ## enterError: error entry (R187) -/

@[simp] theorem State.enterError_eng (s : State) (c : ErrCode) (p : Nat) : (s.enterError c p).eng = s.eng := rfl
@[simp] theorem State.enterError_irqEn (s : State) (c : ErrCode) (p : Nat) : (s.enterError c p).irqEn = s.irqEn := rfl
@[simp] theorem State.enterError_status (s : State) (c : ErrCode) (p : Nat) : (s.enterError c p).status = { s.status with err := true } := rfl
@[simp] theorem State.enterError_errCode (s : State) (c : ErrCode) (p : Nat) : (s.enterError c p).errCode = c := rfl
@[simp] theorem State.enterError_errPos (s : State) (c : ErrCode) (p : Nat) : (s.enterError c p).errPos = BitVec.ofNat 32 p := rfl
@[simp] theorem State.enterError_inLen (s : State) (c : ErrCode) (p : Nat) : (s.enterError c p).inLen = s.inLen := rfl
@[simp] theorem State.enterError_tokLen (s : State) (c : ErrCode) (p : Nat) : (s.enterError c p).tokLen = s.tokLen := rfl
@[simp] theorem State.enterError_outLen (s : State) (c : ErrCode) (p : Nat) : (s.enterError c p).outLen = s.outLen := rfl
@[simp] theorem State.enterError_root (s : State) (c : ErrCode) (p : Nat) : (s.enterError c p).root = s.root := rfl
@[simp] theorem State.enterError_nodeCount (s : State) (c : ErrCode) (p : Nat) : (s.enterError c p).nodeCount = s.nodeCount := rfl
@[simp] theorem State.enterError_leafCount (s : State) (c : ErrCode) (p : Nat) : (s.enterError c p).leafCount = s.leafCount := rfl
@[simp] theorem State.enterError_freq (s : State) (c : ErrCode) (p : Nat) : (s.enterError c p).freq = s.freq := rfl
@[simp] theorem State.enterError_node (s : State) (c : ErrCode) (p : Nat) : (s.enterError c p).node = s.node := rfl
@[simp] theorem State.enterError_code (s : State) (c : ErrCode) (p : Nat) : (s.enterError c p).code = s.code := rfl
@[simp] theorem State.enterError_inBuf (s : State) (c : ErrCode) (p : Nat) : (s.enterError c p).inBuf = s.inBuf := rfl
@[simp] theorem State.enterError_tokBuf (s : State) (c : ErrCode) (p : Nat) : (s.enterError c p).tokBuf = s.tokBuf := rfl
@[simp] theorem State.enterError_outBuf (s : State) (c : ErrCode) (p : Nat) : (s.enterError c p).outBuf = s.outBuf := rfl
@[simp] theorem State.enterError_rsp (s : State) (c : ErrCode) (p : Nat) : (s.enterError c p).rsp = s.rsp := rfl
@[simp] theorem State.enterError_caps (s : State) (c : ErrCode) (p : Nat) : (s.enterError c p).caps = s.caps := rfl
@[simp] theorem State.enterError_draws (s : State) (c : ErrCode) (p : Nat) : (s.enterError c p).draws = s.draws := rfl
@[simp] theorem State.enterError_requests (s : State) (c : ErrCode) (p : Nat) : (s.enterError c p).requests = s.requests := rfl
@[simp] theorem State.enterError_schedule (s : State) (c : ErrCode) (p : Nat) : (s.enterError c p).schedule = s.schedule := rfl
@[simp] theorem State.enterError_received (s : State) (c : ErrCode) (p : Nat) : (s.enterError c p).received = s.received := rfl
@[simp] theorem State.enterError_accepts (s : State) (c : ErrCode) (p : Nat) : (s.enterError c p).accepts = s.accepts := rfl

/-! ## endCommand: the last line of complete_step (R83) -/

@[simp] theorem State.endCommand_eng (s : State) : (s.endCommand).eng = .idle := rfl
@[simp] theorem State.endCommand_irqEn (s : State) : (s.endCommand).irqEn = s.irqEn := rfl
@[simp] theorem State.endCommand_status (s : State) : (s.endCommand).status = { s.status with done := true } := rfl
@[simp] theorem State.endCommand_errCode (s : State) : (s.endCommand).errCode = s.errCode := rfl
@[simp] theorem State.endCommand_errPos (s : State) : (s.endCommand).errPos = s.errPos := rfl
@[simp] theorem State.endCommand_inLen (s : State) : (s.endCommand).inLen = s.inLen := rfl
@[simp] theorem State.endCommand_tokLen (s : State) : (s.endCommand).tokLen = s.tokLen := rfl
@[simp] theorem State.endCommand_outLen (s : State) : (s.endCommand).outLen = s.outLen := rfl
@[simp] theorem State.endCommand_root (s : State) : (s.endCommand).root = s.root := rfl
@[simp] theorem State.endCommand_nodeCount (s : State) : (s.endCommand).nodeCount = s.nodeCount := rfl
@[simp] theorem State.endCommand_leafCount (s : State) : (s.endCommand).leafCount = s.leafCount := rfl
@[simp] theorem State.endCommand_freq (s : State) : (s.endCommand).freq = s.freq := rfl
@[simp] theorem State.endCommand_node (s : State) : (s.endCommand).node = s.node := rfl
@[simp] theorem State.endCommand_code (s : State) : (s.endCommand).code = s.code := rfl
@[simp] theorem State.endCommand_inBuf (s : State) : (s.endCommand).inBuf = s.inBuf := rfl
@[simp] theorem State.endCommand_tokBuf (s : State) : (s.endCommand).tokBuf = s.tokBuf := rfl
@[simp] theorem State.endCommand_outBuf (s : State) : (s.endCommand).outBuf = s.outBuf := rfl
@[simp] theorem State.endCommand_rsp (s : State) : (s.endCommand).rsp = s.rsp := rfl
@[simp] theorem State.endCommand_caps (s : State) : (s.endCommand).caps = s.caps := rfl
@[simp] theorem State.endCommand_draws (s : State) : (s.endCommand).draws = s.draws := rfl
@[simp] theorem State.endCommand_requests (s : State) : (s.endCommand).requests = s.requests := rfl
@[simp] theorem State.endCommand_schedule (s : State) : (s.endCommand).schedule = s.schedule := rfl
@[simp] theorem State.endCommand_received (s : State) : (s.endCommand).received = s.received := rfl
@[simp] theorem State.endCommand_accepts (s : State) : (s.endCommand).accepts = s.accepts := rfl

/-! ## accept: acceptance (R83) -/

@[simp] theorem State.accept_eng (s : State) (w : Word) : (s.accept w).eng = .busy w := rfl
@[simp] theorem State.accept_irqEn (s : State) (w : Word) : (s.accept w).irqEn = s.irqEn := rfl
@[simp] theorem State.accept_status (s : State) (w : Word) : (s.accept w).status = { s.status with done := false, err := false } := rfl
@[simp] theorem State.accept_errCode (s : State) (w : Word) : (s.accept w).errCode = .none := rfl
@[simp] theorem State.accept_errPos (s : State) (w : Word) : (s.accept w).errPos = 0 := rfl
@[simp] theorem State.accept_inLen (s : State) (w : Word) : (s.accept w).inLen = s.inLen := rfl
@[simp] theorem State.accept_tokLen (s : State) (w : Word) : (s.accept w).tokLen = s.tokLen := rfl
@[simp] theorem State.accept_outLen (s : State) (w : Word) : (s.accept w).outLen = s.outLen := rfl
@[simp] theorem State.accept_root (s : State) (w : Word) : (s.accept w).root = s.root := rfl
@[simp] theorem State.accept_nodeCount (s : State) (w : Word) : (s.accept w).nodeCount = s.nodeCount := rfl
@[simp] theorem State.accept_leafCount (s : State) (w : Word) : (s.accept w).leafCount = s.leafCount := rfl
@[simp] theorem State.accept_freq (s : State) (w : Word) : (s.accept w).freq = s.freq := rfl
@[simp] theorem State.accept_node (s : State) (w : Word) : (s.accept w).node = s.node := rfl
@[simp] theorem State.accept_code (s : State) (w : Word) : (s.accept w).code = s.code := rfl
@[simp] theorem State.accept_inBuf (s : State) (w : Word) : (s.accept w).inBuf = s.inBuf := rfl
@[simp] theorem State.accept_tokBuf (s : State) (w : Word) : (s.accept w).tokBuf = s.tokBuf := rfl
@[simp] theorem State.accept_outBuf (s : State) (w : Word) : (s.accept w).outBuf = s.outBuf := rfl
@[simp] theorem State.accept_rsp (s : State) (w : Word) : (s.accept w).rsp = s.rsp := rfl
@[simp] theorem State.accept_caps (s : State) (w : Word) : (s.accept w).caps = s.caps := rfl
@[simp] theorem State.accept_draws (s : State) (w : Word) : (s.accept w).draws = s.draws := rfl
@[simp] theorem State.accept_requests (s : State) (w : Word) : (s.accept w).requests = s.requests := rfl
@[simp] theorem State.accept_schedule (s : State) (w : Word) : (s.accept w).schedule = s.schedule := rfl
@[simp] theorem State.accept_received (s : State) (w : Word) : (s.accept w).received = s.received := rfl
@[simp] theorem State.accept_accepts (s : State) (w : Word) : (s.accept w).accepts = s.accepts := rfl

/-! ## clearStatus: write-1-to-clear (R28) -/

@[simp] theorem State.clearStatus_eng (s : State) (d : Word) : (s.clearStatus d).eng = s.eng := rfl
@[simp] theorem State.clearStatus_irqEn (s : State) (d : Word) : (s.clearStatus d).irqEn = s.irqEn := rfl
@[simp] theorem State.clearStatus_status (s : State) (d : Word) : (s.clearStatus d).status = { s.status with done := s.status.done && !d.getLsbD 1, busyViol := s.status.busyViol && !d.getLsbD 8, busErr := s.status.busErr && !d.getLsbD 9 } := rfl
@[simp] theorem State.clearStatus_errCode (s : State) (d : Word) : (s.clearStatus d).errCode = s.errCode := rfl
@[simp] theorem State.clearStatus_errPos (s : State) (d : Word) : (s.clearStatus d).errPos = s.errPos := rfl
@[simp] theorem State.clearStatus_inLen (s : State) (d : Word) : (s.clearStatus d).inLen = s.inLen := rfl
@[simp] theorem State.clearStatus_tokLen (s : State) (d : Word) : (s.clearStatus d).tokLen = s.tokLen := rfl
@[simp] theorem State.clearStatus_outLen (s : State) (d : Word) : (s.clearStatus d).outLen = s.outLen := rfl
@[simp] theorem State.clearStatus_root (s : State) (d : Word) : (s.clearStatus d).root = s.root := rfl
@[simp] theorem State.clearStatus_nodeCount (s : State) (d : Word) : (s.clearStatus d).nodeCount = s.nodeCount := rfl
@[simp] theorem State.clearStatus_leafCount (s : State) (d : Word) : (s.clearStatus d).leafCount = s.leafCount := rfl
@[simp] theorem State.clearStatus_freq (s : State) (d : Word) : (s.clearStatus d).freq = s.freq := rfl
@[simp] theorem State.clearStatus_node (s : State) (d : Word) : (s.clearStatus d).node = s.node := rfl
@[simp] theorem State.clearStatus_code (s : State) (d : Word) : (s.clearStatus d).code = s.code := rfl
@[simp] theorem State.clearStatus_inBuf (s : State) (d : Word) : (s.clearStatus d).inBuf = s.inBuf := rfl
@[simp] theorem State.clearStatus_tokBuf (s : State) (d : Word) : (s.clearStatus d).tokBuf = s.tokBuf := rfl
@[simp] theorem State.clearStatus_outBuf (s : State) (d : Word) : (s.clearStatus d).outBuf = s.outBuf := rfl
@[simp] theorem State.clearStatus_rsp (s : State) (d : Word) : (s.clearStatus d).rsp = s.rsp := rfl
@[simp] theorem State.clearStatus_caps (s : State) (d : Word) : (s.clearStatus d).caps = s.caps := rfl
@[simp] theorem State.clearStatus_draws (s : State) (d : Word) : (s.clearStatus d).draws = s.draws := rfl
@[simp] theorem State.clearStatus_requests (s : State) (d : Word) : (s.clearStatus d).requests = s.requests := rfl
@[simp] theorem State.clearStatus_schedule (s : State) (d : Word) : (s.clearStatus d).schedule = s.schedule := rfl
@[simp] theorem State.clearStatus_received (s : State) (d : Word) : (s.clearStatus d).received = s.received := rfl
@[simp] theorem State.clearStatus_accepts (s : State) (d : Word) : (s.clearStatus d).accepts = s.accepts := rfl

/-! ## writeCtrl: a write of CTRL (R26) -/

@[simp] theorem State.writeCtrl_eng (s : State) (d : Word) : (s.writeCtrl d).eng = s.eng := rfl
@[simp] theorem State.writeCtrl_irqEn (s : State) (d : Word) : (s.writeCtrl d).irqEn = d.getLsbD 0 := rfl
@[simp] theorem State.writeCtrl_status (s : State) (d : Word) : (s.writeCtrl d).status = s.status := rfl
@[simp] theorem State.writeCtrl_errCode (s : State) (d : Word) : (s.writeCtrl d).errCode = s.errCode := rfl
@[simp] theorem State.writeCtrl_errPos (s : State) (d : Word) : (s.writeCtrl d).errPos = s.errPos := rfl
@[simp] theorem State.writeCtrl_inLen (s : State) (d : Word) : (s.writeCtrl d).inLen = s.inLen := rfl
@[simp] theorem State.writeCtrl_tokLen (s : State) (d : Word) : (s.writeCtrl d).tokLen = s.tokLen := rfl
@[simp] theorem State.writeCtrl_outLen (s : State) (d : Word) : (s.writeCtrl d).outLen = s.outLen := rfl
@[simp] theorem State.writeCtrl_root (s : State) (d : Word) : (s.writeCtrl d).root = s.root := rfl
@[simp] theorem State.writeCtrl_nodeCount (s : State) (d : Word) : (s.writeCtrl d).nodeCount = s.nodeCount := rfl
@[simp] theorem State.writeCtrl_leafCount (s : State) (d : Word) : (s.writeCtrl d).leafCount = s.leafCount := rfl
@[simp] theorem State.writeCtrl_freq (s : State) (d : Word) : (s.writeCtrl d).freq = s.freq := rfl
@[simp] theorem State.writeCtrl_node (s : State) (d : Word) : (s.writeCtrl d).node = s.node := rfl
@[simp] theorem State.writeCtrl_code (s : State) (d : Word) : (s.writeCtrl d).code = s.code := rfl
@[simp] theorem State.writeCtrl_inBuf (s : State) (d : Word) : (s.writeCtrl d).inBuf = s.inBuf := rfl
@[simp] theorem State.writeCtrl_tokBuf (s : State) (d : Word) : (s.writeCtrl d).tokBuf = s.tokBuf := rfl
@[simp] theorem State.writeCtrl_outBuf (s : State) (d : Word) : (s.writeCtrl d).outBuf = s.outBuf := rfl
@[simp] theorem State.writeCtrl_rsp (s : State) (d : Word) : (s.writeCtrl d).rsp = s.rsp := rfl
@[simp] theorem State.writeCtrl_caps (s : State) (d : Word) : (s.writeCtrl d).caps = s.caps := rfl
@[simp] theorem State.writeCtrl_draws (s : State) (d : Word) : (s.writeCtrl d).draws = s.draws := rfl
@[simp] theorem State.writeCtrl_requests (s : State) (d : Word) : (s.writeCtrl d).requests = s.requests := rfl
@[simp] theorem State.writeCtrl_schedule (s : State) (d : Word) : (s.writeCtrl d).schedule = s.schedule := rfl
@[simp] theorem State.writeCtrl_received (s : State) (d : Word) : (s.writeCtrl d).received = s.received := rfl
@[simp] theorem State.writeCtrl_accepts (s : State) (d : Word) : (s.writeCtrl d).accepts = s.accepts := rfl

/-! ## flagBusErr: a bus error (R58 to R60) -/

@[simp] theorem State.flagBusErr_eng (s : State) : (s.flagBusErr).eng = s.eng := rfl
@[simp] theorem State.flagBusErr_irqEn (s : State) : (s.flagBusErr).irqEn = s.irqEn := rfl
@[simp] theorem State.flagBusErr_status (s : State) : (s.flagBusErr).status = { s.status with busErr := true } := rfl
@[simp] theorem State.flagBusErr_errCode (s : State) : (s.flagBusErr).errCode = s.errCode := rfl
@[simp] theorem State.flagBusErr_errPos (s : State) : (s.flagBusErr).errPos = s.errPos := rfl
@[simp] theorem State.flagBusErr_inLen (s : State) : (s.flagBusErr).inLen = s.inLen := rfl
@[simp] theorem State.flagBusErr_tokLen (s : State) : (s.flagBusErr).tokLen = s.tokLen := rfl
@[simp] theorem State.flagBusErr_outLen (s : State) : (s.flagBusErr).outLen = s.outLen := rfl
@[simp] theorem State.flagBusErr_root (s : State) : (s.flagBusErr).root = s.root := rfl
@[simp] theorem State.flagBusErr_nodeCount (s : State) : (s.flagBusErr).nodeCount = s.nodeCount := rfl
@[simp] theorem State.flagBusErr_leafCount (s : State) : (s.flagBusErr).leafCount = s.leafCount := rfl
@[simp] theorem State.flagBusErr_freq (s : State) : (s.flagBusErr).freq = s.freq := rfl
@[simp] theorem State.flagBusErr_node (s : State) : (s.flagBusErr).node = s.node := rfl
@[simp] theorem State.flagBusErr_code (s : State) : (s.flagBusErr).code = s.code := rfl
@[simp] theorem State.flagBusErr_inBuf (s : State) : (s.flagBusErr).inBuf = s.inBuf := rfl
@[simp] theorem State.flagBusErr_tokBuf (s : State) : (s.flagBusErr).tokBuf = s.tokBuf := rfl
@[simp] theorem State.flagBusErr_outBuf (s : State) : (s.flagBusErr).outBuf = s.outBuf := rfl
@[simp] theorem State.flagBusErr_rsp (s : State) : (s.flagBusErr).rsp = s.rsp := rfl
@[simp] theorem State.flagBusErr_caps (s : State) : (s.flagBusErr).caps = s.caps := rfl
@[simp] theorem State.flagBusErr_draws (s : State) : (s.flagBusErr).draws = s.draws := rfl
@[simp] theorem State.flagBusErr_requests (s : State) : (s.flagBusErr).requests = s.requests := rfl
@[simp] theorem State.flagBusErr_schedule (s : State) : (s.flagBusErr).schedule = s.schedule := rfl
@[simp] theorem State.flagBusErr_received (s : State) : (s.flagBusErr).received = s.received := rfl
@[simp] theorem State.flagBusErr_accepts (s : State) : (s.flagBusErr).accepts = s.accepts := rfl

/-! ## flagBusyViol: a dropped write (R63) -/

@[simp] theorem State.flagBusyViol_eng (s : State) : (s.flagBusyViol).eng = s.eng := rfl
@[simp] theorem State.flagBusyViol_irqEn (s : State) : (s.flagBusyViol).irqEn = s.irqEn := rfl
@[simp] theorem State.flagBusyViol_status (s : State) : (s.flagBusyViol).status = { s.status with busyViol := true } := rfl
@[simp] theorem State.flagBusyViol_errCode (s : State) : (s.flagBusyViol).errCode = s.errCode := rfl
@[simp] theorem State.flagBusyViol_errPos (s : State) : (s.flagBusyViol).errPos = s.errPos := rfl
@[simp] theorem State.flagBusyViol_inLen (s : State) : (s.flagBusyViol).inLen = s.inLen := rfl
@[simp] theorem State.flagBusyViol_tokLen (s : State) : (s.flagBusyViol).tokLen = s.tokLen := rfl
@[simp] theorem State.flagBusyViol_outLen (s : State) : (s.flagBusyViol).outLen = s.outLen := rfl
@[simp] theorem State.flagBusyViol_root (s : State) : (s.flagBusyViol).root = s.root := rfl
@[simp] theorem State.flagBusyViol_nodeCount (s : State) : (s.flagBusyViol).nodeCount = s.nodeCount := rfl
@[simp] theorem State.flagBusyViol_leafCount (s : State) : (s.flagBusyViol).leafCount = s.leafCount := rfl
@[simp] theorem State.flagBusyViol_freq (s : State) : (s.flagBusyViol).freq = s.freq := rfl
@[simp] theorem State.flagBusyViol_node (s : State) : (s.flagBusyViol).node = s.node := rfl
@[simp] theorem State.flagBusyViol_code (s : State) : (s.flagBusyViol).code = s.code := rfl
@[simp] theorem State.flagBusyViol_inBuf (s : State) : (s.flagBusyViol).inBuf = s.inBuf := rfl
@[simp] theorem State.flagBusyViol_tokBuf (s : State) : (s.flagBusyViol).tokBuf = s.tokBuf := rfl
@[simp] theorem State.flagBusyViol_outBuf (s : State) : (s.flagBusyViol).outBuf = s.outBuf := rfl
@[simp] theorem State.flagBusyViol_rsp (s : State) : (s.flagBusyViol).rsp = s.rsp := rfl
@[simp] theorem State.flagBusyViol_caps (s : State) : (s.flagBusyViol).caps = s.caps := rfl
@[simp] theorem State.flagBusyViol_draws (s : State) : (s.flagBusyViol).draws = s.draws := rfl
@[simp] theorem State.flagBusyViol_requests (s : State) : (s.flagBusyViol).requests = s.requests := rfl
@[simp] theorem State.flagBusyViol_schedule (s : State) : (s.flagBusyViol).schedule = s.schedule := rfl
@[simp] theorem State.flagBusyViol_received (s : State) : (s.flagBusyViol).received = s.received := rfl
@[simp] theorem State.flagBusyViol_accepts (s : State) : (s.flagBusyViol).accepts = s.accepts := rfl

/-! ## clearSynthHit: the start of ENCODE and COMPRESS (R140, R166) -/

@[simp] theorem State.clearSynthHit_eng (s : State) : (s.clearSynthHit).eng = s.eng := rfl
@[simp] theorem State.clearSynthHit_irqEn (s : State) : (s.clearSynthHit).irqEn = s.irqEn := rfl
@[simp] theorem State.clearSynthHit_status (s : State) : (s.clearSynthHit).status = { s.status with synthHit := false } := rfl
@[simp] theorem State.clearSynthHit_errCode (s : State) : (s.clearSynthHit).errCode = s.errCode := rfl
@[simp] theorem State.clearSynthHit_errPos (s : State) : (s.clearSynthHit).errPos = s.errPos := rfl
@[simp] theorem State.clearSynthHit_inLen (s : State) : (s.clearSynthHit).inLen = s.inLen := rfl
@[simp] theorem State.clearSynthHit_tokLen (s : State) : (s.clearSynthHit).tokLen = s.tokLen := rfl
@[simp] theorem State.clearSynthHit_outLen (s : State) : (s.clearSynthHit).outLen = s.outLen := rfl
@[simp] theorem State.clearSynthHit_root (s : State) : (s.clearSynthHit).root = s.root := rfl
@[simp] theorem State.clearSynthHit_nodeCount (s : State) : (s.clearSynthHit).nodeCount = s.nodeCount := rfl
@[simp] theorem State.clearSynthHit_leafCount (s : State) : (s.clearSynthHit).leafCount = s.leafCount := rfl
@[simp] theorem State.clearSynthHit_freq (s : State) : (s.clearSynthHit).freq = s.freq := rfl
@[simp] theorem State.clearSynthHit_node (s : State) : (s.clearSynthHit).node = s.node := rfl
@[simp] theorem State.clearSynthHit_code (s : State) : (s.clearSynthHit).code = s.code := rfl
@[simp] theorem State.clearSynthHit_inBuf (s : State) : (s.clearSynthHit).inBuf = s.inBuf := rfl
@[simp] theorem State.clearSynthHit_tokBuf (s : State) : (s.clearSynthHit).tokBuf = s.tokBuf := rfl
@[simp] theorem State.clearSynthHit_outBuf (s : State) : (s.clearSynthHit).outBuf = s.outBuf := rfl
@[simp] theorem State.clearSynthHit_rsp (s : State) : (s.clearSynthHit).rsp = s.rsp := rfl
@[simp] theorem State.clearSynthHit_caps (s : State) : (s.clearSynthHit).caps = s.caps := rfl
@[simp] theorem State.clearSynthHit_draws (s : State) : (s.clearSynthHit).draws = s.draws := rfl
@[simp] theorem State.clearSynthHit_requests (s : State) : (s.clearSynthHit).requests = s.requests := rfl
@[simp] theorem State.clearSynthHit_schedule (s : State) : (s.clearSynthHit).schedule = s.schedule := rfl
@[simp] theorem State.clearSynthHit_received (s : State) : (s.clearSynthHit).received = s.received := rfl
@[simp] theorem State.clearSynthHit_accepts (s : State) : (s.clearSynthHit).accepts = s.accepts := rfl

/-! ## installTree: BUILD_TREE's results (R110) -/

@[simp] theorem State.installTree_eng (s : State) (t : TreeImage) : (s.installTree t).eng = s.eng := rfl
@[simp] theorem State.installTree_irqEn (s : State) (t : TreeImage) : (s.installTree t).irqEn = s.irqEn := rfl
@[simp] theorem State.installTree_status (s : State) (t : TreeImage) : (s.installTree t).status = { s.status with treePresent := t.present, synthPresent := t.synthPresent, synthCollide := t.synthCollide } := rfl
@[simp] theorem State.installTree_errCode (s : State) (t : TreeImage) : (s.installTree t).errCode = s.errCode := rfl
@[simp] theorem State.installTree_errPos (s : State) (t : TreeImage) : (s.installTree t).errPos = s.errPos := rfl
@[simp] theorem State.installTree_inLen (s : State) (t : TreeImage) : (s.installTree t).inLen = s.inLen := rfl
@[simp] theorem State.installTree_tokLen (s : State) (t : TreeImage) : (s.installTree t).tokLen = s.tokLen := rfl
@[simp] theorem State.installTree_outLen (s : State) (t : TreeImage) : (s.installTree t).outLen = s.outLen := rfl
@[simp] theorem State.installTree_root (s : State) (t : TreeImage) : (s.installTree t).root = t.root := rfl
@[simp] theorem State.installTree_nodeCount (s : State) (t : TreeImage) : (s.installTree t).nodeCount = t.nodeCount := rfl
@[simp] theorem State.installTree_leafCount (s : State) (t : TreeImage) : (s.installTree t).leafCount = t.leafCount := rfl
@[simp] theorem State.installTree_freq (s : State) (t : TreeImage) : (s.installTree t).freq = s.freq := rfl
@[simp] theorem State.installTree_node (s : State) (t : TreeImage) : (s.installTree t).node = t.node := rfl
@[simp] theorem State.installTree_code (s : State) (t : TreeImage) : (s.installTree t).code = s.code := rfl
@[simp] theorem State.installTree_inBuf (s : State) (t : TreeImage) : (s.installTree t).inBuf = s.inBuf := rfl
@[simp] theorem State.installTree_tokBuf (s : State) (t : TreeImage) : (s.installTree t).tokBuf = s.tokBuf := rfl
@[simp] theorem State.installTree_outBuf (s : State) (t : TreeImage) : (s.installTree t).outBuf = s.outBuf := rfl
@[simp] theorem State.installTree_rsp (s : State) (t : TreeImage) : (s.installTree t).rsp = s.rsp := rfl
@[simp] theorem State.installTree_caps (s : State) (t : TreeImage) : (s.installTree t).caps = s.caps := rfl
@[simp] theorem State.installTree_draws (s : State) (t : TreeImage) : (s.installTree t).draws = s.draws := rfl
@[simp] theorem State.installTree_requests (s : State) (t : TreeImage) : (s.installTree t).requests = s.requests := rfl
@[simp] theorem State.installTree_schedule (s : State) (t : TreeImage) : (s.installTree t).schedule = s.schedule := rfl
@[simp] theorem State.installTree_received (s : State) (t : TreeImage) : (s.installTree t).received = s.received := rfl
@[simp] theorem State.installTree_accepts (s : State) (t : TreeImage) : (s.installTree t).accepts = s.accepts := rfl

/-! ## applyReset: an edge with rst = 1 (R210) -/

@[simp] theorem State.applyReset_eng (s : State) : (s.applyReset).eng = State.reset.eng := rfl
@[simp] theorem State.applyReset_irqEn (s : State) : (s.applyReset).irqEn = State.reset.irqEn := rfl
@[simp] theorem State.applyReset_status (s : State) : (s.applyReset).status = State.reset.status := rfl
@[simp] theorem State.applyReset_errCode (s : State) : (s.applyReset).errCode = State.reset.errCode := rfl
@[simp] theorem State.applyReset_errPos (s : State) : (s.applyReset).errPos = State.reset.errPos := rfl
@[simp] theorem State.applyReset_inLen (s : State) : (s.applyReset).inLen = State.reset.inLen := rfl
@[simp] theorem State.applyReset_tokLen (s : State) : (s.applyReset).tokLen = State.reset.tokLen := rfl
@[simp] theorem State.applyReset_outLen (s : State) : (s.applyReset).outLen = State.reset.outLen := rfl
@[simp] theorem State.applyReset_root (s : State) : (s.applyReset).root = State.reset.root := rfl
@[simp] theorem State.applyReset_nodeCount (s : State) : (s.applyReset).nodeCount = State.reset.nodeCount := rfl
@[simp] theorem State.applyReset_leafCount (s : State) : (s.applyReset).leafCount = State.reset.leafCount := rfl
@[simp] theorem State.applyReset_freq (s : State) : (s.applyReset).freq = State.reset.freq := rfl
@[simp] theorem State.applyReset_node (s : State) : (s.applyReset).node = State.reset.node := rfl
@[simp] theorem State.applyReset_code (s : State) : (s.applyReset).code = State.reset.code := rfl
@[simp] theorem State.applyReset_inBuf (s : State) : (s.applyReset).inBuf = State.reset.inBuf := rfl
@[simp] theorem State.applyReset_tokBuf (s : State) : (s.applyReset).tokBuf = State.reset.tokBuf := rfl
@[simp] theorem State.applyReset_outBuf (s : State) : (s.applyReset).outBuf = State.reset.outBuf := rfl
@[simp] theorem State.applyReset_rsp (s : State) : (s.applyReset).rsp = State.reset.rsp := rfl
@[simp] theorem State.applyReset_caps (s : State) : (s.applyReset).caps = s.caps := rfl
@[simp] theorem State.applyReset_draws (s : State) : (s.applyReset).draws = s.draws := rfl
@[simp] theorem State.applyReset_requests (s : State) : (s.applyReset).requests = s.requests := rfl
@[simp] theorem State.applyReset_schedule (s : State) : (s.applyReset).schedule = s.schedule := rfl
@[simp] theorem State.applyReset_received (s : State) : (s.applyReset).received = s.received := rfl
@[simp] theorem State.applyReset_accepts (s : State) : (s.applyReset).accepts = s.accepts := rfl

/-! ## The end of a command -/

@[simp] theorem CmdResult.finish_completed (s : State) :
    (CmdResult.completed s).finish = { s with eng := .idle, status := s.status.ended false } := rfl

@[simp] theorem CmdResult.finish_raised (c : ErrCode) (p : Nat) (s : State) :
    (CmdResult.raised c p s).finish =
      { s with eng := .idle, errCode := c, errPos := BitVec.ofNat 32 p, status := s.status.ended true } := rfl

@[simp] theorem CmdResult.andThen_completed (s : State) (f : State → CmdResult) : (CmdResult.completed s).andThen f = f s := rfl

@[simp] theorem CmdResult.andThen_raised (c : ErrCode) (p : Nat) (s : State) (f : State → CmdResult) :
    (CmdResult.raised c p s).andThen f = .raised c p s := rfl

@[simp] theorem CmdResult.state_completed (s : State) : (CmdResult.completed s).state = s := rfl

@[simp] theorem CmdResult.state_raised (c : ErrCode) (p : Nat) (s : State) : (CmdResult.raised c p s).state = s := rfl

/-! ## BUSY is a view of ENG (R28) -/

@[simp] theorem State.busy_of_idle {s : State} (h : s.eng = .idle) : s.busy = false := by simp [State.busy, h]

@[simp] theorem State.busy_of_busy {s : State} {w : Word} (h : s.eng = .busy w) : s.busy = true := by simp [State.busy, h]

theorem State.busy_iff (s : State) : s.busy = true ↔ ∃ w, s.eng = .busy w := by
  unfold State.busy
  split <;> simp_all

theorem State.busy_false_iff (s : State) : s.busy = false ↔ s.eng = .idle := by
  unfold State.busy
  split <;> simp_all

/-! ## countAccepted: the host has one response fewer to take (R230) -/

@[simp] theorem State.countAccepted_eng (s : State) : s.countAccepted.eng = s.eng := rfl
@[simp] theorem State.countAccepted_irqEn (s : State) : s.countAccepted.irqEn = s.irqEn := rfl
@[simp] theorem State.countAccepted_status (s : State) : s.countAccepted.status = s.status := rfl
@[simp] theorem State.countAccepted_errCode (s : State) : s.countAccepted.errCode = s.errCode := rfl
@[simp] theorem State.countAccepted_errPos (s : State) : s.countAccepted.errPos = s.errPos := rfl
@[simp] theorem State.countAccepted_inLen (s : State) : s.countAccepted.inLen = s.inLen := rfl
@[simp] theorem State.countAccepted_tokLen (s : State) : s.countAccepted.tokLen = s.tokLen := rfl
@[simp] theorem State.countAccepted_outLen (s : State) : s.countAccepted.outLen = s.outLen := rfl
@[simp] theorem State.countAccepted_root (s : State) : s.countAccepted.root = s.root := rfl
@[simp] theorem State.countAccepted_nodeCount (s : State) : s.countAccepted.nodeCount = s.nodeCount := rfl
@[simp] theorem State.countAccepted_leafCount (s : State) : s.countAccepted.leafCount = s.leafCount := rfl
@[simp] theorem State.countAccepted_freq (s : State) : s.countAccepted.freq = s.freq := rfl
@[simp] theorem State.countAccepted_node (s : State) : s.countAccepted.node = s.node := rfl
@[simp] theorem State.countAccepted_code (s : State) : s.countAccepted.code = s.code := rfl
@[simp] theorem State.countAccepted_inBuf (s : State) : s.countAccepted.inBuf = s.inBuf := rfl
@[simp] theorem State.countAccepted_tokBuf (s : State) : s.countAccepted.tokBuf = s.tokBuf := rfl
@[simp] theorem State.countAccepted_outBuf (s : State) : s.countAccepted.outBuf = s.outBuf := rfl
@[simp] theorem State.countAccepted_rsp (s : State) : s.countAccepted.rsp = s.rsp := rfl
@[simp] theorem State.countAccepted_caps (s : State) : s.countAccepted.caps = s.caps := rfl
@[simp] theorem State.countAccepted_draws (s : State) : s.countAccepted.draws = s.draws := rfl
@[simp] theorem State.countAccepted_requests (s : State) : s.countAccepted.requests = s.requests := rfl
@[simp] theorem State.countAccepted_schedule (s : State) : s.countAccepted.schedule = s.schedule := rfl
@[simp] theorem State.countAccepted_received (s : State) : s.countAccepted.received = s.received := rfl
@[simp] theorem State.countAccepted_accepts (s : State) : s.countAccepted.accepts = s.accepts.map (· - 1) := rfl

/-! ## popped: the next move is taken off the schedule -/

@[simp] theorem State.popped_eng (s : State) : s.popped.eng = s.eng := rfl
@[simp] theorem State.popped_irqEn (s : State) : s.popped.irqEn = s.irqEn := rfl
@[simp] theorem State.popped_status (s : State) : s.popped.status = s.status := rfl
@[simp] theorem State.popped_errCode (s : State) : s.popped.errCode = s.errCode := rfl
@[simp] theorem State.popped_errPos (s : State) : s.popped.errPos = s.errPos := rfl
@[simp] theorem State.popped_inLen (s : State) : s.popped.inLen = s.inLen := rfl
@[simp] theorem State.popped_tokLen (s : State) : s.popped.tokLen = s.tokLen := rfl
@[simp] theorem State.popped_outLen (s : State) : s.popped.outLen = s.outLen := rfl
@[simp] theorem State.popped_root (s : State) : s.popped.root = s.root := rfl
@[simp] theorem State.popped_nodeCount (s : State) : s.popped.nodeCount = s.nodeCount := rfl
@[simp] theorem State.popped_leafCount (s : State) : s.popped.leafCount = s.leafCount := rfl
@[simp] theorem State.popped_freq (s : State) : s.popped.freq = s.freq := rfl
@[simp] theorem State.popped_node (s : State) : s.popped.node = s.node := rfl
@[simp] theorem State.popped_code (s : State) : s.popped.code = s.code := rfl
@[simp] theorem State.popped_inBuf (s : State) : s.popped.inBuf = s.inBuf := rfl
@[simp] theorem State.popped_tokBuf (s : State) : s.popped.tokBuf = s.tokBuf := rfl
@[simp] theorem State.popped_outBuf (s : State) : s.popped.outBuf = s.outBuf := rfl
@[simp] theorem State.popped_rsp (s : State) : s.popped.rsp = s.rsp := rfl
@[simp] theorem State.popped_caps (s : State) : s.popped.caps = s.caps := rfl
@[simp] theorem State.popped_draws (s : State) : s.popped.draws = s.draws := rfl
@[simp] theorem State.popped_requests (s : State) : s.popped.requests = s.requests := rfl
@[simp] theorem State.popped_schedule (s : State) : s.popped.schedule = s.schedule.tail := rfl
@[simp] theorem State.popped_received (s : State) : s.popped.received = s.received := rfl
@[simp] theorem State.popped_accepts (s : State) : s.popped.accepts = s.accepts := rfl

end Sys2Proof.Machine
end

