-- ==== Sys2Proof/Laws/Memory.lean ====
section
/-! SUPPORT. The laws of buffers: read after write, the canonical form, and the sequences commands read and write. -/

namespace Sys2Proof.Machine

/-! ## One element -/

@[simp] theorem Memory.read_nil (k : Nat) : Memory.read [] k = none := rfl

theorem Memory.read_cons (j : Nat) (v : Byte) (m : Memory) (k : Nat) :
    Memory.read ((j, v) :: m) k = if j = k then some v else m.read k := rfl

theorem Memory.read_write (m : Memory) (k : Nat) (v : Byte) (j : Nat) :
    (m.write k v).read j = if k = j then some v else m.read j := by
  induction m with
  | nil => simp [Memory.write, Memory.read_cons]
  | cons c m ih =>
    obtain ⟨i, u⟩ := c
    unfold Memory.write
    split
    · simp [Memory.read_cons]
    · split
      · next h1 h2 => subst h2; by_cases hj : k = j <;> simp [Memory.read_cons, hj]
      · next h1 h2 =>
        simp only [Memory.read_cons, ih]
        by_cases hi : i = j
        · subst hi; simp [h2]
        · simp [hi]

@[simp] theorem Memory.read_write_same (m : Memory) (k : Nat) (v : Byte) : (m.write k v).read k = some v := by
  simp [Memory.read_write]

theorem Memory.read_write_ne (m : Memory) {k j : Nat} (v : Byte) (h : k ≠ j) : (m.write k v).read j = m.read j := by
  simp [Memory.read_write, h]

/-! ## The canonical form -/

theorem Memory.rising_write (m : Memory) (lo : Option Nat) (k : Nat) (v : Byte)
    (hlo : ∀ l, lo = some l → l < k) (h : Memory.rising lo m = true) : Memory.rising lo (m.write k v) = true := by
  induction m generalizing lo with
  | nil => cases lo <;> simp_all [Memory.write, Memory.rising]
  | cons c m ih =>
    obtain ⟨i, u⟩ := c
    have htail : Memory.rising (some i) m = true := by cases lo <;> simp_all [Memory.rising]
    have hhead : ∀ l, lo = some l → l < i := by
      intro l hl
      subst hl
      simp only [Memory.rising, Bool.and_eq_true, decide_eq_true_eq] at h
      exact h.1
    unfold Memory.write
    split
    · next hki => cases lo <;> simp_all [Memory.rising]
    · split
      · next h1 h2 => subst h2; cases lo <;> simp_all [Memory.rising]
      · next h1 h2 =>
        have hik : i < k := by omega
        have := ih (some i) (by simpa using hik) htail
        cases lo <;> simp_all [Memory.rising]

/-- A write keeps the canonical form. -/
theorem Memory.wf_write (m : Memory) (k : Nat) (v : Byte) (h : m.wf = true) : (m.write k v).wf = true :=
  Memory.rising_write m none k v (by simp) h

@[simp] theorem Memory.wf_nil : Memory.wf [] = true := rfl

theorem Memory.wf_writeList (vs : List Byte) (m : Memory) (k : Nat) (h : m.wf = true) : (m.writeList k vs).wf = true := by
  induction vs generalizing m k with
  | nil => exact h
  | cons v vs ih => exact ih _ _ (m.wf_write k v h)

theorem Memory.read_of_rising (m : Memory) (lo k : Nat) (h : Memory.rising (some lo) m = true) (hk : k ≤ lo) :
    m.read k = none := by
  induction m generalizing lo with
  | nil => rfl
  | cons c m ih =>
    obtain ⟨i, u⟩ := c
    simp only [Memory.rising, Bool.and_eq_true, decide_eq_true_eq] at h
    rw [Memory.read_cons, if_neg (by omega)]
    exact ih i h.2 (by omega)

theorem Memory.rising_none (m : Memory) (lo : Option Nat) (h : Memory.rising lo m = true) : m.wf = true := by
  cases m with
  | nil => rfl
  | cons c m =>
    obtain ⟨i, u⟩ := c
    cases lo <;> simp_all [Memory.rising, Memory.wf]

/-- Equal buffers are equal data: two canonical buffers that read alike are the same list. -/
theorem Memory.ext_of_wf (m m' : Memory) (h : m.wf = true) (h' : m'.wf = true) (hr : ∀ k, m.read k = m'.read k) :
    m = m' := by
  induction m generalizing m' with
  | nil =>
    cases m' with
    | nil => rfl
    | cons c _ => have := hr c.1; simp [Memory.read] at this
  | cons c m ih =>
    obtain ⟨i, u⟩ := c
    cases m' with
    | nil => have := hr i; simp [Memory.read] at this
    | cons c' m' =>
      obtain ⟨i', u'⟩ := c'
      have hm : Memory.rising (some i) m = true := by simpa [Memory.wf, Memory.rising] using h
      have hm' : Memory.rising (some i') m' = true := by simpa [Memory.wf, Memory.rising] using h'
      have hi : i = i' := by
        rcases Nat.lt_trichotomy i i' with hlt | heq | hgt
        · have := hr i
          rw [Memory.read_cons, Memory.read_cons, if_pos rfl, if_neg (by omega),
            Memory.read_of_rising m' i' i hm' (by omega)] at this
          exact absurd this (by simp)
        · exact heq
        · have := hr i'
          rw [Memory.read_cons, Memory.read_cons, if_pos rfl, if_neg (by omega),
            Memory.read_of_rising m i i' hm (by omega)] at this
          exact absurd this (by simp)
      subst hi
      have hu : u = u' := by simpa [Memory.read_cons] using hr i
      subst hu
      have hmm : m = m' := by
        apply ih m' (Memory.rising_none m _ hm) (Memory.rising_none m' _ hm')
        intro k
        by_cases hk : k ≤ i
        · rw [Memory.read_of_rising m i k hm hk, Memory.read_of_rising m' i k hm' hk]
        · simpa [Memory.read_cons, show i ≠ k by omega] using hr k
      rw [hmm]

/-! ## Sequences written -/

theorem Memory.read_writeList_before (vs : List Byte) (m : Memory) (k j : Nat) (h : j < k) :
    (m.writeList k vs).read j = m.read j := by
  induction vs generalizing m k with
  | nil => rfl
  | cons v vs ih => rw [Memory.writeList, ih _ _ (by omega), Memory.read_write_ne m v (by omega)]

theorem Memory.read_writeList_after (vs : List Byte) (m : Memory) (k j : Nat) (h : k + vs.length ≤ j) :
    (m.writeList k vs).read j = m.read j := by
  induction vs generalizing m k with
  | nil => rfl
  | cons v vs ih =>
    simp only [List.length_cons] at h
    rw [Memory.writeList, ih _ _ (by omega), Memory.read_write_ne m v (by omega)]

theorem Memory.read_writeList_inside (vs : List Byte) (m : Memory) (k j : Nat) (h : j < vs.length) :
    (m.writeList k vs).read (k + j) = some vs[j] := by
  induction vs generalizing m k j with
  | nil => simp at h
  | cons v vs ih =>
    rw [Memory.writeList]
    cases j with
    | zero =>
      show ((m.write k v).writeList (k + 1) vs).read k = some v
      rw [Memory.read_writeList_before vs _ (k + 1) k (by omega), Memory.read_write_same]
    | succ j =>
      have := ih (m.write k v) (k + 1) j (by simpa using h)
      rw [show k + 1 + j = k + (j + 1) by omega] at this
      simpa using this

/-- What `writeList` from index 0 leaves: the sequence, and every element above it unchanged. -/
theorem Memory.holds_writeList (vs : List Byte) (m : Memory) : (m.writeList 0 vs).holds vs := by
  intro j h
  simpa using Memory.read_writeList_inside vs m 0 j h

theorem Memory.sameFrom_writeList (vs : List Byte) (m : Memory) : m.sameFrom (m.writeList 0 vs) vs.length := by
  intro k hk
  exact Memory.read_writeList_after vs m 0 k (by omega)

/-! ## Capacities -/

theorem Memory.below_write (m : Memory) (cap k : Nat) (v : Byte) (h : m.below cap = true) (hk : k < cap) :
    (m.write k v).below cap = true := by
  induction m with
  | nil => simp [Memory.write, Memory.below, hk]
  | cons c m ih =>
    obtain ⟨i, u⟩ := c
    simp only [Memory.below, Bool.and_eq_true, decide_eq_true_eq] at h
    unfold Memory.write
    split
    · simp [Memory.below, hk, h]
    · split
      · simp [Memory.below, hk, h]
      · simp [Memory.below, h.1, ih h.2]

theorem Memory.below_writeList (vs : List Byte) (m : Memory) (cap k : Nat) (h : m.below cap = true)
    (hk : k + vs.length ≤ cap) : (m.writeList k vs).below cap = true := by
  induction vs generalizing m k with
  | nil => exact h
  | cons v vs ih =>
    simp only [List.length_cons] at hk
    exact ih _ _ (m.below_write cap k v h (by omega)) (by omega)

theorem Memory.lt_of_read (m : Memory) (cap k : Nat) (h : m.below cap = true) (hr : (m.read k).isSome = true) : k < cap := by
  induction m with
  | nil => simp at hr
  | cons c m ih =>
    obtain ⟨i, u⟩ := c
    simp only [Memory.below, Bool.and_eq_true, decide_eq_true_eq] at h
    rw [Memory.read_cons] at hr
    split at hr
    · next hi => exact hi ▸ h.1
    · exact ih h.2 hr

/-! ## Sequences read -/

@[simp] theorem Memory.readList_length (m : Memory) (d k n : Nat) : (m.readList d k n).length = n := by
  induction n generalizing d k with
  | zero => rfl
  | succ n ih => unfold Memory.readList; split <;> simp [ih]

/-- A written element is read as it is; only an unwritten one is a draw. -/
theorem Memory.readList_written (m : Memory) (d k n j : Nat) (hj : j < n) (v : Byte) (h : m.read (k + j) = some v) :
    (m.readList d k n)[j]? = some v := by
  induction n generalizing d k j with
  | zero => omega
  | succ n ih =>
    unfold Memory.readList
    cases j with
    | zero => simp only [Nat.add_zero] at h; simp [h]
    | succ j =>
      have hnext : m.read (k + 1 + j) = some v := by rw [← h]; congr 1; omega
      split <;> simpa using ih _ (k + 1) j (by omega) hnext

/-- A buffer that holds `vs` reads as `vs`, whatever the draws. -/
theorem Memory.readList_of_holds (m : Memory) (vs : List Byte) (d : Nat) (h : m.holds vs) : m.readList d 0 vs.length = vs := by
  apply List.ext_getElem?
  intro j
  by_cases hj : j < vs.length
  · rw [Memory.readList_written m d 0 vs.length j hj vs[j] (by simpa using h j hj), List.getElem?_eq_getElem hj]
  · rw [List.getElem?_eq_none (by simpa using hj), List.getElem?_eq_none (by omega)]

theorem Memory.drawCount_written (m : Memory) (k n : Nat) (h : ∀ j, j < n → (m.read (k + j)).isSome = true) :
    m.drawCount k n = 0 := by
  induction n generalizing k with
  | zero => rfl
  | succ n ih =>
    obtain ⟨v, hv⟩ := Option.isSome_iff_exists.mp (h 0 (by omega))
    unfold Memory.drawCount
    rw [show m.read k = some v by simpa using hv]
    exact ih (k + 1) fun j hj => by
      have := h (j + 1) (by omega)
      rwa [show k + (j + 1) = k + 1 + j by omega] at this

theorem Memory.readList_draws (m : Memory) (d d' k n : Nat) (h : ∀ j, j < n → (m.read (k + j)).isSome = true) :
    m.readList d k n = m.readList d' k n := by
  induction n generalizing d d' k with
  | zero => rfl
  | succ n ih =>
    obtain ⟨v, hv⟩ := Option.isSome_iff_exists.mp (h 0 (by omega))
    unfold Memory.readList
    rw [show m.read k = some v by simpa using hv]
    simp only
    rw [ih d d' (k + 1) fun j hj => by
      have := h (j + 1) (by omega)
      rwa [show k + (j + 1) = k + 1 + j by omega] at this]

end Sys2Proof.Machine
end

