-- ==== Sys2Proof/Laws/Commands.lean ====
section
/-! SUPPORT. What each command does to the state, said once: every command goes on, and its result is the record below. Later proofs cite these instead of unfolding the meanings. -/

namespace Sys2Proof.Machine

/-! ## Length checks -/

@[simp] theorem State.inLenBad_iff (s : State) : s.inLenBad = true ↔ s.caps.inCap < s.inLen.toNat := by
  simp [State.inLenBad]

@[simp] theorem State.inLenBad_false_iff (s : State) : s.inLenBad = false ↔ s.inLen.toNat ≤ s.caps.inCap := by
  simp [State.inLenBad]

@[simp] theorem State.tokLenBad_iff (s : State) : s.tokLenBad = true ↔ s.caps.tokCap < s.tokLen.toNat := by
  simp [State.tokLenBad]

@[simp] theorem State.tokLenBad_false_iff (s : State) : s.tokLenBad = false ↔ s.tokLen.toNat ≤ s.caps.tokCap := by
  simp [State.tokLenBad]

@[simp] theorem State.inputBytes_length (s : State) : s.inputBytes.length = s.inLen.toNat := by simp [State.inputBytes]

@[simp] theorem State.streamTokens_length (s : State) : s.streamTokens.length = s.tokLen.toNat := by
  simp [State.streamTokens]

/-! ## Results -/

/-- The command of an instruction, before the end of the completion step. -/
def commandOf : Instr → State → CmdResult
  | .nop => nopCommand
  | .count => countCommand
  | .buildTree => buildTreeBody
  | .buildTable => buildTableBody
  | .encode => encodeCommand
  | .decode => decodeCommand
  | .compress => compressCommand

/-- Every command goes on (R188): what `exec` answers. -/
theorem exec_eq (i : Instr) (s : State) : exec i s = .next (commandOf i s).finish := by cases i <;> rfl

theorem countCommand_ok {s : State} (h : s.inLenBad = false) : countCommand s = countBody s := by
  simp [countCommand, h]

theorem countCommand_bad {s : State} (h : s.inLenBad = true) : countCommand s = .raised .lenRange 0 s := by
  simp [countCommand, h]

theorem encodeCommand_ok {s : State} (h : s.inLenBad = false) : encodeCommand s = encodeBody s := by
  simp [encodeCommand, h]

theorem encodeCommand_bad {s : State} (h : s.inLenBad = true) : encodeCommand s = raiseInLen s := by
  simp [encodeCommand, h]

theorem compressCommand_ok {s : State} (h : s.inLenBad = false) : compressCommand s = compressBody s.clearSynthHit := by
  simp [compressCommand, h]

theorem compressCommand_bad {s : State} (h : s.inLenBad = true) : compressCommand s = raiseInLen s := by
  simp [compressCommand, h]

/-- ENCODE past its check: TOK_BUF, TOK_LEN, SYNTH_HIT, the report and the draws are all it writes. -/
theorem encodeBody_finish (s : State) :
    (encodeBody s).finish = { s with
      eng := .idle
      status := { s.status with done := true, err := s.encodeRun.error.isSome, synthHit := s.encodeRun.hit }
      errCode := (s.encodeRun.error.map Prod.fst).getD s.errCode
      errPos := (s.encodeRun.error.map fun e => BitVec.ofNat 32 e.2).getD s.errPos
      tokBuf := s.tokBuf.writeList 0 s.encodeRun.tokens
      tokLen := if s.encodeRun.error.isSome then 0 else BitVec.ofNat 32 s.encodeRun.tokens.length
      draws := s.draws + s.inBuf.drawCount 0 s.encodeRun.read } := by
  unfold encodeBody
  cases h : s.encodeRun.error with
  | none => simp [h, Status.ended]
  | some e => obtain ⟨c, k⟩ := e; simp [h, Status.ended]

/-- DECODE past its checks: OUT_BUF, OUT_LEN, the report and the draws are all it writes. -/
theorem decodeBody_finish (s : State) :
    (decodeBody s).finish = { s with
      eng := .idle
      status := { s.status with done := true, err := s.decodeRun.error.isSome }
      errCode := (s.decodeRun.error.map Prod.fst).getD s.errCode
      errPos := (s.decodeRun.error.map fun e => BitVec.ofNat 32 e.2).getD s.errPos
      outBuf := s.outBuf.writeList 0 s.decodeRun.bytes
      outLen := if s.decodeRun.error.isSome then 0 else BitVec.ofNat 32 s.decodeRun.bytes.length
      draws := s.draws + s.tokBuf.drawCount 0 s.decodeRun.read } := by
  unfold decodeBody
  cases h : s.decodeRun.error with
  | none => simp [h, Status.ended]
  | some e => obtain ⟨c, k⟩ := e; simp [h, Status.ended]

/-- DECODE's four ways (R150), in the order it checks them. -/
theorem decodeCommand_cases (s : State) :
    (s.tokLenBad = true ∧ decodeCommand s = .raised .lenRange 0 { s with outLen := 0 }) ∨
    (s.tokLenBad = false ∧ s.tokLen = 0 ∧ decodeCommand s = .completed { s with outLen := 0 }) ∨
    (s.tokLenBad = false ∧ s.tokLen ≠ 0 ∧ s.status.treePresent = false ∧
      decodeCommand s = .raised .noTree 0 { s with outLen := 0 }) ∨
    (s.tokLenBad = false ∧ s.tokLen ≠ 0 ∧ s.status.treePresent = true ∧ decodeCommand s = decodeBody s) := by
  unfold decodeCommand
  split
  · next hb => exact .inl ⟨hb, rfl⟩
  · next hb =>
    have hb' : s.tokLenBad = false := by simpa using hb
    split
    · next hz => exact .inr (.inl ⟨hb', hz, rfl⟩)
    · next hz =>
      split
      · next ht => exact .inr (.inr (.inl ⟨hb', hz, by simpa using ht, rfl⟩))
      · next ht => exact .inr (.inr (.inr ⟨hb', hz, by simpa using ht, rfl⟩))

/-- COMPRESS's four bodies (R166): the encoder runs on the state the first three leave. -/
theorem compressBody_eq (s : State) :
    compressBody s = encodeBody ((buildTableBody (buildTreeBody (countBody s).state).state).state) := rfl

/-! ## The loops of ENCODE and DECODE -/

@[simp] theorem CodeEntry.tokens_length (e : CodeEntry) : e.tokens.length = e.len.toNat := by simp [CodeEntry.tokens]

theorem CodeEntry.tokens_digits (e : CodeEntry) : allDigits e.tokens := by
  intro t ht
  simp only [CodeEntry.tokens, List.mem_map, List.mem_range] at ht
  obtain ⟨j, -, rfl⟩ := ht
  unfold tokenOf
  split <;> simp

/-- ENCODE's loop over a coded input that fits: the concatenation of the codes, no error (R144). -/
theorem encodeLoop_ok (c : CodeTable) (cap k p : Nat) (bs : List Byte) (hc : allCoded c bs)
    (hf : p + (codeTokens c bs).length ≤ cap) :
    encodeLoop c cap k p bs =
      { tokens := codeTokens c bs, hit := usesSynthetic c bs, read := bs.length, error := none } := by
  induction bs generalizing k p with
  | nil => rfl
  | cons b bs ih =>
    have hb : (c.get (symIndex b)).valid = true := hc b (by simp)
    have hlen : (codeTokens c (b :: bs)).length = (c.get (symIndex b)).len.toNat + (codeTokens c bs).length := by
      simp [codeTokens]
    rw [hlen] at hf
    unfold encodeLoop
    dsimp only
    rw [ih (k + 1) (p + (c.get (symIndex b)).len.toNat) (fun x hx => hc x (by simp [hx])) (by omega)]
    simp [hb, show ¬ cap < p + (c.get (symIndex b)).len.toNat by omega, codeTokens, usesSynthetic]

/-- ENCODE's loop past a coded beginning that fits: it goes on from there. -/
theorem encodeLoop_append (c : CodeTable) (cap k p : Nat) (pre post : List Byte) (hc : allCoded c pre)
    (hf : p + (codeTokens c pre).length ≤ cap) :
    encodeLoop c cap k p (pre ++ post) =
      { tokens := codeTokens c pre ++ (encodeLoop c cap (k + pre.length) (p + (codeTokens c pre).length) post).tokens
        hit := usesSynthetic c pre || (encodeLoop c cap (k + pre.length) (p + (codeTokens c pre).length) post).hit
        read := pre.length + (encodeLoop c cap (k + pre.length) (p + (codeTokens c pre).length) post).read
        error := (encodeLoop c cap (k + pre.length) (p + (codeTokens c pre).length) post).error } := by
  induction pre generalizing k p with
  | nil => simp [codeTokens, usesSynthetic]
  | cons b bs ih =>
    have hb : (c.get (symIndex b)).valid = true := hc b (by simp)
    have hlen : (codeTokens c (b :: bs)).length = (c.get (symIndex b)).len.toNat + (codeTokens c bs).length := by
      simp [codeTokens]
    rw [hlen] at hf
    have := ih (k + 1) (p + (c.get (symIndex b)).len.toNat) (fun x hx => hc x (by simp [hx])) (by omega)
    rw [List.cons_append, encodeLoop, this]
    simp only [hb, Bool.not_true, Bool.false_eq_true, if_false, show ¬ cap < p + (c.get (symIndex b)).len.toNat by omega]
    rw [hlen, show k + 1 + bs.length = k + (b :: bs).length by simp; omega,
      show p + (c.get (symIndex b)).len.toNat + (codeTokens c bs).length =
        p + ((c.get (symIndex b)).len.toNat + (codeTokens c bs).length) by omega]
    simp [codeTokens, usesSynthetic, Bool.or_assoc]
    omega

/-- What ENCODE writes never passes TOK_CAP (R142). -/
theorem encodeLoop_fits (c : CodeTable) (cap k p : Nat) (bs : List Byte) (hp : p ≤ cap) :
    p + (encodeLoop c cap k p bs).tokens.length ≤ cap := by
  induction bs generalizing k p with
  | nil => simpa [encodeLoop] using hp
  | cons b bs ih =>
    unfold encodeLoop
    dsimp only
    split
    · simpa using hp
    · split
      · simpa using hp
      · next h1 h2 =>
        have := ih (k + 1) (p + (c.get (symIndex b)).len.toNat) (by omega)
        simp only [List.length_append, CodeEntry.tokens_length]
        omega

/-- The errors ENCODE's loop can raise (R186). -/
theorem encodeLoop_error (c : CodeTable) (cap k p : Nat) (bs : List Byte) (e : ErrCode × Nat)
    (h : (encodeLoop c cap k p bs).error = some e) :
    (e.1 = .symbolNotInTable ∨ e.1 = .outOverflow) ∧ k ≤ e.2 ∧ e.2 < k + bs.length := by
  induction bs generalizing k p with
  | nil => simp [encodeLoop] at h
  | cons b bs ih =>
    unfold encodeLoop at h
    dsimp only at h
    split at h
    · simp only [Option.some.injEq] at h; subst h; simp
    · split at h
      · simp only [Option.some.injEq] at h; subst h; simp
      · obtain ⟨he, hlo, hhi⟩ := ih _ _ h
        simp only [List.length_cons]
        exact ⟨he, by omega, by omega⟩

theorem decodeLoop_cons (node : NodeTable) (root : Fin 511) (k : Nat) (cur : Fin 511) (st : DecoderState) (start : Nat)
    (t : Byte) (ts : List Byte) :
    decodeLoop node root k cur st start (t :: ts) =
      match digitOf t with
      | none => { bytes := [], read := 1, error := some (.malformedBit, k) }
      | some digit =>
        if (node.get ((node.get cur).child digit)).isInternal then
          { decodeLoop node root (k + 1) ((node.get cur).child digit) .descending start ts with
            read := (decodeLoop node root (k + 1) ((node.get cur).child digit) .descending start ts).read + 1 }
        else
          { bytes := (node.get ((node.get cur).child digit)).sym :: (decodeLoop node root (k + 1) root .atRoot (k + 1) ts).bytes
            read := (decodeLoop node root (k + 1) root .atRoot (k + 1) ts).read + 1
            error := (decodeLoop node root (k + 1) root .atRoot (k + 1) ts).error } := by
  cases st <;> rfl

/-- Each byte DECODE writes takes at least one token (R153). -/
theorem decodeLoop_fits (node : NodeTable) (root : Fin 511) (k : Nat) (cur : Fin 511) (st : DecoderState) (start : Nat)
    (ts : List Byte) : (decodeLoop node root k cur st start ts).bytes.length ≤ ts.length := by
  induction ts generalizing k cur st start with
  | nil => cases st <;> simp [decodeLoop]
  | cons t ts ih =>
    rw [decodeLoop_cons]
    split
    · simp
    · split
      · exact Nat.le_succ_of_le (ih _ _ _ _)
      · simpa using ih _ _ _ _

/-- The errors DECODE's loop can raise (R186). -/
theorem decodeLoop_error (node : NodeTable) (root : Fin 511) (k : Nat) (cur : Fin 511) (st : DecoderState) (start : Nat)
    (ts : List Byte) (e : ErrCode × Nat) (h : (decodeLoop node root k cur st start ts).error = some e) :
    e.1 = .malformedBit ∨ e.1 = .truncated := by
  induction ts generalizing k cur st start with
  | nil => cases st <;> simp [decodeLoop] at h; subst h; simp
  | cons t ts ih =>
    rw [decodeLoop_cons] at h
    split at h
    · simp only [Option.some.injEq] at h; subst h; simp
    · split at h <;> exact ih _ _ _ _ h

end Sys2Proof.Machine
end

