-- ==== Sys2Proof/Laws/Builder.lean ====
section
/-! SUPPORT. The merge order of R113, the extraction of R115 and the counts of R117. -/

namespace Sys2Proof.Machine

/-! ## The key order (R113, R16) -/

/-- `keyLt` is the lexicographic order of the triples (weight, symkey, index). -/
theorem keyLt_iff (sentinel : Nat) (nodes : List Node) (i j : Nat) : keyLt sentinel nodes i j = true ↔
    (nodeAt nodes i).weight.toNat < (nodeAt nodes j).weight.toNat ∨
    ((nodeAt nodes i).weight.toNat = (nodeAt nodes j).weight.toNat ∧
      (symKey sentinel (nodeAt nodes i) < symKey sentinel (nodeAt nodes j) ∨
        (symKey sentinel (nodeAt nodes i) = symKey sentinel (nodeAt nodes j) ∧ i < j))) := by
  simp [keyLt]

theorem keyLt_irrefl (sentinel : Nat) (nodes : List Node) (i : Nat) : keyLt sentinel nodes i i = false := by
  rw [Bool.eq_false_iff, Ne, keyLt_iff]
  omega

theorem keyLt_trans {sentinel : Nat} {nodes : List Node} {i j k : Nat} (h : keyLt sentinel nodes i j = true)
    (h' : keyLt sentinel nodes j k = true) : keyLt sentinel nodes i k = true := by
  rw [keyLt_iff] at *
  omega

theorem keyLt_total (sentinel : Nat) (nodes : List Node) {i j : Nat} (h : i ≠ j) :
    keyLt sentinel nodes i j = true ∨ keyLt sentinel nodes j i = true := by
  rw [keyLt_iff, keyLt_iff]
  omega

/-! ## Extraction (R115) -/

theorem argminKey_mem (sentinel : Nat) (nodes : List Node) (i : Nat) (q : List Nat) :
    argminKey sentinel nodes i q ∈ i :: q := by
  induction q generalizing i with
  | nil => simp [argminKey]
  | cons j q ih =>
    unfold argminKey
    rcases List.mem_cons.mp (ih (if keyLt sentinel nodes j i then j else i)) with h | h
    · rw [h]
      split <;> simp
    · exact List.mem_cons_of_mem _ (List.mem_cons_of_mem _ h)

/-- The extracted element is below every other one. -/
theorem argminKey_least (sentinel : Nat) (nodes : List Node) (i : Nat) (q : List Nat) :
    ∀ j ∈ i :: q, j = argminKey sentinel nodes i q ∨ keyLt sentinel nodes (argminKey sentinel nodes i q) j = true := by
  induction q generalizing i with
  | nil => intro j hj; left; simpa [argminKey] using hj
  | cons x q ih =>
    intro j hj
    unfold argminKey
    have hbest := ih (if keyLt sentinel nodes x i then x else i)
    rcases List.mem_cons.mp hj with rfl | hj
    · have h0 := hbest _ (List.mem_cons_self)
      split at h0
      · next hx =>
        rw [if_pos hx]
        right
        rcases h0 with h0 | h0
        · rw [← h0]; exact hx
        · exact keyLt_trans h0 hx
      · next hx => rw [if_neg hx]; exact h0
    · rcases List.mem_cons.mp hj with rfl | hj
      · have h0 := hbest _ (List.mem_cons_self)
        split at h0
        · next hx => rw [if_pos hx]; exact h0
        · next hx =>
          rw [if_neg hx]
          by_cases heq : j = i
          · subst heq; exact h0
          · right
            have hij : keyLt sentinel nodes i j = true := (keyLt_total sentinel nodes heq).resolve_left hx
            rcases h0 with h0 | h0
            · rw [← h0]; exact hij
            · exact keyLt_trans h0 hij
      · exact hbest j (List.mem_cons_of_mem _ hj)

/-- `argmin_key(Q)` and Q without it (R16): a member, the least, and gone once from Q. -/
theorem extractMin_spec {sentinel : Nat} {nodes : List Node} {q : List Nat} {a : Nat} {q' : List Nat}
    (h : extractMin sentinel nodes q = some (a, q')) :
    a ∈ q ∧ q' = q.erase a ∧ ∀ j ∈ q, j = a ∨ keyLt sentinel nodes a j = true := by
  cases q with
  | nil => simp [extractMin] at h
  | cons i q =>
    simp only [extractMin, Option.some.injEq, Prod.mk.injEq] at h
    obtain ⟨rfl, rfl⟩ := h
    exact ⟨argminKey_mem .., rfl, argminKey_least sentinel nodes i q⟩

theorem extractMin_length {sentinel : Nat} {nodes : List Node} {q : List Nat} {a : Nat} {q' : List Nat}
    (h : extractMin sentinel nodes q = some (a, q')) : q'.length + 1 = q.length := by
  obtain ⟨hmem, rfl, -⟩ := extractMin_spec h
  have := List.length_erase_of_mem hmem
  have := List.length_pos_of_mem hmem
  omega

theorem extractMin_isSome (sentinel : Nat) (nodes : List Node) (q : List Nat) (h : 0 < q.length) :
    ∃ a q', extractMin sentinel nodes q = some (a, q') := by
  cases q with
  | nil => simp at h
  | cons i q => exact ⟨_, _, rfl⟩

/-! ## The merge loop (R115, R117) -/

/-- One merge: with two nodes left, both extractions find a node, so no merge ever lacks one (R120). -/
theorem mergeLoop_succ (sentinel k : Nat) (nodes : List Node) (q : List Nat) (h : 2 ≤ q.length) :
    ∃ a q1 b q2, extractMin sentinel nodes q = some (a, q1) ∧ extractMin sentinel nodes q1 = some (b, q2) ∧
      mergeLoop sentinel (k + 1) nodes q =
        mergeLoop sentinel k (nodes ++ [mergeNode nodes a b]) (q2 ++ [nodes.length]) := by
  obtain ⟨a, q1, h1⟩ := extractMin_isSome sentinel nodes q (by omega)
  have hl := extractMin_length h1
  obtain ⟨b, q2, h2⟩ := extractMin_isSome sentinel nodes q1 (by omega)
  exact ⟨a, q1, b, q2, h1, h2, by simp [mergeLoop, h1, h2]⟩

/-- The loop runs once for each merge it is allowed: k merges make k nodes (R117). -/
theorem mergeLoop_length (sentinel k : Nat) (nodes : List Node) (q : List Nat) (h : q.length = k + 1) :
    (mergeLoop sentinel k nodes q).length = nodes.length + k := by
  induction k generalizing nodes q with
  | zero => rfl
  | succ k ih =>
    obtain ⟨a, q1, b, q2, h1, h2, heq⟩ := mergeLoop_succ sentinel k nodes q (by omega)
    have hl1 := extractMin_length h1
    have hl2 := extractMin_length h2
    rw [heq, ih _ _ (by simp; omega)]
    simp
    omega

/-- Nodes once made are never changed. -/
theorem mergeLoop_extends (sentinel k : Nat) (nodes : List Node) (q : List Nat) :
    ∃ more, mergeLoop sentinel k nodes q = nodes ++ more := by
  induction k generalizing nodes q with
  | zero => exact ⟨[], by simp [mergeLoop]⟩
  | succ k ih =>
    unfold mergeLoop
    split
    · exact ⟨[], by simp⟩
    · next a q1 _ =>
      split
      · exact ⟨[], by simp⟩
      · next b q2 _ =>
        obtain ⟨more, hm⟩ := ih (nodes ++ [mergeNode nodes a b]) (q2 ++ [nodes.length])
        exact ⟨mergeNode nodes a b :: more, by rw [hm]; simp⟩

/-- NODE_COUNT = 2 * LEAF_COUNT - 1 (R117). -/
theorem mergeAll_length (sentinel : Nat) (leaves : List Node) (h : leaves ≠ []) :
    (mergeAll sentinel leaves).length = 2 * leaves.length - 1 := by
  have hpos : 0 < leaves.length := List.length_pos_of_ne_nil h
  rw [mergeAll, mergeLoop_length _ _ _ _ (by simp; omega)]
  omega

/-! ## Leaves (R111, R112) -/

theorem leavesFrom_length_le (s : Nat) (cs : List Word) : (leavesFrom s cs).length ≤ cs.length := by
  induction cs generalizing s with
  | nil => simp [leavesFrom]
  | cons c cs ih =>
    unfold leavesFrom
    split
    · exact Nat.le_succ_of_le (ih _)
    · simpa using ih _

/-- No leaf is created iff every count is zero (R114). -/
theorem leavesFrom_eq_nil_iff (s : Nat) (cs : List Word) : leavesFrom s cs = [] ↔ ∀ c ∈ cs, c = 0 := by
  induction cs generalizing s with
  | nil => simp [leavesFrom]
  | cons c cs ih =>
    unfold leavesFrom
    split
    · next h => simp [ih, h]
    · next h => exact ⟨fun hn => by simp at hn, fun hn => absurd (hn c (by simp)) h⟩

theorem withSynthetic_ne_nil (l : Node) (ls : List Node) : withSynthetic (l :: ls) ≠ [] := by
  cases ls <;> simp [withSynthetic]

theorem withSynthetic_length (l : Node) (ls : List Node) : 2 ≤ (withSynthetic (l :: ls)).length := by
  cases ls <;> simp [withSynthetic]

/-! ## Tables -/

/-- A table made from a list holds its entries, and `d` above them (D33). -/
theorem tableOfList_get {α : Type} (n : Nat) (d : α) (l : List α) (i : Fin n) :
    (tableOfList n d l).get i = l.getD i.val d := by
  have hi := i.isLt
  show ((l ++ List.replicate n d).take n).toArray[i.val]'(by simp) = _
  simp only [List.getElem_toArray, List.getElem_take, List.getD_eq_getElem?_getD]
  by_cases h : i.val < l.length
  · rw [List.getElem_append_left h, List.getElem?_eq_getElem h]; rfl
  · rw [List.getElem_append_right (by omega), List.getElem?_eq_none (by omega)]
    simp

@[simp] theorem zeroFreq_get (i : Fin 256) : zeroFreq.get i = 0 := by rw [zeroFreq, tableOfList_get]; rfl

@[simp] theorem zeroNodes_get (i : Fin 511) : zeroNodes.get i = zeroNode := by rw [zeroNodes, tableOfList_get]; rfl

@[simp] theorem zeroCodes_get (i : Fin 256) : zeroCodes.get i = zeroCode := by rw [zeroCodes, tableOfList_get]; rfl

end Sys2Proof.Machine
end

