-- ==== Sys2Proof/Laws/Bus.lean ====
section
/-! SUPPORT. What a host transaction and one move do, said once: later proofs cite these case lemmas instead of unfolding the port and the step. -/

namespace Sys2Proof.Machine

/-! ## The address map (R53) -/

/-- A buffer word of a valid configuration lies whole below the capacity (R55). -/
theorem locate_inBuf {c : Config.Caps} {a : HostAddr} {k : Nat} (h : locate c a = some (.inBuf k)) :
    a.toNat = 0x10000 + k ∧ k % 4 = 0 ∧ k < c.inCap := by
  unfold locate at h
  dsimp only at h
  split at h
  · simp at h
  split at h
  · rw [Option.map_eq_some_iff] at h; obtain ⟨_, _, h⟩ := h; simp at h
  split at h
  · simp at h
  split at h
  · simp at h
  split at h
  · simp at h
  split at h
  · simp only [Option.some.injEq, Location.inBuf.injEq] at h; omega
  split at h
  · simp at h
  split at h <;> simp at h

theorem locate_tokBuf {c : Config.Caps} {a : HostAddr} {k : Nat} (h : locate c a = some (.tokBuf k)) :
    a.toNat = 0x40000 + k ∧ k % 4 = 0 ∧ k < c.tokCap := by
  unfold locate at h
  dsimp only at h
  split at h
  · simp at h
  split at h
  · rw [Option.map_eq_some_iff] at h; obtain ⟨_, _, h⟩ := h; simp at h
  split at h
  · simp at h
  split at h
  · simp at h
  split at h
  · simp at h
  split at h
  · simp at h
  split at h
  · simp only [Option.some.injEq, Location.tokBuf.injEq] at h; omega
  split at h <;> simp at h

theorem locate_outBuf {c : Config.Caps} {a : HostAddr} {k : Nat} (h : locate c a = some (.outBuf k)) :
    a.toNat = 0x80000 + k ∧ k % 4 = 0 ∧ k < c.outCap := by
  unfold locate at h
  dsimp only at h
  split at h
  · simp at h
  split at h
  · rw [Option.map_eq_some_iff] at h; obtain ⟨_, _, h⟩ := h; simp at h
  split at h
  · simp at h
  split at h
  · simp at h
  split at h
  · simp at h
  split at h
  · simp at h
  split at h
  · simp at h
  split at h
  · simp only [Option.some.injEq, Location.outBuf.injEq] at h; omega
  · simp at h

/-- The constraints of R10, unpacked. -/
theorem Config.Caps.valid_iff (c : Config.Caps) : c.valid = true ↔
    (c.inCap % 4 = 0 ∧ 4 ≤ c.inCap ∧ c.inCap ≤ 0x30000) ∧
    (c.tokCap % 4 = 0 ∧ 4 ≤ c.tokCap ∧ c.tokCap ≤ 0x40000) ∧
    (c.outCap % 4 = 0 ∧ c.tokCap ≤ c.outCap ∧ c.outCap ≤ 0x80000) := by
  simp [Config.Caps.valid, Config.Caps.inCapOk, Config.Caps.tokCapOk, Config.Caps.outCapOk, and_assoc]

/-! ## Transactions -/

/-- HostRead's ways (R51). -/
theorem hostRead_cases (a : HostAddr) (s : State) :
    (locate s.caps a = none ∧ hostRead a s = ({ data := 0, err := true }, s.flagBusErr)) ∨
    (locate s.caps a = some (.reg .cmd) ∧ hostRead a s = ({ data := 0, err := false }, s)) ∨
    (∃ l, locate s.caps a = some l ∧ l ≠ .reg .cmd ∧ s.busy = true ∧ l.exactWhileBusy = false ∧
      hostRead a s = ({ data := Config.drawWord s.draws, err := false }, { s with draws := s.draws + 1 })) ∨
    (∃ l, locate s.caps a = some l ∧ l ≠ .reg .cmd ∧ (s.busy = false ∨ l.exactWhileBusy = true) ∧
      hostRead a s = ({ data := s.wordAt l, err := false }, { s with draws := s.draws + s.drawsAt l })) := by
  unfold hostRead
  split
  · next h => exact .inl ⟨h, rfl⟩
  · next l h =>
    split
    · next hc => exact .inr (.inl ⟨hc ▸ h, rfl⟩)
    · next hc =>
      split
      · next hb =>
        simp only [Bool.and_eq_true, Bool.not_eq_true'] at hb
        exact .inr (.inr (.inl ⟨l, h, hc, hb.1, hb.2, rfl⟩))
      · next hb =>
        refine .inr (.inr (.inr ⟨l, h, hc, ?_, rfl⟩))
        cases hbusy : s.busy <;> cases hx : l.exactWhileBusy <;> simp_all

/-- A read changes nothing but BUS_ERR, and the draws it took (R51, R62). -/
theorem hostRead_state (a : HostAddr) (s : State) :
    (hostRead a s).2 = { s with
      draws := (hostRead a s).2.draws
      status := { s.status with busErr := (hostRead a s).2.status.busErr } } := by
  rcases hostRead_cases a s with ⟨-, h⟩ | ⟨-, h⟩ | ⟨l, -, -, -, -, h⟩ | ⟨l, -, -, -, h⟩ <;> simp [h, State.flagBusErr]

/-- HostWrite's ways (R52). -/
theorem hostWrite_cases (a : HostAddr) (d : Word) (s : State) :
    (locate s.caps a = none ∧ hostWrite a d s = (true, s.flagBusErr)) ∨
    (∃ l, locate s.caps a = some l ∧ l.readOnly = true ∧ hostWrite a d s = (true, s.flagBusErr)) ∨
    (locate s.caps a = some (.reg .status) ∧ hostWrite a d s = (false, s.clearStatus d)) ∨
    (locate s.caps a = some (.reg .ctrl) ∧ hostWrite a d s = (false, s.writeCtrl d)) ∨
    (∃ l, locate s.caps a = some l ∧ l.readOnly = false ∧ l ≠ .reg .status ∧ l ≠ .reg .ctrl ∧ s.busy = true ∧
      hostWrite a d s = (true, s.flagBusyViol)) ∨
    (locate s.caps a = some (.reg .cmd) ∧ s.busy = false ∧ hostWrite a d s = (false, s.accept d)) ∨
    (∃ l, locate s.caps a = some l ∧ l.readOnly = false ∧ l ≠ .reg .status ∧ l ≠ .reg .ctrl ∧ l ≠ .reg .cmd ∧
      s.busy = false ∧ hostWrite a d s = (false, s.storeWord l d)) := by
  unfold hostWrite
  split
  · next h => exact .inl ⟨h, rfl⟩
  · next l h =>
    split
    · next hr => exact .inr (.inl ⟨l, h, hr, rfl⟩)
    · next hr =>
      have hr' : l.readOnly = false := by simpa using hr
      split
      · next hs => exact .inr (.inr (.inl ⟨hs ▸ h, rfl⟩))
      · next hs =>
        split
        · next hc => exact .inr (.inr (.inr (.inl ⟨hc ▸ h, rfl⟩)))
        · next hc =>
          split
          · next hb => exact .inr (.inr (.inr (.inr (.inl ⟨l, h, hr', hs, hc, hb, rfl⟩))))
          · next hb =>
            have hb' : s.busy = false := by simpa using hb
            split
            · next hm => exact .inr (.inr (.inr (.inr (.inr (.inl ⟨hm ▸ h, hb', rfl⟩)))))
            · next hm => exact .inr (.inr (.inr (.inr (.inr (.inr ⟨l, h, hr', hs, hc, hm, hb', rfl⟩)))))

/-- What a stored word can change (R52): IN_LEN, TOK_LEN, one count, or one word of a buffer. -/
theorem State.storeWord_cases (s : State) (l : Location) (d : Word) :
    (s.storeWord l d = { s with inLen := d }) ∨ (s.storeWord l d = { s with tokLen := d }) ∨
    (∃ y : Fin 256, l = .freq y ∧ s.storeWord l d = { s with freq := s.freq.set y.val d y.isLt }) ∨
    (∃ k, l = .inBuf k ∧ s.storeWord l d = { s with inBuf := s.inBuf.writeList k (lanesOf d) }) ∨
    (∃ k, l = .tokBuf k ∧ s.storeWord l d = { s with tokBuf := s.tokBuf.writeList k (lanesOf d) }) ∨
    (∃ k, l = .outBuf k ∧ s.storeWord l d = { s with outBuf := s.outBuf.writeList k (lanesOf d) }) ∨
    s.storeWord l d = s := by
  cases l with
  | reg r => cases r <;> simp [State.storeWord]
  | freq y => simp [State.storeWord]
  | node i j => simp [State.storeWord]
  | code y j => simp [State.storeWord]
  | inBuf k => simp [State.storeWord]
  | tokBuf k => simp [State.storeWord]
  | outBuf k => simp [State.storeWord]

/-! ## Moves and steps -/

/-- A step is the next move, made on the state without it. -/
theorem step_eq (s : State) : step s = perform s.nextMove s.popped := rfl

/-- The completion step of an accepted word (R83). -/
theorem completeStep_eq (w : Word) (s : State) : completeStep w s =
    .next (match decodeWord w with
      | .ok i => (commandOf i s).finish
      | .error _ => (illegalCommand s).finish) := by
  unfold completeStep
  cases h : decodeWord w with
  | ok i => exact exec_eq i s
  | error e => rfl

/-- What one move does: every move goes on, and these are the ways. -/
theorem perform_cases (m : Move) (s t : State) (h : perform m s = .next t) :
    t = s ∨
    (∃ r rs, m = .request ∧ s.rsp = none ∧ s.requests = r :: rs ∧ t = State.transfer { s with requests := rs } r) ∨
    (∃ r, m = .response ∧ s.rsp = some r ∧ s.hostStalls = false ∧
      t = { s.countAccepted with rsp := none, received := r :: s.received }) ∨
    (∃ w i, m = .completion ∧ s.eng = .busy w ∧ decodeWord w = .ok i ∧ t = (commandOf i s).finish) ∨
    (∃ w e, m = .completion ∧ s.eng = .busy w ∧ decodeWord w = .error e ∧ t = (illegalCommand s).finish) ∨
    (m = .reset ∧ t = s.applyReset) := by
  cases m with
  | request =>
    simp only [perform, Host.Outcome.next.injEq] at h
    unfold State.requestEdge at h
    split at h
    · next r rs h1 h2 => exact .inr (.inl ⟨r, rs, rfl, h1, h2, h.symm⟩)
    · exact .inl h.symm
  | response =>
    simp only [perform, Host.Outcome.next.injEq] at h
    unfold State.responseEdge at h
    split at h
    · next r h1 =>
      split at h
      · exact .inl h.symm
      · next h2 => exact .inr (.inr (.inl ⟨r, rfl, h1, by simpa using h2, h.symm⟩))
    · exact .inl h.symm
  | completion =>
    simp only [perform] at h
    split at h
    · simp only [Host.Outcome.next.injEq] at h; exact .inl h.symm
    · next w hw =>
      rw [completeStep_eq] at h
      simp only [Host.Outcome.next.injEq] at h
      split at h
      · next i hi => exact .inr (.inr (.inr (.inl ⟨w, i, rfl, hw, hi, h.symm⟩)))
      · next e he => exact .inr (.inr (.inr (.inr (.inl ⟨w, e, rfl, hw, he, h.symm⟩))))
  | reset =>
    simp only [perform, Host.Outcome.next.injEq] at h
    exact .inr (.inr (.inr (.inr (.inr ⟨rfl, h.symm⟩))))

/-- Every move goes on. -/
theorem perform_next (m : Move) (s : State) : ∃ t, perform m s = .next t := by
  cases m with
  | request => exact ⟨_, rfl⟩
  | response => exact ⟨_, rfl⟩
  | completion =>
    simp only [perform]
    split
    · exact ⟨_, rfl⟩
    · exact ⟨_, completeStep_eq _ _⟩
  | reset => exact ⟨_, rfl⟩

/-! ## Ports (R72) -/

@[simp] theorem State.rst_iff (s : State) : s.rst = true ↔ s.nextMove = .reset := by simp [State.rst]

theorem State.reqReady_iff (s : State) : s.reqReady = true ↔ s.nextMove = .request ∧ s.rsp = none := by
  simp [State.reqReady]

theorem State.rspReady_iff (s : State) : s.rspReady = true ↔ s.nextMove = .response ∧ s.hostStalls = false := by
  simp [State.rspReady]

@[simp] theorem State.hostStalls_iff (s : State) : s.hostStalls = true ↔ s.accepts = some 0 := by simp [State.hostStalls]

/-- The default move never resets: rst is 0 once the schedule is used up. -/
theorem State.defaultMove_ne_reset (s : State) : s.defaultMove ≠ .reset := by
  unfold State.defaultMove
  split
  · simp
  · split <;> simp

end Sys2Proof.Machine
end

