-- ==== Sys2Proof/Laws/PerInstr.lean ====
section
/-! SUPPORT. Statements made per instruction: the command word of each is legal (R84), its RSVD field is 0 and its OP field is the opcode of R81. -/

namespace Sys2Proof.Laws.LegalWord

/-- The word of an instruction is legal and carries its opcode alone (R80, R84). -/
def Statement (i : Instr) : Prop :=
  i.wellFormed = true ∧ legalWord (Sys2Proof.encode i) = true ∧ rsvdField (Sys2Proof.encode i) = 0 ∧
    opField (Sys2Proof.encode i) = opOfInstr i

theorem nop : Statement .nop := by unfold Statement; decide
theorem count : Statement .count := by unfold Statement; decide
theorem buildTree : Statement .buildTree := by unfold Statement; decide
theorem buildTable : Statement .buildTable := by unfold Statement; decide
theorem encode : Statement .encode := by unfold Statement; decide
theorem decode : Statement .decode := by unfold Statement; decide
theorem compress : Statement .compress := by unfold Statement; decide

end Sys2Proof.Laws.LegalWord
end

