-- ==== Sys2Proof/Tests/Slice0.lean ====
section
/-! SUPPORT. Tests with expected results from spec/ (the worked vectors of 95_test_vectors.md and the layouts of 30_encoding.md), and for each statement with hypotheses a named witness that meets them. -/

namespace Sys2Proof.Tests

open Sys2Proof Sys2Proof.Machine

-- One theorem at a time: each waiting thread counts its whole stack against the memory limit.
set_option Elab.async false

/-! ## WellFormed -/

theorem test_wf_rsvd_refused : legalWord 0x10 = false := by decide
theorem test_wf_reserved_opcode_refused : legalWord 0x7 = false := by decide
theorem test_wf_inCap_refused : ({ inCap := 0x10002, tokCap := 4, outCap := 4 } : Config.Caps).inCapOk = false ∧
    ({ inCap := 0, tokCap := 4, outCap := 4 } : Config.Caps).inCapOk = false ∧
    ({ inCap := 0x30004, tokCap := 4, outCap := 4 } : Config.Caps).inCapOk = false := by decide
theorem test_wf_tokCap_refused : ({ inCap := 4, tokCap := 6, outCap := 8 } : Config.Caps).tokCapOk = false ∧
    ({ inCap := 4, tokCap := 0, outCap := 8 } : Config.Caps).tokCapOk = false ∧
    ({ inCap := 4, tokCap := 0x40004, outCap := 0x40004 } : Config.Caps).tokCapOk = false := by decide
theorem test_wf_outCap_refused : ({ inCap := 4, tokCap := 8, outCap := 4 } : Config.Caps).outCapOk = false ∧
    ({ inCap := 4, tokCap := 8, outCap := 10 } : Config.Caps).outCapOk = false ∧
    ({ inCap := 4, tokCap := 8, outCap := 0x80004 } : Config.Caps).outCapOk = false := by decide
theorem test_wf_extremes_accepted : ({ inCap := 4, tokCap := 4, outCap := 4 } : Config.Caps).valid = true ∧
    ({ inCap := 0x30000, tokCap := 0x40000, outCap := 0x80000 } : Config.Caps).valid = true := by decide

/-! ## Decoding: RSVD above OP, from the table of R81 -/

theorem test_decode_nop : decodeTableWord 32 0b0000 = some .nop := by decide
theorem test_decode_count : decodeTableWord 32 0b0001 = some .count := by decide
theorem test_decode_buildTree : decodeTableWord 32 0b0010 = some .buildTree := by decide
theorem test_decode_buildTable : decodeTableWord 32 0b0011 = some .buildTable := by decide
theorem test_decode_encode : decodeTableWord 32 0b0100 = some .encode := by decide
theorem test_decode_decode : decodeTableWord 32 0b0101 = some .decode := by decide
theorem test_decode_compress : decodeTableWord 32 0b0110 = some .compress := by decide
/-- R84's illegal words: 0x7, 0xF, 0x10 and 0x80000001. -/
theorem test_decode_illegal : decodeWord 0x7 = .error .reservedOpcode ∧ decodeWord 0xF = .error .reservedOpcode ∧
    decodeWord 0x10 = .error .reservedBits ∧ decodeWord 0x80000001 = .error .reservedBits := by
  simp only [decodeWord]; decide

/-! ## Small states -/

/-- A buffer with these elements from index 0. -/
def buf (l : List Nat) : Memory := Memory.writeList [] 0 (l.map (BitVec.ofNat 8))

/-- FREQ with these first counts. -/
def freqOf (l : List Word) : FreqTable := tableOfList 256 0 l

/-- A state whose input is these bytes. -/
def input (l : List Nat) : State := { State.reset with inBuf := buf l, inLen := BitVec.ofNat 32 l.length }

/-- After `exec`, does the next state meet `p`? -/
def after (o : Host.Outcome State Fault Refusal) (p : State → Bool) : Bool :=
  match o with
  | .next t => p t
  | .fault _ => false
  | .refused _ => false

/-- The counts of TB-5's shape, 1, 1 and 2, at symbols 0, 1 and 2. -/
def freq3 : FreqTable := freqOf [1, 1, 2]

/-- The reset state with those counts. -/
def s3 : State := { State.reset with freq := freq3 }

/-- The state BUILD_TREE leaves there. -/
def built3 : State := (buildTreeBody s3).finish

/-- The tree of those counts, held in an otherwise reset state. -/
def tree3 : State := State.reset.installTree (treeOf freq3)

/-- The same with its code table. -/
def table3 : State := { tree3 with code := codeTableOf tree3.node tree3.root }

/-- `table3` with these input bytes. -/
def table3In (l : List Nat) : State := { table3 with inBuf := buf l, inLen := BitVec.ofNat 32 l.length }

/-- `tree3` with these stream tokens. -/
def tree3Tok (l : List Nat) : State := { tree3 with tokBuf := buf l, tokLen := BitVec.ofNat 32 l.length }

/-- The engine busy with a command word, its completion next. -/
def busyWith (w : Word) : State := { State.reset with eng := .busy w, schedule := [.completion] }

/-! ## One step of each command -/

/-- R165: NOP completes with STATUS 0x002. -/
theorem test_nop_completes : after (step (State.reset.withFetchWord 32 0)) (fun t => t.statusWord == 0x002 && t.errCode == .none) = true := by
  decide +kernel

/-- FA-1: the counts of "abcdeffg". -/
theorem test_count_fa1 : after (exec .count (input [0x61, 0x62, 0x63, 0x64, 0x65, 0x66, 0x66, 0x67])) (fun t =>
    t.statusWord == 0x002 && t.freq.get 0x61 == 1 && t.freq.get 0x66 == 2 && t.freq.get 0x67 == 1 && t.freq.get 0x68 == 0) = true := by
  decide +kernel

/-- FA-3: IN_LEN = IN_CAP + 1 gives STATUS 0x006, ERRCODE 6, ERRPOS 0. -/
theorem test_count_fa3 : after (exec .count { State.reset with inLen := 0x10001 }) (fun t =>
    t.statusWord == 0x006 && t.errCodeWord == 6 && t.errPos == 0) = true := by
  decide +kernel

/-- The shape of TB-5: 1, 1, 2. With SENTINEL = 0 the tie at weight 2 goes to the internal node N3, so the root is (N3, N2). -/
theorem test_buildTree_tb5 : after (exec .buildTree s3) (fun t =>
    t.statusWord == 0x00A && t.root == 4 && t.nodeCount == 5 && t.leafCount == 3 && t.rootWeight == 4 &&
    (t.node.get 3).word 2 == 0x00010000 && (t.node.get 4).word 2 == 0x00020003 && (t.node.get 4).word 3 == 0x80000000) = true := by
  decide +kernel

/-- R112, R115: with one non-zero count, at symbol 0 and equal to 1, the real leaf is on the left. -/
theorem test_buildTree_collide : after (exec .buildTree { State.reset with freq := freqOf [1] }) (fun t =>
    t.statusWord == 0x03A && t.root == 2 && (t.node.get 1).word 3 == 0x100 && (t.node.get 2).word 2 == 0x00010000) = true := by
  decide +kernel

/-- The codes of that tree: "00", "01" and "1". -/
theorem test_buildTable_codes : after (exec .buildTable built3) (fun t =>
    t.statusWord == 0x00A && (t.code.get 0).word 0 == 0x102 && (t.code.get 0).word 1 == 0 &&
    (t.code.get 1).word 0 == 0x102 && (t.code.get 1).word 1 == 0x2 && (t.code.get 2).word 0 == 0x101 &&
    (t.code.get 2).word 1 == 0x1 && (t.code.get 3).word 0 == 0) = true := by
  decide +kernel

/-- R133: without a tree the table is all-invalid and the command succeeds. -/
theorem test_buildTable_absent : after (exec .buildTable State.reset) (fun t => t.statusWord == 0x002 && !(t.code.get 0).valid) = true := by
  decide +kernel

/-- The stream of 2, 0, 1 is "10001". -/
theorem test_encode_stream : after (exec .encode (table3In [2, 0, 1])) (fun t =>
    t.statusWord == 0x00A && t.tokLen == 5 && t.tokBuf == buf [0x31, 0x30, 0x30, 0x30, 0x31]) = true := by
  decide +kernel

/-- R141: a byte without an entry ends ENCODE at its index; the tokens before it stay (R146). -/
theorem test_encode_missing : after (exec .encode (table3In [2, 9])) (fun t =>
    t.statusWord == 0x00E && t.errCodeWord == 4 && t.errPos == 1 && t.tokLen == 0 && t.tokBuf == buf [0x31]) = true := by
  decide +kernel

/-- Decoding "10001" gives 2, 0, 1. -/
theorem test_decode_stream : after (exec .decode (tree3Tok [0x31, 0x30, 0x30, 0x30, 0x31])) (fun t =>
    t.statusWord == 0x00A && t.outLen == 3 && t.outBuf == buf [2, 0, 1]) = true := by
  decide +kernel

/-- R151, R154: an 'x' is reported at its own index; a stream that ends inside a code at the code's first token. -/
theorem test_decode_errors :
    after (exec .decode (tree3Tok [0x31, 0x78, 0x31])) (fun t =>
      t.statusWord == 0x00E && t.errCodeWord == 2 && t.errPos == 1 && t.outLen == 0 && t.outBuf == buf [2]) = true ∧
    after (exec .decode (tree3Tok [0x31, 0x30])) (fun t =>
      t.statusWord == 0x00E && t.errCodeWord == 3 && t.errPos == 1 && t.outLen == 0) = true := by
  decide +kernel

/-- S-4: "aaaa" gives STATUS 0x01A, LEAF_COUNT 2, the code "1" and the stream "1111". -/
theorem test_compress_aaaa : after (exec .compress (input [0x61, 0x61, 0x61, 0x61])) (fun t =>
    t.statusWord == 0x01A && t.leafCount == 2 && t.root == 2 && t.rootWeight == 5 && (t.code.get 0x61).word 0 == 0x101 &&
    (t.code.get 0x61).word 1 == 1 && t.tokLen == 4 && t.tokBuf == buf [0x31, 0x31, 0x31, 0x31]) = true := by
  decide +kernel

/-- S-5: the empty input gives STATUS 0x002 and TOK_LEN 0. -/
theorem test_compress_empty : after (exec .compress State.reset) (fun t =>
    t.statusWord == 0x002 && t.tokLen == 0 && t.root == 0 && t.tokBuf == []) = true := by
  decide +kernel

/-- R84: an accepted reserved word gives STATUS 0x006, ERRCODE 1, ERRPOS 0. -/
theorem test_illegal_word : after (step (State.reset.withFetchWord 32 0x10)) (fun t =>
    t.statusWord == 0x006 && t.errCodeWord == 1 && t.errPos == 0 && t.eng == .idle) = true := by
  decide +kernel

/-! ## The port -/

/-- R56: IN_BUF word 0x64636261 is "abcd" in increasing index. -/
theorem test_bus_little_endian : (hostWrite 0x10000 0x64636261 State.reset).2.inBuf = buf [0x61, 0x62, 0x63, 0x64] := by
  decide +kernel

/-- R63: an IN_LEN write while busy is dropped, with err 1 and STATUS 0x101. -/
theorem test_bus_busy_write : (hostWrite 0x24 5 (busyWith 0)).1 = true ∧ (hostWrite 0x24 5 (busyWith 0)).2.inLen = 0 ∧
    (hostWrite 0x24 5 (busyWith 0)).2.statusWord = 0x101 := by
  decide +kernel

/-- R58, R59: a misaligned and an unmapped read give data 0, err 1 and STATUS 0x200. -/
theorem test_bus_errors : (hostRead 0x11 State.reset).1 = { data := 0, err := true } ∧
    (hostRead 0x44 State.reset).1 = { data := 0, err := true } ∧ (hostRead 0x44 State.reset).2.statusWord = 0x200 := by
  decide +kernel

/-- R28: writing 0x202 to STATUS clears DONE and BUS_ERR alone. -/
theorem test_bus_status_clear : (hostWrite 0x18 0x202
    { State.reset with status := { Status.reset with done := true, err := true, busErr := true, busyViol := true } }).2.statusWord = 0x104 := by
  decide +kernel

/-- R74, R210: a response outstanding at a reset is lost; R73: no request transfers while one is outstanding. -/
theorem test_port_moves :
    after (step { State.reset with rsp := some { data := 1, err := false }, schedule := [.reset] }) (fun t => !t.rspValid) = true ∧
    after (step { State.reset with rsp := some { data := 1, err := false }, requests := [.read 0], schedule := [.request] })
      (fun t => t.rspValid && t.rspRdata == some 1 && t.reqValid) = true := by
  decide +kernel

/-- R210: req_ready = 0 while rst = 1, also between two reset edges; R212: at the first edge with rst = 0 a request can transfer. -/
theorem test_port_rst :
    after (step { State.reset with requests := [.read 0], schedule := [.reset, .reset] }) (fun t => t.rst && !t.reqReady && t.reqValid) = true ∧
    after (step { State.reset with requests := [.read 0], schedule := [.reset] }) (fun t => !t.rst && t.reqReady) = true := by
  decide +kernel

/-- U18: a host that takes no response stalls the port. -/
theorem test_port_stuck : after (step { State.reset with
    accepts := some 0, rsp := some { data := 1, err := false }, requests := [.read 0], schedule := [.response] })
    (fun t => t.rspValid && !t.reqReady && t.received == [] && t.requests == [.read 0]) = true := by
  decide +kernel

/-! ## The tree of 1, 1, 2, computed once for the witnesses -/

/-- Its nodes: the leaves of symbols 0, 1, 2 in order, then the two merges. -/
def nodes3 : List Node :=
  [leafNode 0 1, leafNode 1 1, leafNode 2 2,
   { zeroNode with isInternal := true, weight := 2, left := 0, right := 1 },
   { zeroNode with isInternal := true, weight := 4, left := 3, right := 2 }]

theorem test_tree3_leaves : leavesFrom 0 freq3.toList = [leafNode 0 1, leafNode 1 1, leafNode 2 2] := by decide +kernel

theorem test_tree3_nodes : mergeAll Config.sentinel [leafNode 0 1, leafNode 1 1, leafNode 2 2] = nodes3 := by decide +kernel

theorem test_tree3 : treeOf freq3 =
    { node := tableOfList 511 zeroNode nodes3, root := 4, nodeCount := 5, leafCount := 3,
      present := true, synthPresent := false, synthCollide := false } := by
  rw [treeOf, test_tree3_leaves, treeOfLeaves, withSynthetic]
  · rw [test_tree3_nodes]; rfl
  · intro l h; cases h

theorem test_tree3_get (i : Fin 511) : tree3.node.get i = nodes3.getD i.val zeroNode := by
  show (treeOf freq3).node.get i = _
  rw [test_tree3, tableOfList_get]

theorem test_tree3_counts : tree3.nodeCount = 5 ∧ tree3.leafCount = 3 ∧ tree3.root = 4 ∧ tree3.status.treePresent = true ∧
    tree3.status.synthPresent = false ∧ tree3.status.synthCollide = false := by
  simp only [tree3, test_tree3]; decide

theorem test_tree3_inTree {i : Fin 511} (h : tree3.inTree i) : i = 0 ∨ i = 1 ∨ i = 2 ∨ i = 3 ∨ i = 4 := by
  simp only [State.inTree, test_tree3_counts.1] at h
  have : i.val < 5 := h
  omega

theorem test_tree3_inner {i : Fin 511} : tree3.isInner i ↔ i = 3 ∨ i = 4 := by
  constructor
  · rintro ⟨h, h'⟩
    rcases test_tree3_inTree h with rfl | rfl | rfl | rfl | rfl <;> simp [test_tree3_get, nodes3, leafNode, zeroNode] at h' ⊢
  · rintro (rfl | rfl) <;>
      exact ⟨by simp only [State.inTree, test_tree3_counts.1]; decide, by rw [test_tree3_get]; decide⟩

theorem test_tree3_leaf {i : Fin 511} : tree3.isLeaf i ↔ i = 0 ∨ i = 1 ∨ i = 2 := by
  constructor
  · rintro ⟨h, h'⟩
    rcases test_tree3_inTree h with rfl | rfl | rfl | rfl | rfl <;> simp [test_tree3_get, nodes3, leafNode, zeroNode] at h' ⊢
  · rintro (rfl | rfl | rfl) <;>
      exact ⟨by simp only [State.inTree, test_tree3_counts.1]; decide, by rw [test_tree3_get]; decide⟩

theorem test_tree3_invariant : TreeInvariant tree3 := by
  obtain ⟨hn, hl, hr, hp, hs, hc⟩ := test_tree3_counts
  refine ⟨fun _ => ?_, fun h => by rw [hp] at h; cases h⟩
  refine
    { counts := by rw [hn, hl]; decide
      rootLast := by rw [hn, hr, test_tree3_get]; decide
      childrenBelow := ?_, oneParent := ?_, leavesFirst := ?_, synthOnce := ?_, realDistinct := ?_, restZero := ?_, unusedZero := ?_, weights := ?_ }
  · intro i hi
    rcases test_tree3_inner.mp hi with rfl | rfl <;> rw [test_tree3_get] <;> decide
  · intro j hj hjr
    rw [hr] at hjr
    have key : ∀ p : Fin 511, (p = 3 ∨ p = 4) → ((tree3.node.get p).left = j ∨ (tree3.node.get p).right = j) →
        (∀ q : Fin 511, (q = 3 ∨ q = 4) → ((tree3.node.get q).left = j ∨ (tree3.node.get q).right = j) → q = p) →
        ∃ i, (tree3.isInner i ∧ ((tree3.node.get i).left = j ∨ (tree3.node.get i).right = j)) ∧
          ∀ i', tree3.isInner i' → ((tree3.node.get i').left = j ∨ (tree3.node.get i').right = j) → i' = i :=
      fun p hp h hu => ⟨p, ⟨test_tree3_inner.mpr hp, h⟩, fun q hq => hu q (test_tree3_inner.mp hq)⟩
    rcases test_tree3_inTree hj with rfl | rfl | rfl | rfl | rfl
    · refine key 3 (.inl rfl) (by rw [test_tree3_get]; decide) ?_
      rintro q (rfl | rfl) <;> rw [test_tree3_get] <;> decide
    · refine key 3 (.inl rfl) (by rw [test_tree3_get]; decide) ?_
      rintro q (rfl | rfl) <;> rw [test_tree3_get] <;> decide
    · refine key 4 (.inr rfl) (by rw [test_tree3_get]; decide) ?_
      rintro q (rfl | rfl) <;> rw [test_tree3_get] <;> decide
    · refine key 4 (.inr rfl) (by rw [test_tree3_get]; decide) ?_
      rintro q (rfl | rfl) <;> rw [test_tree3_get] <;> decide
    · exact absurd rfl hjr
  · intro i hi
    rw [hl]
    rcases test_tree3_inTree hi with rfl | rfl | rfl | rfl | rfl <;> rw [test_tree3_get] <;> decide
  · have none : ∀ i, tree3.isLeaf i → (tree3.node.get i).synth = false := by
      intro i hi
      rcases test_tree3_leaf.mp hi with rfl | rfl | rfl <;> rw [test_tree3_get] <;> decide
    refine ⟨fun i j hi _ h _ => ?_, ?_⟩
    · rw [none i hi] at h; cases h
    · rw [hs]
      refine ⟨?_, fun h => by cases h⟩
      rintro ⟨i, hi, h⟩
      rw [none i hi] at h
      exact h
  · intro i j hi hj _ _
    rcases test_tree3_leaf.mp hi with rfl | rfl | rfl <;> rcases test_tree3_leaf.mp hj with rfl | rfl | rfl <;>
      simp only [test_tree3_get] <;> decide
  · intro i hi
    have hi' : 5 ≤ i.val := by
      simp only [State.inTree, hn] at hi
      exact Nat.le_of_not_lt hi
    rw [test_tree3_get, List.getD_eq_getElem?_getD, List.getElem?_eq_none (by simpa [nodes3] using hi')]
    rfl
  · refine ⟨fun i hi => ?_, fun i hi => ?_⟩
    · rcases test_tree3_inner.mp hi with rfl | rfl <;> rw [test_tree3_get] <;> decide
    · rcases test_tree3_leaf.mp hi with rfl | rfl | rfl <;> rw [test_tree3_get] <;> decide
  · intro i hi
    rcases test_tree3_inner.mp hi with rfl | rfl <;> rw [test_tree3_get, test_tree3_get, test_tree3_get] <;> decide

theorem test_installTree_built (s : State) (f : FreqTable) : TreeBuilt (s.installTree (treeOf f)) := ⟨f, rfl⟩

theorem test_tree3_built : TreeBuilt tree3 := test_installTree_built State.reset freq3

theorem test_table_of_tree (s : State) (h : s.status.treePresent = true) :
    CodeTableInvariant { s with code := codeTableOf s.node s.root } := .inr ⟨h, rfl⟩

theorem test_tree_with_table (s : State) (c : CodeTable) (h : TreeInvariant s) : TreeInvariant { s with code := c } :=
  ⟨fun hp =>
    let t := h.1 hp
    { counts := t.counts, rootLast := t.rootLast, childrenBelow := t.childrenBelow, oneParent := t.oneParent
      leavesFirst := t.leavesFirst, synthOnce := t.synthOnce, realDistinct := t.realDistinct
      restZero := t.restZero, unusedZero := t.unusedZero, weights := t.weights },
   fun hp => h.2 hp⟩

theorem test_table3_tree : TreeInvariant table3 := test_tree_with_table tree3 _ test_tree3_invariant

theorem test_table3_code : CodeTableInvariant table3 := test_table_of_tree tree3 test_tree3_counts.2.2.2.1

theorem test_table3_block : BlockInvariant table3 :=
  { caps := by decide
    buffers := by unfold BufferInvariant; decide
    report := by unfold ReportInvariant; decide
    tree := test_table3_tree
    code := test_table3_code }

/-! ## The colliding tree of one zero byte: both leaves have symbol 0 (R132, R152) -/

/-- Its nodes: the real leaf, the synthetic leaf, the root. -/
def nodes1 : List Node :=
  [leafNode 0 1, synthLeaf, { zeroNode with isInternal := true, weight := 2, left := 0, right := 1 }]

/-- The tree, held in an otherwise reset state. -/
def tree1 : State := State.reset.installTree (treeOf (freqOf [1]))

theorem test_tree1_leaves : leavesFrom 0 (freqOf [1]).toList = [leafNode 0 1] := by decide +kernel

theorem test_tree1_nodes : mergeAll Config.sentinel [leafNode 0 1, synthLeaf] = nodes1 := by decide +kernel

theorem test_tree1 : treeOf (freqOf [1]) =
    { node := tableOfList 511 zeroNode nodes1, root := 2, nodeCount := 3, leafCount := 2,
      present := true, synthPresent := true, synthCollide := true } := by
  rw [treeOf, test_tree1_leaves, treeOfLeaves, withSynthetic, test_tree1_nodes]
  rfl

theorem test_tree1_get (i : Fin 511) : tree1.node.get i = nodes1.getD i.val zeroNode := by
  show (treeOf (freqOf [1])).node.get i = _
  rw [test_tree1, tableOfList_get]

theorem test_tree1_counts : tree1.nodeCount = 3 ∧ tree1.leafCount = 2 ∧ tree1.root = 2 ∧ tree1.status.treePresent = true ∧
    tree1.status.synthPresent = true := by
  simp only [tree1, test_tree1]; decide

theorem test_tree1_inTree {i : Fin 511} : tree1.inTree i ↔ i = 0 ∨ i = 1 ∨ i = 2 := by
  simp only [State.inTree, test_tree1_counts.1]
  constructor
  · intro h
    have : i.val < 3 := h
    omega
  · rintro (rfl | rfl | rfl) <;> decide

theorem test_tree1_inner {i : Fin 511} : tree1.isInner i ↔ i = 2 := by
  constructor
  · rintro ⟨h, h'⟩
    rcases test_tree1_inTree.mp h with rfl | rfl | rfl <;> simp [test_tree1_get, nodes1, leafNode, synthLeaf, zeroNode] at h' ⊢
  · rintro rfl
    exact ⟨test_tree1_inTree.mpr (by decide), by rw [test_tree1_get]; decide⟩

theorem test_tree1_leaf {i : Fin 511} : tree1.isLeaf i ↔ i = 0 ∨ i = 1 := by
  constructor
  · rintro ⟨h, h'⟩
    rcases test_tree1_inTree.mp h with rfl | rfl | rfl <;> simp [test_tree1_get, nodes1, zeroNode] at h' ⊢
  · rintro (rfl | rfl) <;> exact ⟨test_tree1_inTree.mpr (by decide), by rw [test_tree1_get]; decide⟩

theorem test_tree1_invariant : TreeInvariant tree1 := by
  obtain ⟨hn, hl, hr, hp, hs⟩ := test_tree1_counts
  have parent : ∀ j, ((tree1.node.get 2).left = j ∨ (tree1.node.get 2).right = j) →
      ∃ i, (tree1.isInner i ∧ ((tree1.node.get i).left = j ∨ (tree1.node.get i).right = j)) ∧
        ∀ i', tree1.isInner i' → ((tree1.node.get i').left = j ∨ (tree1.node.get i').right = j) → i' = i :=
    fun j h => ⟨2, ⟨test_tree1_inner.mpr rfl, h⟩, fun q hq _ => test_tree1_inner.mp hq⟩
  refine ⟨fun _ => ?_, fun h => by rw [hp] at h; cases h⟩
  refine
    { counts := by rw [hn, hl]; decide
      rootLast := by rw [hn, hr, test_tree1_get]; decide
      childrenBelow := ?_, oneParent := ?_, leavesFirst := ?_, synthOnce := ?_, realDistinct := ?_, restZero := ?_, unusedZero := ?_, weights := ?_ }
  · intro i hi
    rw [test_tree1_inner.mp hi, test_tree1_get]; decide
  · intro j hj hjr
    rw [hr] at hjr
    rcases test_tree1_inTree.mp hj with rfl | rfl | rfl
    · exact parent 0 (by rw [test_tree1_get]; decide)
    · exact parent 1 (by rw [test_tree1_get]; decide)
    · exact absurd rfl hjr
  · intro i hi
    rw [hl]
    rcases test_tree1_inTree.mp hi with rfl | rfl | rfl <;> rw [test_tree1_get] <;> decide
  · refine ⟨?_, ?_⟩
    · intro i j hi hj
      rcases test_tree1_leaf.mp hi with rfl | rfl <;> rcases test_tree1_leaf.mp hj with rfl | rfl <;>
        simp only [test_tree1_get] <;> decide
    · rw [hs]
      exact ⟨fun _ => rfl, fun _ => ⟨1, test_tree1_leaf.mpr (.inr rfl), by rw [test_tree1_get]; decide⟩⟩
  · intro i j hi hj
    rcases test_tree1_leaf.mp hi with rfl | rfl <;> rcases test_tree1_leaf.mp hj with rfl | rfl <;>
      simp only [test_tree1_get] <;> decide
  · intro i hi
    have hi' : 3 ≤ i.val := by
      simp only [State.inTree, hn] at hi
      exact Nat.le_of_not_lt hi
    rw [test_tree1_get, List.getD_eq_getElem?_getD, List.getElem?_eq_none (by simpa [nodes1] using hi')]
    rfl
  · refine ⟨fun i hi => ?_, fun i hi => ?_⟩
    · rw [test_tree1_inner.mp hi, test_tree1_get]; decide
    · rcases test_tree1_leaf.mp hi with rfl | rfl <;> rw [test_tree1_get] <;> decide
  · intro i hi
    rw [test_tree1_inner.mp hi, test_tree1_get, test_tree1_get, test_tree1_get]; decide

/-- `tree1` with the stream "10", which passes through the synthetic leaf, whose path CODE does not hold, and then the real one. -/
def tree1Tok : State := { tree1 with tokBuf := buf [0x31, 0x30], tokLen := 2 }

/-- R152: both leaves of a colliding tree emit 0x00. -/
theorem test_decode_colliding : after (exec .decode tree1Tok) (fun t => !t.status.err && t.outLen == 2 && t.outBuf == buf [0, 0]) = true := by
  decide +kernel

/-! ## Witnesses: for each statement with hypotheses, a concrete state and operands that meet them -/

/-- `exec` always answers a next state, so a hypothesis `exec i s = .next t` is met by some `t` for every `s`. -/
theorem test_exec_next (i : Instr) (s : State) : ∃ t, exec i s = .next t := ⟨_, exec_eq i s⟩

/-- DecodeIsTheOpcodeMap: a word of each clause, at the ends of the ranges. -/
theorem test_hyp_DecodeIsTheOpcodeMap : (0x10 : Word).toNat / 16 ≠ 0 ∧ (0xFFFFFFFF : Word).toNat / 16 ≠ 0 ∧
    ((0xF : Word).toNat / 16 = 0 ∧ 7 ≤ (0xF : Word).toNat % 16) ∧ ((7 : Word).toNat / 16 = 0 ∧ 7 ≤ (7 : Word).toNat % 16) ∧
    (6 : Word).toNat / 16 = 0 ∧ (6 : Word).toNat % 16 = 6 ∧ (0 : Word).toNat % 16 = 0 := by decide

theorem test_hyp_StepRunsTheDecodedCommand :
    ((busyWith 1).eng = .busy 1 ∧ decodeTableWord 32 1 = some .count ∧ (busyWith 1).schedule = .completion :: []) ∧
    ({ busyWith 6 with schedule := [] }.eng = .busy 6 ∧ { busyWith 6 with schedule := [] }.schedule = []) ∧
    (decodeWord 1 = .ok .count ∧ decodeWord 6 = .ok .compress) ∧ 6 < 2 ^ 32 ∧ decodeTableWord 32 6 = some .compress := by
  refine ⟨by decide, by decide, ⟨rfl, rfl⟩, by decide, by decide⟩

theorem test_hyp_AcceptanceLatchesTheWord : State.reset.eng = .idle := by decide

/-- ReservedWordIsReported: both kinds of reserved word, by the schedule and by the default. -/
theorem test_hyp_ReservedWordIsReported :
    ((busyWith 7).eng = .busy 7 ∧ (busyWith 7).schedule = .completion :: [] ∧ 7 ≤ (7 : Word).toNat % 16) ∧
    ({ busyWith 0x10 with schedule := [] }.eng = .busy 0x10 ∧ { busyWith 0x10 with schedule := [] }.schedule = [] ∧
      (0x10 : Word).toNat / 16 ≠ 0) := by decide

/-- The reset state with a response outstanding, before the next move `m`, with a host that takes `n` more responses. -/
def offering (m : Move) (n : Option Nat) : State :=
  { State.reset with rsp := some { data := 0, err := false }, schedule := [m], accepts := n }

/-- The reset state with a request waiting, before the next move `m`. -/
def waiting (m : Move) (r : Request) : State := { State.reset with requests := [r], schedule := [m] }

/-- PortTransfersOneAtATime: a read and a write waiting with no response outstanding; one outstanding; a response to give to a host that takes all, and one that takes one more; a host that takes none; rst = 1. -/
theorem test_hyp_PortTransfersOneAtATime :
    ((waiting .request (.read 0)).rsp = none ∧ (waiting .request (.write 0x24 1)).rsp = none) ∧
    (waiting .request (.read 0)).reqReady = true ∧ (waiting .request (.read 0)).reqValid = true ∧
    (offering .request none).rsp ≠ none ∧
    ((offering .response none).schedule = .response :: [] ∧ (offering .response none).accepts = none) ∧
    (offering .response (some 1)).accepts = some (0 + 1) ∧
    ((offering .response (some 0)).accepts = some 0 ∧ (offering .response (some 0)).rsp = some { data := 0, err := false } ∧
      (offering .response (some 0)).rst = false) ∧
    (offering .reset none).rst = true ∧ (offering .response none).rspReady = true := by decide

/-- PortTransfersOneAtATime: the stalled host's step is one. -/
theorem test_hyp_PortTransfersOneAtATime_stuck : ∃ t, step (offering .response (some 0)) = .next t := ⟨_, rfl⟩

/-- CountGivesTheCounts: IN_LEN = 3 with written input, and IN_LEN = IN_CAP. -/
theorem test_hyp_CountGivesTheCounts : ((input [1, 2, 1]).caps.valid = true ∧ (input [1, 2, 1]).inLen.toNat ≤ (input [1, 2, 1]).caps.inCap) ∧
    ({ State.reset with inLen := 0x10000 }.caps.valid = true ∧
      { State.reset with inLen := 0x10000 }.inLen.toNat ≤ { State.reset with inLen := 0x10000 }.caps.inCap) := by decide

theorem test_hyp_InputAndStreamAreTheBuffers :
    (2 < (input [5, 6, 7]).inLen.toNat ∧ (input [5, 6, 7]).inBuf.read 2 = some 7) ∧
    (1 < (tree3Tok [0x30, 0x31]).tokLen.toNat ∧ (tree3Tok [0x30, 0x31]).tokBuf.read 1 = some 0x31) := by decide

theorem test_hyp_LongInputIsRejected : { State.reset with inLen := 0x10001 }.caps.inCap < { State.reset with inLen := 0x10001 }.inLen.toNat := by decide

theorem test_hyp_EmptyOperandsSucceed : table3.inLen = 0 ∧ tree3.tokLen = 0 := by decide

theorem test_hyp_AllZeroCountsGiveTheAbsentTree : ∀ y, State.reset.freq.get y = 0 := fun y => by
  rw [show State.reset.freq = zeroFreq from rfl, zeroFreq_get]

theorem test_hyp_BuildTreeWritesOnlyTheTreeOfFreq : ∃ t t', s3.freq = { s3 with inLen := 1 }.freq ∧
    exec .buildTree s3 = .next t ∧ exec .buildTree { s3 with inLen := 1 } = .next t' := ⟨_, _, rfl, rfl, rfl⟩

/-- The state BUILD_TREE leaves holds the nodes of `tree3`. -/
theorem test_exec_built3 : exec .buildTree s3 = .next built3 := rfl

theorem test_built3_node : built3.node = tree3.node ∧ built3.nodeCount = tree3.nodeCount ∧
    built3.status.treePresent = tree3.status.treePresent := ⟨rfl, rfl, rfl⟩

theorem test_built3_inner {i : Fin 511} : built3.isInner i ↔ i = 3 ∨ i = 4 := test_tree3_inner (i := i)

theorem test_built3_leaf {i : Fin 511} : built3.isLeaf i ↔ i = 0 ∨ i = 1 ∨ i = 2 := test_tree3_leaf (i := i)

/-- LeavesInSymbolOrder: a symbol with a non-zero count, and a non-synthetic leaf, the last one. -/
theorem test_hyp_LeavesInSymbolOrder : exec .buildTree s3 = .next built3 ∧ s3.freq.get 2 ≠ 0 ∧ built3.isLeaf 2 ∧
    (built3.node.get 2).synth = false :=
  ⟨rfl, by decide +kernel, test_built3_leaf.mpr (by decide), by rw [test_built3_node.1, test_tree3_get]; decide⟩

/-- OneSymbolGetsTheSyntheticLeaf: symbol 0 with count 1, and symbol 1 with count 4. -/
theorem test_hyp_OneSymbolGetsTheSyntheticLeaf :
    ((freqOf [1]).get 0 = 1 ∧ ∀ y, y ≠ 0 → (freqOf [1]).get y = 0) ∧
    ((freqOf [0, 4]).get 1 = 4 ∧ ∀ y, y ≠ 1 → (freqOf [0, 4]).get y = 0) := by
  refine ⟨⟨by rw [freqOf, tableOfList_get]; rfl, fun y h => ?_⟩, ⟨by rw [freqOf, tableOfList_get]; rfl, fun y h => ?_⟩⟩ <;>
    rw [freqOf, tableOfList_get, List.getD_eq_getElem?_getD]
  · rw [List.getElem?_eq_none]
    · rfl
    · have : y.val ≠ 0 := fun h' => h (Fin.ext h')
      simp only [List.length_cons, List.length_nil]
      omega
  · have h1 : y.val ≠ 1 := fun h' => h (Fin.ext h')
    by_cases h0 : y.val = 0
    · rw [h0]; rfl
    · rw [List.getElem?_eq_none]
      · rfl
      · simp only [List.length_cons, List.length_nil]
        omega

/-- MergesTakeTheTwoLeastKeys: at the first merge, the right child and a node that stays; and at the root. -/
theorem test_hyp_MergesTakeTheTwoLeastKeys : exec .buildTree s3 = .next built3 ∧ built3.isInner 3 ∧
    built3.unmergedAt 3 1 ∧ built3.unmergedAt 3 2 ∧
    1 ≠ (built3.node.get 3).left ∧ 2 ≠ (built3.node.get 3).left ∧ 2 ≠ (built3.node.get 3).right ∧ built3.isInner 4 := by
  have early : ∀ i, built3.isInner i → ¬ i < 3 := by
    intro i hi
    rcases test_built3_inner.mp hi with rfl | rfl <;> decide
  refine ⟨rfl, test_built3_inner.mpr (by decide), ⟨by decide, fun i hi h => absurd h (early i hi)⟩,
    ⟨by decide, fun i hi h => absurd h (early i hi)⟩, ?_, ?_, ?_, test_built3_inner.mpr (by decide)⟩ <;>
    rw [test_built3_node.1, test_tree3_get] <;> decide

theorem test_hyp_BuiltTreeMeetsTheTreeInvariant : ∃ t, exec .buildTree s3 = .next t := test_exec_next _ _

theorem test_hyp_RootWeightIsTheTotal : exec .buildTree s3 = .next built3 ∧ built3.status.treePresent = true :=
  ⟨rfl, test_built3_node.2.2.trans test_tree3_counts.2.2.2.1⟩

/-- RootWeightIsTheTotal: a tree with the synthetic leaf, whose root weighs one more than the counts. -/
theorem test_hyp_RootWeightIsTheTotal_synth : after (exec .buildTree { State.reset with freq := freqOf [0, 4] })
    (fun t => t.status.treePresent && t.status.synthPresent && t.regWord .rootWeightLo == 5 && t.regWord .rootWeightHi == 0) = true := by
  decide +kernel

theorem test_hyp_BuildTableWritesOnlyTheTableOfTheTree : State.reset.status.treePresent = false ∧
    ∃ t t', tree3.status.treePresent = { tree3 with inLen := 1 }.status.treePresent ∧ tree3.root = { tree3 with inLen := 1 }.root ∧
      tree3.node = { tree3 with inLen := 1 }.node ∧
      exec .buildTable tree3 = .next t ∧ exec .buildTable { tree3 with inLen := 1 } = .next t' :=
  ⟨rfl, _, _, rfl, rfl, rfl, rfl, rfl⟩

theorem test_hyp_TableEntriesAreTheLeaves : TreeBuilt tree3 ∧ tree3.status.treePresent = true ∧
    (∃ t, exec .buildTable tree3 = .next t) ∧ tree3.isLeaf 2 :=
  ⟨test_tree3_built, test_tree3_counts.2.2.2.1, test_exec_next _ _, test_tree3_leaf.mpr (by decide)⟩

/-- TableEntriesAreTheLeaves, last clause: a tree with the synthetic leaf, whose symbol-0 entry is synthetic. -/
theorem test_hyp_TableEntriesAreTheLeaves_synth : TreeBuilt (State.reset.installTree (treeOf (freqOf [0, 4]))) ∧
    after (exec .buildTable (State.reset.installTree (treeOf (freqOf [0, 4])))) (fun t => (t.code.get 0).synth) = true :=
  ⟨test_installTree_built _ _, by decide +kernel⟩

/-- TableEntriesAreTheLeaves, last clause: the synthetic entry's flags, not colliding, and colliding without a synthetic entry. -/
theorem test_hyp_TableEntriesAreTheLeaves_flags :
    after (exec .buildTree { State.reset with freq := freqOf [0, 4] }) (fun t => t.status.synthPresent && !t.status.synthCollide) = true ∧
    after (exec .buildTable (State.reset.installTree (treeOf (freqOf [1]))))
      (fun t => (t.code.get 0).valid && !(t.code.get 0).synth && t.status.synthCollide) = true := by
  decide +kernel

theorem test_hyp_CodeLengthBounds : TreeInvariant table3 ∧ CodeTableInvariant table3 ∧ (table3.code.get 0).valid = true ∧
    (table3.code.get 0).len.toNat ≤ 2 :=
  ⟨test_table3_tree, test_table3_code, by decide +kernel, by decide +kernel⟩

theorem test_hyp_CodesArePrefixFree : TreeInvariant table3 ∧ CodeTableInvariant table3 ∧ (0 : Fin 256) ≠ 2 ∧
    (table3.code.get 0).valid = true ∧ (table3.code.get 2).valid = true :=
  ⟨test_table3_tree, test_table3_code, by decide, by decide +kernel, by decide +kernel⟩

theorem test_hyp_EncodeConcatenatesTheCodes : (table3In [2, 0, 1]).caps.valid = true ∧
    (table3In [2, 0, 1]).inLen.toNat ≤ (table3In [2, 0, 1]).caps.inCap ∧
    allCoded (table3In [2, 0, 1]).code (table3In [2, 0, 1]).inputBytes ∧
    (codeTokens (table3In [2, 0, 1]).code (table3In [2, 0, 1]).inputBytes).length ≤ (table3In [2, 0, 1]).caps.tokCap := by
  unfold allCoded
  decide +kernel

/-- The smallest buffers R10 allows. -/
def smallCaps : Config.Caps := { inCap := 4, tokCap := 4, outCap := 4 }

/-- EncodeReportsTheFirstFailingByte: a byte without an entry after one with, and a third two-digit code in four tokens. -/
theorem test_hyp_EncodeReportsTheFirstFailingByte :
    ((table3In [2, 9]).inLen.toNat ≤ (table3In [2, 9]).caps.inCap ∧ (table3In [2, 9]).inputBytes = [2] ++ 9 :: [] ∧
      allCoded (table3In [2, 9]).code [2] ∧ (codeTokens (table3In [2, 9]).code [2]).length ≤ (table3In [2, 9]).caps.tokCap ∧
      ((table3In [2, 9]).code.get (symIndex 9)).valid = false) ∧
    ({ table3In [0, 0, 0] with caps := smallCaps }.inputBytes = [0, 0] ++ 0 :: [] ∧
      (table3In [0, 0, 0]).inLen.toNat ≤ smallCaps.inCap ∧ allCoded table3.code [0, 0] ∧
      (codeTokens table3.code [0, 0]).length ≤ smallCaps.tokCap ∧ (table3.code.get (symIndex 0)).valid = true ∧
      smallCaps.tokCap < (codeTokens table3.code [0, 0]).length + (table3.code.get (symIndex 0)).len.toNat) := by
  unfold allCoded
  decide +kernel

theorem test_hyp_EncodeWritesOnlyItsWriteSet : ∃ t, exec .encode (table3In [2, 9]) = .next t ∧ t.status.err = true :=
  ⟨_, rfl, by decide +kernel⟩

theorem test_same_operands (s : State) (m : Memory) (c : CodeTable) (f : FreqTable) :
    s.code = { s with root := 0, tokBuf := m }.code ∧ s.node = { s with code := c, freq := f }.node := ⟨rfl, rfl⟩

/-- EncodeIgnoresTheTreeAndDecodeTheTable: two states that differ elsewhere, one whose command succeeds and one whose fails. -/
theorem test_hyp_EncodeIgnoresTheTreeAndDecodeTheTable :
    ((table3In [2, 9]).code = { table3In [2, 9] with root := 0, tokBuf := buf [1] }.code ∧
      (∃ t, exec .encode (table3In [2, 9]) = .next t) ∧
      (∃ t, exec .encode { table3In [2, 9] with root := 0, tokBuf := buf [1] } = .next t)) ∧
    ((tree3Tok [0x31]).node = { tree3Tok [0x31] with code := zeroCodes, freq := freq3 }.node ∧
      (∃ t, exec .decode (tree3Tok [0x31]) = .next t) ∧
      (∃ t, exec .decode { tree3Tok [0x31] with code := zeroCodes, freq := freq3 } = .next t)) :=
  ⟨⟨(test_same_operands _ _ zeroCodes zeroFreq).1, test_exec_next _ _, test_exec_next _ _⟩,
   ⟨(test_same_operands _ [] _ _).2, test_exec_next _ _, test_exec_next _ _⟩⟩

/-- DecodeChecksLengthThenTree: TOK_LEN = TOK_CAP + 1, and 1 and TOK_CAP without a tree. -/
theorem test_hyp_DecodeChecksLengthThenTree :
    { State.reset with tokLen := 0x40001 }.caps.tokCap < { State.reset with tokLen := 0x40001 }.tokLen.toNat ∧
    (0 < { State.reset with tokLen := 1 }.tokLen.toNat ∧ { State.reset with tokLen := 1 }.tokLen.toNat ≤ State.reset.caps.tokCap ∧
      State.reset.status.treePresent = false) ∧
    { State.reset with tokLen := 0x40000 }.tokLen.toNat ≤ State.reset.caps.tokCap := by decide

theorem test_hyp_MalformedTokenIsReported : (tree3Tok [0x31, 0x78]).status.treePresent = true ∧
    (tree3Tok [0x31, 0x78]).tokLen.toNat ≤ (tree3Tok [0x31, 0x78]).caps.tokCap ∧
    (tree3Tok [0x31, 0x78]).streamTokens = [0x31] ++ 0x78 :: [] ∧ allDigits [0x31] ∧ (0x78 : Byte) ≠ 0x30 ∧ (0x78 : Byte) ≠ 0x31 := by
  unfold allDigits
  decide +kernel

theorem test_hyp_DecodeWritesOnlyItsWriteSet : ∃ t, exec .decode (tree3Tok [0x31, 0x78]) = .next t ∧ t.status.err = true :=
  ⟨_, rfl, by decide +kernel⟩

theorem test_hyp_DecodeNeverOverflowsOutBuf : (tree3Tok [0x31]).caps.valid = true ∧
    (tree3Tok [0x31]).tokLen.toNat ≤ (tree3Tok [0x31]).caps.tokCap ∧ ∃ t, exec .decode (tree3Tok [0x31]) = .next t :=
  ⟨by decide, by decide, test_exec_next _ _⟩

/-- Changing what a tree invariant does not mention keeps it: the buffers and lengths. -/
theorem test_tree_with_stream (s : State) (m : Memory) (n : Word) (h : TreeInvariant s) :
    TreeInvariant { s with tokBuf := m, tokLen := n } :=
  ⟨fun hp =>
    let t := h.1 hp
    { counts := t.counts, rootLast := t.rootLast, childrenBelow := t.childrenBelow, oneParent := t.oneParent
      leavesFirst := t.leavesFirst, synthOnce := t.synthOnce, realDistinct := t.realDistinct
      restZero := t.restZero, unusedZero := t.unusedZero, weights := t.weights },
   fun hp => h.2 hp⟩

theorem test_tree3Tok_invariant (l : List Nat) : TreeInvariant (tree3Tok l) := test_tree_with_stream tree3 _ _ test_tree3_invariant

theorem test_hyp_DecodeInvertsTheCode : TreeInvariant (tree3Tok [0x31, 0x30, 0x30]) ∧
    ((tree3Tok [0x31, 0x30, 0x30]).caps.valid = true ∧ (tree3Tok [0x31, 0x30, 0x30]).status.treePresent = true ∧
      (tree3Tok [0x31, 0x30, 0x30]).tokLen.toNat ≤ (tree3Tok [0x31, 0x30, 0x30]).caps.tokCap ∧
      allCoded (codeTableOf (tree3Tok [0x31, 0x30, 0x30]).node (tree3Tok [0x31, 0x30, 0x30]).root) [2, 0] ∧
      (tree3Tok [0x31, 0x30, 0x30]).streamTokens =
        codeTokens (codeTableOf (tree3Tok [0x31, 0x30, 0x30]).node (tree3Tok [0x31, 0x30, 0x30]).root) [2, 0]) :=
  ⟨test_tree3Tok_invariant _, by unfold allCoded; decide +kernel⟩

/-- DecodeInvertsTheCode, over leaf paths: the leaves of symbols 2 and 0. -/
theorem test_hyp_DecodeInvertsTheCode_paths :
    (∀ l ∈ [(leafNode 2 2, [true]), (leafNode 0 1, [false, false])], l ∈
      leafPaths (tree3Tok [0x31, 0x30, 0x30]).node (tree3Tok [0x31, 0x30, 0x30]).root) ∧
    (tree3Tok [0x31, 0x30, 0x30]).streamTokens = pathTokens [(leafNode 2 2, [true]), (leafNode 0 1, [false, false])] := by
  decide +kernel

/-- DecodeInvertsTheCode, over leaf paths: the synthetic leaf and the real leaf of a colliding tree. -/
theorem test_hyp_DecodeInvertsTheCode_colliding : TreeInvariant tree1Tok ∧ tree1Tok.status.treePresent = true ∧
    (∀ l ∈ [(synthLeaf, [true]), (leafNode 0 1, [false])], l ∈ leafPaths tree1Tok.node tree1Tok.root) ∧
    tree1Tok.streamTokens = pathTokens [(synthLeaf, [true]), (leafNode 0 1, [false])] :=
  ⟨test_tree_with_stream tree1 _ _ test_tree1_invariant, test_tree1_counts.2.2.2.1, by decide +kernel, by decide +kernel⟩

theorem test_hyp_TruncatedStreamIsReported : TreeInvariant (tree3Tok [0x31, 0x30]) ∧
    ((tree3Tok [0x31, 0x30]).status.treePresent = true ∧
      (tree3Tok [0x31, 0x30]).tokLen.toNat ≤ (tree3Tok [0x31, 0x30]).caps.tokCap ∧
      allCoded (codeTableOf (tree3Tok [0x31, 0x30]).node (tree3Tok [0x31, 0x30]).root) [1, 2] ∧
      ([0x30] : List Byte) ≠ [] ∧ ([0x31] : List Byte) ≠ [] ∧
      ((codeTableOf (tree3Tok [0x31, 0x30]).node (tree3Tok [0x31, 0x30]).root).get (symIndex 1)).tokens = [0x30] ++ [0x31] ∧
      (tree3Tok [0x31, 0x30]).streamTokens =
        codeTokens (codeTableOf (tree3Tok [0x31, 0x30]).node (tree3Tok [0x31, 0x30]).root) [2] ++ [0x30]) :=
  ⟨test_tree3Tok_invariant _, by unfold allCoded; decide +kernel⟩

theorem test_hyp_CompressIsTheFourCommands : (input [0, 1, 2, 2]).inLen.toNat ≤ (input [0, 1, 2, 2]).caps.inCap ∧
    ∃ a b c d, exec .count (input [0, 1, 2, 2]) = .next a ∧ exec .buildTree a = .next b ∧ exec .buildTable b = .next c ∧
      exec .encode c = .next d := ⟨by decide, _, _, _, _, rfl, rfl, rfl, rfl⟩

theorem test_hyp_CompressFindsEverySymbol : (input [5, 5]).caps.valid = true ∧
    (input [5, 5]).inLen.toNat ≤ (input [5, 5]).caps.inCap ∧ (input [5, 5]).inBuf.written (input [5, 5]).inLen.toNat := by
  unfold Memory.written
  decide

theorem test_hyp_CompressIsDeterministic :
    ((input [5, 5]).inLen.toNat ≤ (input [5, 5]).caps.inCap ∧ (input [5, 5]).inBuf.written (input [5, 5]).inLen.toNat) ∧
    (∀ k, k < (input [5, 5]).inLen.toNat → (input [5, 5]).inBuf.read k = { input [5, 5] with inBuf := buf [5, 5, 6] }.inBuf.read k) ∧
    ∃ t t', exec .compress (input [5, 5]) = .next t ∧ exec .compress { input [5, 5] with inBuf := buf [5, 5, 6] } = .next t' :=
  ⟨by unfold Memory.written; decide, by decide, _, _, rfl, rfl⟩

theorem test_hyp_EmptyInputRoundTrip : State.reset.inLen = 0 := by decide

theorem test_hyp_RoundTripLaw : (input [0, 1, 2, 2]).caps.valid = true ∧
    ([0, 1, 2, 2] : List Byte).length = (input [0, 1, 2, 2]).inLen.toNat ∧
    ([0, 1, 2, 2] : List Byte).length ≤ (input [0, 1, 2, 2]).caps.inCap ∧ (input [0, 1, 2, 2]).inBuf.holds [0, 1, 2, 2] ∧
    (codeTokens (codeTableOf (treeOf (countTable [0, 1, 2, 2])).node (treeOf (countTable [0, 1, 2, 2])).root) [0, 1, 2, 2]).length ≤
      (input [0, 1, 2, 2]).caps.tokCap :=
  ⟨by decide, by decide, by decide, Memory.holds_writeList _ _, by decide +kernel⟩

/-- SingleSymbolCompress: symbol 0 once, the only case with digit '0', and symbol 0x61 four times. -/
theorem test_hyp_SingleSymbolCompress :
    (∀ n, n = 1 → (input [0]).caps.valid = true ∧ 1 ≤ (input [0]).inLen.toNat ∧ (input [0]).inLen.toNat = n ∧
      n ≤ (input [0]).caps.inCap ∧ n ≤ (input [0]).caps.tokCap) ∧ (input [0]).inBuf.holds (List.replicate 1 0) ∧
    (1 ≤ (input [0x61, 0x61, 0x61, 0x61]).inLen.toNat ∧ (input [0x61, 0x61, 0x61, 0x61]).inLen.toNat = 4) ∧
    (input [0x61, 0x61, 0x61, 0x61]).inBuf.holds (List.replicate 4 0x61) :=
  ⟨by rintro n rfl; decide, Memory.holds_writeList _ _, by decide, Memory.holds_writeList _ _⟩

theorem test_hyp_CommandsKeepTheInput : ∃ t, exec .nop State.reset = .next t := test_exec_next _ _

/-- OnlyTreeCommandsChangeTheTree: the completion of COUNT, and a request made while an accepted COMPRESS waits. -/
theorem test_hyp_OnlyTreeCommandsChangeTheTree :
    ((busyWith 1).nextMove ≠ .reset ∧
      (∀ w, (busyWith 1).nextMove = .completion → (busyWith 1).eng = .busy w →
        decodeWord w ≠ .ok .buildTree ∧ decodeWord w ≠ .ok .compress) ∧ ∃ t, step (busyWith 1) = .next t) ∧
    ({ busyWith 6 with schedule := [.request] }.nextMove ≠ .reset ∧ { busyWith 6 with schedule := [.request] }.nextMove ≠ .completion) := by
  refine ⟨⟨by decide, ?_, _, rfl⟩, by decide⟩
  intro w _ h
  cases h
  rw [show decodeWord 1 = .ok .count from rfl]
  exact ⟨by simp, by simp⟩

/-- WrittenOperandsGiveDrawFreeResults: with input to ENCODE, and with a stream and a tree to DECODE. -/
theorem test_hyp_WrittenOperandsGiveDrawFreeResults :
    (definedOperands .encode (table3In [2, 0]) ∧ ∃ t, exec .encode (table3In [2, 0]) = .next t) ∧
    (definedOperands .decode (tree3Tok [0x31]) ∧ (tree3Tok [0x31]).status.treePresent = true) := by
  refine ⟨⟨fun _ => ?_, test_exec_next _ _⟩, fun _ _ _ => ?_, test_tree3_counts.2.2.2.1⟩ <;>
    unfold Memory.written <;> decide

/-- HostCannotTouchARunningCommand: CMD, IN_LEN, the last FREQ word and the last IN_BUF word while busy. -/
theorem test_hyp_HostCannotTouchARunningCommand : (busyWith 1).busy = true ∧
    ∀ a ∈ ([0x14, 0x24, 0x7FC, 0x1FFFC] : List HostAddr), mapped (busyWith 1).caps a ∧ ¬ readOnlyAddr a.toNat ∧ a ≠ 0x18 ∧ a ≠ 0x10 := by
  refine ⟨rfl, ?_⟩
  intro a ha
  simp only [List.mem_cons, List.not_mem_nil, or_false] at ha
  rcases ha with rfl | rfl | rfl | rfl <;> simp [mapped, mappedRange, readOnlyAddr, busyWith, State.reset, Config.defaultCaps]

theorem test_hyp_BusyReadsAreDrawsButForTheExemptOnes : (busyWith 1).busy = true ∧
    ∀ a ∈ ([0x1C, 0x40, 0x400, 0x3FEC, 0x7FFC] : List HostAddr), mapped (busyWith 1).caps a ∧
      a.toNat ∉ [0x00, 0x04, 0x08, 0x0C, 0x10, 0x14, 0x18] := by
  refine ⟨rfl, ?_⟩
  intro a ha
  simp only [List.mem_cons, List.not_mem_nil, or_false] at ha
  rcases ha with rfl | rfl | rfl | rfl | rfl <;> simp [mapped, mappedRange]

/-- UnmappedAndReadOnlyAccessesAreBusErrors: misaligned, and unmapped addresses next to each range; the ends of the read-only ranges. -/
theorem test_hyp_UnmappedAndReadOnlyAccessesAreBusErrors : State.reset.caps.valid = true ∧
    (∀ a ∈ ([0x01, 0x44, 0x3FC, 0x800, 0x3FF0, 0x8000, 0x20000, 0x80001, 0xC0000] : List HostAddr), ¬ mapped State.reset.caps a) ∧
    (∀ n ∈ [0x00, 0x40, 0x2000, 0x3FEC, 0x4000, 0x7FFC], readOnlyAddr n) := by
  refine ⟨by decide, ?_, ?_⟩ <;> simp [mapped, mappedRange, readOnlyAddr, State.reset, Config.defaultCaps]

theorem test_hyp_AddressMapPlacesEveryTable : State.reset.caps.valid = true ∧ 4 * 0x3FFF < State.reset.caps.inCap ∧
    4 * 0xFFFF < State.reset.caps.tokCap ∧ 4 * 0xFFFF < State.reset.caps.outCap := by decide

theorem test_hyp_IdAndParamsAreConstants : State.reset.caps.valid = true ∧ smallCaps.valid = true := by decide

theorem test_hyp_IdleReadsAndWritesOfRegistersAndTables : table3.eng = .idle ∧ (0 : Fin 256) ≠ 255 ∧
    (tree3.status.treePresent = true ∧ State.reset.status.treePresent = false) :=
  ⟨rfl, by decide, test_tree3_counts.2.2.2.1, rfl⟩

/-- BufferWordsAndIdleReads: the second word of each buffer, which nothing has written, and the first, half written. -/
theorem test_hyp_BufferWordsAndIdleReads : (input [1, 2]).caps.valid = true ∧ (input [1, 2]).eng = .idle ∧
    (4 * 1 < (input [1, 2]).caps.inCap ∧ 4 * 1 < (input [1, 2]).caps.tokCap ∧ 4 * 1 < (input [1, 2]).caps.outCap) ∧
    3 < 4 * 1 ∧ 4 * 1 + 4 ≤ 8 ∧ (input [1, 2]).inBuf.unwrittenIn 0 4 = 2 := by decide

theorem test_hyp_BufferWordsAndIdleReads_mapped : mapped State.reset.caps 0x1FFFC := by
  simp [mapped, mappedRange, State.reset, Config.defaultCaps]

/-- R48, R56: the written lanes of a half-written word read exactly, the others as the next draws. -/
theorem test_bus_unwritten_lanes : (hostRead 0x10000 (input [1, 2])).1.data = wordOfLanes 1 2 (Config.drawByte 0) (Config.drawByte 1) ∧
    (hostRead 0x10000 (input [1, 2])).2.draws = 2 := ⟨rfl, rfl⟩

theorem test_hyp_IrqIsEnableAndDone : (∃ t, exec .nop { State.reset with irqEn := true } = .next t ∧ t.irq = true) ∧
    (0x2 : Word).getLsbD 1 = true ∧ (0x2 : Word).getLsbD 0 = false :=
  ⟨⟨_, rfl, rfl⟩, by decide, by decide⟩

theorem test_hyp_ResetEntersTheResetState : { busyWith 6 with schedule := [.reset] }.schedule = .reset :: [] ∧
    [Move.reset].head? = some .reset ∧ [Move.request].head? = some .request := by decide

theorem test_hyp_ResetIsTheEmptyResult : table3.inLen = 0 ∧ ∃ t, exec .compress table3 = .next t := ⟨by decide, test_exec_next _ _⟩

theorem test_hyp_EveryStepGoesOnAndCommandsComplete :
    ((busyWith 6).eng = .busy 6 ∧ .reset ∉ (busyWith 6).schedule) ∧
    ({ busyWith 6 with schedule := [.request, .response] }.eng = .busy 6 ∧
      .reset ∉ { busyWith 6 with schedule := [.request, .response] }.schedule) := by decide

theorem test_hyp_StepsKeepBuffersCanonicalAndInCapacity : table3.caps.valid = true ∧ BufferInvariant table3 ∧
    ∃ t, step table3 = .next t := ⟨by decide, test_table3_block.buffers, _, rfl⟩

theorem test_hyp_StepsKeepTheErrorReportSound : ReportInvariant table3 ∧ ∃ t, step table3 = .next t :=
  ⟨test_table3_block.report, _, rfl⟩

theorem test_hyp_EveryTreeHeldWasBuilt : TreeBuilt tree3 ∧ ∃ t, step tree3 = .next t := ⟨test_tree3_built, _, rfl⟩

theorem test_hyp_StepsKeepTheBlockInvariant : BlockInvariant table3 ∧ ∃ t, step table3 = .next t := ⟨test_table3_block, _, rfl⟩

end Sys2Proof.Tests
end

section
/-! SUPPORT. What the parts of a step do to the state, said once for the invariants: the tree held as one value, the frame of a host write and of a command, and the rule that a property every kind of move keeps is kept by every step. -/

namespace Sys2Proof.Machine

/-! ## The tree held, as one value -/

/-- NODE, ROOT, NODE_COUNT, LEAF_COUNT and the three tree flags as one value, what R34 and R36 speak of. -/
def State.treeHeld (s : State) : TreeImage :=
  { node := s.node, root := s.root, nodeCount := s.nodeCount, leafCount := s.leafCount
    present := s.status.treePresent, synthPresent := s.status.synthPresent, synthCollide := s.status.synthCollide }

@[simp] theorem State.treeHeld_installTree (s : State) (t : TreeImage) : (s.installTree t).treeHeld = t := rfl

@[simp] theorem State.installTree_treeHeld (s : State) : s.installTree s.treeHeld = s := rfl

theorem treeBuilt_iff (s : State) : TreeBuilt s ↔ ∃ f, s.treeHeld = treeOf f :=
  exists_congr fun f => ⟨fun h => by rw [← h, State.treeHeld_installTree], fun h => by rw [← h, State.installTree_treeHeld]⟩

/-- The clauses of R36 speak of the tree held alone, so they hold wherever the same tree stands. -/
theorem TreeShape.installTree {s : State} (h : TreeShape s) (u : State) : TreeShape (u.installTree s.treeHeld) :=
  { counts := h.counts, rootLast := h.rootLast, childrenBelow := h.childrenBelow, oneParent := h.oneParent
    leavesFirst := h.leavesFirst, synthOnce := h.synthOnce, realDistinct := h.realDistinct
    restZero := h.restZero, unusedZero := h.unusedZero, weights := h.weights }

theorem TreeInvariant.congr {s t : State} (h : TreeInvariant s) (ht : t.treeHeld = s.treeHeld) : TreeInvariant t := by
  have moved : TreeInvariant (t.installTree s.treeHeld) := ⟨fun hp => (h.1 hp).installTree t, h.2⟩
  rwa [← ht, State.installTree_treeHeld] at moved

/-- R36 with no tree present: the absent tree of R114. -/
theorem treeInvariant_of_absent {s : State} (h : s.treeHeld = absentTree) : TreeInvariant s := by
  have absent : TreeInvariant (s.installTree absentTree) :=
    ⟨fun hp => absurd hp Bool.false_ne_true, fun _ => ⟨rfl, rfl, rfl, zeroNodes_get, rfl, rfl⟩⟩
  rwa [← h, State.installTree_treeHeld] at absent

theorem CodeTableInvariant.congr {s t : State} (h : CodeTableInvariant s) (ht : t.treeHeld = s.treeHeld)
    (hc : t.code = s.code) : CodeTableInvariant t := by
  have moved : CodeTableInvariant { t.installTree s.treeHeld with code := s.code } := h
  rwa [← ht, State.installTree_treeHeld, ← hc] at moved

/-- No count gives no leaf, and so the absent tree (R114). -/
theorem treeOf_zeroFreq : treeOf zeroFreq = absentTree := by
  have hzero : ∀ c ∈ zeroFreq.toList, c = 0 := by
    intro c hc
    obtain ⟨i, hi, rfl⟩ := List.mem_iff_getElem.mp hc
    exact zeroFreq_get ⟨i, by simpa using hi⟩
  rw [treeOf, (leavesFrom_eq_nil_iff 0 _).mpr hzero]
  rfl

/-! ## A host transaction -/

/-- The registers of R23 by address. -/
theorem locate_reg (c : Config.Caps) (a : HostAddr) (h4 : a.toNat % 4 = 0) (h : a.toNat < 0x44) :
    locate c a = (regAt (a.toNat / 4)).map Location.reg := by
  simp [locate, h4, h]

theorem locate_status (c : Config.Caps) : locate c 0x18 = some (.reg .status) := locate_reg c 0x18 (by decide) (by decide)

theorem locate_ctrl (c : Config.Caps) : locate c 0x10 = some (.reg .ctrl) := locate_reg c 0x10 (by decide) (by decide)

/-- A location a busy engine does not hide reads exactly, and so does any other but CMD while idle (R51). -/
theorem hostRead_exact {a : HostAddr} {s : State} {l : Location} (h : locate s.caps a = some l) (hc : l ≠ .reg .cmd)
    (hx : s.busy = false ∨ l.exactWhileBusy = true) :
    hostRead a s = ({ data := s.wordAt l, err := false }, { s with draws := s.draws + s.drawsAt l }) := by
  rcases hx with hx | hx <;> simp [hostRead, h, hc, hx]

theorem hostRead_exactReg {a : HostAddr} {s : State} {r : Reg} (h : locate s.caps a = some (.reg r)) (hc : r ≠ .cmd)
    (hx : s.busy = false ∨ (Location.reg r).exactWhileBusy = true) :
    hostRead a s = ({ data := s.regWord r, err := false }, s) :=
  hostRead_exact h (by simpa using hc) hx

theorem hostWrite_status {a : HostAddr} {s : State} {d : Word} (h : locate s.caps a = some (.reg .status)) :
    hostWrite a d s = (false, s.clearStatus d) := by
  simp [hostWrite, h, Location.readOnly]

theorem hostWrite_ctrl {a : HostAddr} {s : State} {d : Word} (h : locate s.caps a = some (.reg .ctrl)) :
    hostWrite a d s = (false, s.writeCtrl d) := by
  simp [hostWrite, h, Location.readOnly]

/-- What a stored word leaves unchanged. -/
theorem State.storeWord_state (s : State) (l : Location) (d : Word) : s.storeWord l d = { s with
    inLen := (s.storeWord l d).inLen, tokLen := (s.storeWord l d).tokLen, freq := (s.storeWord l d).freq
    inBuf := (s.storeWord l d).inBuf, tokBuf := (s.storeWord l d).tokBuf, outBuf := (s.storeWord l d).outBuf } := by
  rcases s.storeWord_cases l d with h | h | ⟨_, _, h⟩ | ⟨_, _, h⟩ | ⟨_, _, h⟩ | ⟨_, _, h⟩ | h <;> rw [h]

/-- The state a host write leaves (R52): a bus error or a violation flagged, STATUS or CTRL written, a word accepted by an idle engine, or a location stored. -/
theorem hostWrite_result (a : HostAddr) (d : Word) (s : State) :
    (hostWrite a d s).2 = s.flagBusErr ∨ (hostWrite a d s).2 = s.clearStatus d ∨ (hostWrite a d s).2 = s.writeCtrl d ∨
    (hostWrite a d s).2 = s.flagBusyViol ∨ (s.busy = false ∧ (hostWrite a d s).2 = s.accept d) ∨
    ∃ l, locate s.caps a = some l ∧ (hostWrite a d s).2 = s.storeWord l d := by
  rcases hostWrite_cases a d s with ⟨-, h⟩ | ⟨_, -, -, h⟩ | ⟨-, h⟩ | ⟨-, h⟩ | ⟨_, -, -, -, -, -, h⟩ | ⟨-, hb, h⟩ |
    ⟨l, hl, -, -, -, -, -, h⟩
  · exact .inl (by rw [h])
  · exact .inl (by rw [h])
  · exact .inr (.inl (by rw [h]))
  · exact .inr (.inr (.inl (by rw [h])))
  · exact .inr (.inr (.inr (.inl (by rw [h]))))
  · exact .inr (.inr (.inr (.inr (.inl ⟨hb, by rw [h]⟩))))
  · exact .inr (.inr (.inr (.inr (.inr ⟨l, hl, by rw [h]⟩))))

/-- No host read reaches the tree, CODE or the configuration (R62). -/
theorem hostRead_frame (a : HostAddr) (s : State) : (hostRead a s).2.treeHeld = s.treeHeld ∧
    (hostRead a s).2.code = s.code ∧ (hostRead a s).2.caps = s.caps := by
  rw [hostRead_state]
  exact ⟨rfl, rfl, rfl⟩

/-- No host write reaches the tree, CODE or the configuration (R34, R38, R9). -/
theorem hostWrite_frame (a : HostAddr) (d : Word) (s : State) : (hostWrite a d s).2.treeHeld = s.treeHeld ∧
    (hostWrite a d s).2.code = s.code ∧ (hostWrite a d s).2.caps = s.caps := by
  rcases hostWrite_result a d s with h | h | h | h | ⟨-, h⟩ | ⟨l, -, h⟩ <;> rw [h]
  on_goal 6 => rw [s.storeWord_state l d]
  all_goals exact ⟨rfl, rfl, rfl⟩

/-- No transaction reaches the tree, CODE or the configuration. -/
theorem State.transfer_frame (s : State) (r : Request) : (s.transfer r).treeHeld = s.treeHeld ∧
    (s.transfer r).code = s.code ∧ (s.transfer r).caps = s.caps := by
  cases r with
  | read a => exact hostRead_frame a s
  | write a d => exact hostWrite_frame a d s

theorem Memory.writeList_keeps {m : Memory} {cap k : Nat} {vs : List Byte} (h : m.wf = true ∧ m.below cap = true)
    (hk : k + vs.length ≤ cap) : (m.writeList k vs).wf = true ∧ (m.writeList k vs).below cap = true :=
  ⟨Memory.wf_writeList vs m k h.1, Memory.below_writeList vs m cap k h.2 hk⟩

/-- The four lanes of an aligned word below an aligned capacity are below it too (R55, R56). -/
theorem lanesOf_fit {cap k : Nat} {d : Word} (hk4 : k % 4 = 0) (hk : k < cap) (hc : cap % 4 = 0) :
    k + (lanesOf d).length ≤ cap := by
  simp only [lanesOf, List.length_cons, List.length_nil]
  omega

/-- A stored word keeps the buffers of a valid configuration: a buffer word lies whole below the capacity (R55). -/
theorem State.storeWord_buffers {a : HostAddr} {s : State} {l : Location} (d : Word) (hl : locate s.caps a = some l)
    (hv : s.caps.valid = true) (hs : BufferInvariant s) : BufferInvariant (s.storeWord l d) := by
  obtain ⟨⟨hin4, -, -⟩, ⟨htok4, -, -⟩, ⟨hout4, -, -⟩⟩ := (Config.Caps.valid_iff s.caps).mp hv
  obtain ⟨hin, htok, hout⟩ := hs
  rcases s.storeWord_cases l d with h | h | ⟨_, -, h⟩ | ⟨k, rfl, h⟩ | ⟨k, rfl, h⟩ | ⟨k, rfl, h⟩ | h <;> rw [h]
  on_goal 4 =>
    obtain ⟨-, hk4, hk⟩ := locate_inBuf hl
    exact ⟨Memory.writeList_keeps hin (lanesOf_fit hk4 hk hin4), htok, hout⟩
  on_goal 4 =>
    obtain ⟨-, hk4, hk⟩ := locate_tokBuf hl
    exact ⟨hin, Memory.writeList_keeps htok (lanesOf_fit hk4 hk htok4), hout⟩
  on_goal 4 =>
    obtain ⟨-, hk4, hk⟩ := locate_outBuf hl
    exact ⟨hin, htok, Memory.writeList_keeps hout (lanesOf_fit hk4 hk hout4)⟩
  all_goals exact ⟨hin, htok, hout⟩

theorem State.transfer_buffers {s : State} (r : Request) (hv : s.caps.valid = true) (hs : BufferInvariant s) :
    BufferInvariant (s.transfer r) := by
  cases r with
  | read a =>
    have kept : BufferInvariant (hostRead a s).2 := by rw [hostRead_state]; exact hs
    exact kept
  | write a d =>
    have kept : BufferInvariant (hostWrite a d s).2 := by
      rcases hostWrite_result a d s with h | h | h | h | ⟨-, h⟩ | ⟨l, hl, h⟩ <;> rw [h]
      on_goal 6 => exact s.storeWord_buffers d hl hv hs
      all_goals exact hs
    exact kept

/-! ## The error report (R29) -/

/-- A transaction clears DONE, accepts a word with a clean report (R83), or leaves the report as it is. -/
theorem State.transfer_report {s : State} (r : Request) (hs : ReportInvariant s) : ReportInvariant (s.transfer r) := by
  cases r with
  | read a =>
    have kept : ReportInvariant (hostRead a s).2 := by rw [hostRead_state]; exact hs
    exact kept
  | write a d =>
    have kept : ReportInvariant (hostWrite a d s).2 := by
      rcases hostWrite_result a d s with h | h | h | h | ⟨-, h⟩ | ⟨l, -, h⟩ <;> rw [h]
      · exact hs
      · obtain ⟨hbusy, hrest⟩ := hs
        refine ⟨fun hb => ?_, hrest⟩
        obtain ⟨hdone, herr⟩ := hbusy hb
        exact ⟨by simp [hdone], herr⟩
      · exact hs
      · exact hs
      · exact ⟨fun _ => ⟨rfl, rfl⟩, fun _ => ⟨rfl, rfl⟩, by simp, by simp⟩
      · rw [s.storeWord_state l d]; exact hs
    exact kept

/-- A result whose end makes a sound report: a completion over a clean report, or a raise of a code R185 lets a command raise. -/
def CmdResult.reportsSoundly : CmdResult → Prop
  | .completed s => s.errCode = .none ∧ s.errPos = 0
  | .raised c _ _ => c ≠ .none ∧ c ≠ .mergeUnderflow

theorem CmdResult.finish_report {r : CmdResult} (h : r.reportsSoundly) : ReportInvariant r.finish := by
  cases r with
  | completed s =>
    obtain ⟨hcode, hpos⟩ := h
    simp [ReportInvariant, Status.ended, hcode, hpos]
  | raised c p s =>
    obtain ⟨hnone, hmerge⟩ := h
    simp [ReportInvariant, Status.ended, hnone, hmerge]

theorem encodeBody_reportsSoundly {s : State} (h : s.errCode = .none ∧ s.errPos = 0) :
    (encodeBody s).reportsSoundly := by
  unfold encodeBody
  cases he : s.encodeRun.error with
  | none => simpa [he, CmdResult.reportsSoundly] using h
  | some e =>
    obtain ⟨c, k⟩ := e
    obtain ⟨hc, -⟩ := encodeLoop_error _ _ _ _ _ _ he
    rcases hc with rfl | rfl <;> simp [he, CmdResult.reportsSoundly]

theorem decodeBody_reportsSoundly {s : State} (h : s.errCode = .none ∧ s.errPos = 0) :
    (decodeBody s).reportsSoundly := by
  unfold decodeBody
  cases he : s.decodeRun.error with
  | none => simpa [he, CmdResult.reportsSoundly] using h
  | some e =>
    obtain ⟨c, k⟩ := e
    rcases decodeLoop_error _ _ _ _ _ _ _ _ he with rfl | rfl <;> simp [he, CmdResult.reportsSoundly]

/-! ## A command -/

/-- The state COMPRESS's ENCODE_body runs on: what its first three bodies leave (R166). -/
def State.compressTables (s : State) : State :=
  (buildTableBody (buildTreeBody (countBody s.clearSynthHit).state).state).state

theorem compressCommand_eq {s : State} (h : s.inLenBad = false) : compressCommand s = encodeBody s.compressTables := by
  rw [compressCommand_ok h, compressBody_eq, State.compressTables]

/-- The ways of the commands: a check failed, or the command completed outside the tree and CODE, or its body ran. -/
theorem commandOf_cases (i : Instr) (s : State) :
    (∃ c tok out hit, (c = .lenRange ∨ c = .noTree) ∧ commandOf i s = .raised c 0
      { s with tokLen := tok, outLen := out, status := { s.status with synthHit := hit } }) ∨
    (∃ f d out, commandOf i s = .completed { s with freq := f, draws := d, outLen := out }) ∨
    (i = .buildTree ∧ commandOf i s = buildTreeBody s) ∨
    (i = .buildTable ∧ commandOf i s = buildTableBody s) ∨
    (i = .decode ∧ s.tokLenBad = false ∧ commandOf i s = decodeBody s) ∨
    (i = .encode ∧ commandOf i s = encodeBody s) ∨
    (i = .compress ∧ commandOf i s = encodeBody s.compressTables) := by
  cases i with
  | nop => exact .inr (.inl ⟨s.freq, s.draws, s.outLen, rfl⟩)
  | count =>
    cases hb : s.inLenBad with
    | true => exact .inl ⟨_, s.tokLen, s.outLen, s.status.synthHit, .inl rfl, countCommand_bad hb⟩
    | false => exact .inr (.inl ⟨_, _, s.outLen, countCommand_ok hb⟩)
  | buildTree => exact .inr (.inr (.inl ⟨rfl, rfl⟩))
  | buildTable => exact .inr (.inr (.inr (.inl ⟨rfl, rfl⟩)))
  | encode =>
    cases hb : s.inLenBad with
    | true => exact .inl ⟨_, 0, s.outLen, false, .inl rfl, encodeCommand_bad hb⟩
    | false => exact .inr (.inr (.inr (.inr (.inr (.inl ⟨rfl, encodeCommand_ok hb⟩)))))
  | decode =>
    rcases decodeCommand_cases s with ⟨-, h⟩ | ⟨-, -, h⟩ | ⟨-, -, -, h⟩ | ⟨hb, -, -, h⟩
    · exact .inl ⟨_, s.tokLen, 0, s.status.synthHit, .inl rfl, h⟩
    · exact .inr (.inl ⟨s.freq, s.draws, 0, h⟩)
    · exact .inl ⟨_, s.tokLen, 0, s.status.synthHit, .inr rfl, h⟩
    · exact .inr (.inr (.inr (.inr (.inl ⟨rfl, hb, h⟩))))
  | compress =>
    cases hb : s.inLenBad with
    | true => exact .inl ⟨_, 0, s.outLen, false, .inl rfl, compressCommand_bad hb⟩
    | false => exact .inr (.inr (.inr (.inr (.inr (.inr ⟨rfl, compressCommand_eq hb⟩)))))

/-- From the clean report an acceptance leaves (R83), every command ends in a sound one. -/
theorem commandOf_reportsSoundly (i : Instr) {s : State} (hs : s.errCode = .none ∧ s.errPos = 0) :
    (commandOf i s).reportsSoundly := by
  rcases commandOf_cases i s with ⟨c, _, _, _, hc, h⟩ | ⟨_, _, _, h⟩ | ⟨-, h⟩ | ⟨-, h⟩ | ⟨-, -, h⟩ | ⟨-, h⟩ | ⟨-, h⟩ <;> rw [h]
  · rcases hc with rfl | rfl <;> exact ⟨by simp, by simp⟩
  · exact hs
  · exact hs
  · exact hs
  · exact decodeBody_reportsSoundly hs
  · exact encodeBody_reportsSoundly hs
  · exact encodeBody_reportsSoundly (s := s.compressTables) hs

/-- Only BUILD_TREE and COMPRESS change the tree held, and they leave the tree of some counts (R34, R110). -/
theorem commandOf_treeHeld (i : Instr) (s : State) : (commandOf i s).finish.treeHeld = s.treeHeld ∨
    ((i = .buildTree ∨ i = .compress) ∧ ∃ f, (commandOf i s).finish.treeHeld = treeOf f) := by
  rcases commandOf_cases i s with ⟨_, _, _, _, -, h⟩ | ⟨_, _, _, h⟩ | ⟨hi, h⟩ | ⟨-, h⟩ | ⟨-, -, h⟩ | ⟨-, h⟩ | ⟨hi, h⟩ <;> rw [h]
  · exact .inl rfl
  · exact .inl rfl
  · exact .inr ⟨.inl hi, s.freq, rfl⟩
  · exact .inl rfl
  · rw [decodeBody_finish]; exact .inl rfl
  · rw [encodeBody_finish]; exact .inl rfl
  · rw [encodeBody_finish]; exact .inr ⟨.inr hi, countTable s.clearSynthHit.inputBytes, rfl⟩

/-- The table of the tree held, or all-invalid when there is none, meets R38. -/
theorem State.tableHeld_codeTable (s : State) : CodeTableInvariant { s with code := s.tableHeld } := by
  cases hp : s.status.treePresent with
  | true => exact .inr ⟨hp, by simp [State.tableHeld, hp]⟩
  | false => exact .inl (by simp [State.tableHeld, hp])

/-- CODE changes only together with the tree, to all-invalid, or to the table of the tree held (R38). -/
theorem commandOf_codeTable (i : Instr) {s : State} (hs : CodeTableInvariant s) :
    CodeTableInvariant (commandOf i s).finish := by
  rcases commandOf_cases i s with ⟨_, _, _, _, -, h⟩ | ⟨_, _, _, h⟩ | ⟨-, h⟩ | ⟨-, h⟩ | ⟨-, -, h⟩ | ⟨-, h⟩ | ⟨-, h⟩ <;> rw [h]
  · exact hs
  · exact hs
  · exact .inl rfl
  · exact s.tableHeld_codeTable
  · rw [decodeBody_finish]; exact hs
  · rw [encodeBody_finish]; exact hs
  · rw [encodeBody_finish]; exact (buildTreeBody (countBody s.clearSynthHit).state).state.tableHeld_codeTable

/-- No command writes the configuration or the interrupt enable, and each leaves DONE = 1 (R83). -/
theorem commandOf_frame (i : Instr) (s : State) : (commandOf i s).finish.caps = s.caps ∧
    (commandOf i s).finish.irqEn = s.irqEn ∧ (commandOf i s).finish.status.done = true := by
  rcases commandOf_cases i s with ⟨_, _, _, _, -, h⟩ | ⟨_, _, _, h⟩ | ⟨-, h⟩ | ⟨-, h⟩ | ⟨-, -, h⟩ | ⟨-, h⟩ | ⟨-, h⟩ <;> rw [h]
  on_goal 5 => rw [decodeBody_finish]
  on_goal 6 => rw [encodeBody_finish]
  on_goal 7 => rw [encodeBody_finish]
  all_goals exact ⟨rfl, rfl, rfl⟩

/-- ENCODE's tokens fit TOK_BUF (R142). -/
theorem encodeBody_buffers {s : State} (hs : BufferInvariant s) : BufferInvariant (encodeBody s).finish := by
  obtain ⟨hin, htok, hout⟩ := hs
  rw [encodeBody_finish]
  exact ⟨hin, Memory.writeList_keeps htok (encodeLoop_fits _ _ 0 0 _ (Nat.zero_le _)), hout⟩

/-- DECODE's bytes fit OUT_BUF: no more than TOK_LEN of them, and TOK_CAP ≤ OUT_CAP (R153, R10). -/
theorem decodeBody_buffers {s : State} (hv : s.caps.valid = true) (hb : s.tokLenBad = false) (hs : BufferInvariant s) :
    BufferInvariant (decodeBody s).finish := by
  obtain ⟨-, -, -, htokOut, -⟩ := (Config.Caps.valid_iff s.caps).mp hv
  obtain ⟨hin, htok, hout⟩ := hs
  have hlen : s.tokLen.toNat ≤ s.caps.tokCap := s.tokLenBad_false_iff.mp hb
  have hfits : s.decodeRun.bytes.length ≤ s.streamTokens.length := decodeLoop_fits ..
  rw [State.streamTokens_length] at hfits
  have hout' : 0 + s.decodeRun.bytes.length ≤ s.caps.outCap := by omega
  rw [decodeBody_finish]
  exact ⟨hin, htok, Memory.writeList_keeps hout hout'⟩

theorem commandOf_buffers (i : Instr) {s : State} (hv : s.caps.valid = true) (hs : BufferInvariant s) :
    BufferInvariant (commandOf i s).finish := by
  rcases commandOf_cases i s with ⟨_, _, _, _, -, h⟩ | ⟨_, _, _, h⟩ | ⟨-, h⟩ | ⟨-, h⟩ | ⟨-, hb, h⟩ | ⟨-, h⟩ | ⟨-, h⟩ <;> rw [h]
  on_goal 5 => exact decodeBody_buffers hv hb hs
  on_goal 5 => exact encodeBody_buffers hs
  on_goal 5 => exact encodeBody_buffers (s := s.compressTables) hs
  all_goals exact hs

/-! ## A step -/

/-- A property the port's bookkeeping, every transaction, every completion and a reset keep. A completion finds the engine busy (R83). -/
structure StepClosed (P : State → Prop) : Prop where
  port : ∀ (s : State) rsp requests schedule received accepts, P s →
    P { s with rsp := rsp, requests := requests, schedule := schedule, received := received, accepts := accepts }
  transfer : ∀ (s : State) r, P s → P (s.transfer r)
  command : ∀ (s : State) i, s.busy = true → P s → P (commandOf i s).finish
  illegal : ∀ s : State, s.busy = true → P s → P (illegalCommand s).finish
  reset : ∀ s : State, P s → P s.applyReset

/-- A property every kind of move keeps is kept by every step, whatever the host and the schedule do (R233). -/
theorem StepClosed.step {P : State → Prop} (hP : StepClosed P) {s t : State} (hs : P s) (h : step s = .next t) : P t := by
  have hpop : P s.popped := hP.port s _ _ _ _ _ hs
  rcases perform_cases s.nextMove s.popped t h with rfl | ⟨r, rs, -, -, -, rfl⟩ | ⟨r, -, -, -, rfl⟩ |
    ⟨w, i, -, hw, -, rfl⟩ | ⟨w, e, -, hw, -, rfl⟩ | ⟨-, rfl⟩
  · exact hpop
  · exact hP.transfer _ r (hP.port s.popped _ rs _ _ _ hpop)
  · exact hP.port s.popped none _ _ (r :: _) _ hpop
  · exact hP.command _ i (State.busy_of_busy hw) hpop
  · exact hP.illegal _ (State.busy_of_busy hw) hpop
  · exact hP.reset _ hpop

theorem capsAndBuffers_stepClosed (c : Config.Caps) (hv : c.valid = true) :
    StepClosed fun s => BufferInvariant s ∧ s.caps = c where
  port _ _ _ _ _ _ h := h
  transfer s r := by
    rintro ⟨hs, rfl⟩
    exact ⟨s.transfer_buffers r hv hs, (s.transfer_frame r).2.2⟩
  command s i _ := by
    rintro ⟨hs, rfl⟩
    exact ⟨commandOf_buffers i hv hs, (commandOf_frame i s).1⟩
  illegal _ _ h := h
  reset _ h := ⟨⟨⟨rfl, rfl⟩, ⟨rfl, rfl⟩, ⟨rfl, rfl⟩⟩, h.2⟩

theorem reportInvariant_reset : ReportInvariant State.reset := by
  simp [ReportInvariant, State.busy, State.reset, Status.reset]

theorem reportInvariant_stepClosed : StepClosed ReportInvariant where
  port _ _ _ _ _ _ h := h
  transfer s r h := s.transfer_report r h
  command s i hb h := by
    obtain ⟨hbusy, hok, -, -⟩ := h
    exact CmdResult.finish_report (commandOf_reportsSoundly i (hok (hbusy hb).2))
  illegal s _ _ := CmdResult.finish_report (r := illegalCommand s) ⟨by simp, by simp⟩
  reset _ _ := reportInvariant_reset

theorem codeTableInvariant_stepClosed : StepClosed CodeTableInvariant where
  port _ _ _ _ _ _ h := h
  transfer s r h := by
    obtain ⟨htree, hcode, -⟩ := s.transfer_frame r
    exact h.congr htree hcode
  command _ i _ h := commandOf_codeTable i h
  illegal _ _ h := h
  reset _ _ := .inl rfl

/-- Every tree the block holds was built (R34). -/
theorem treeBuilt_stepClosed : StepClosed TreeBuilt where
  port s _ _ _ _ _ h := (treeBuilt_iff _).mpr ((treeBuilt_iff s).mp h)
  transfer s r h := by
    rw [treeBuilt_iff] at h ⊢
    rwa [(s.transfer_frame r).1]
  command s i _ h := by
    rw [treeBuilt_iff] at h ⊢
    rcases commandOf_treeHeld i s with kept | ⟨-, built⟩
    · rwa [kept]
    · exact built
  illegal s _ h := (treeBuilt_iff _).mpr ((treeBuilt_iff s).mp h)
  reset s _ := (treeBuilt_iff _).mpr ⟨zeroFreq, treeOf_zeroFreq.symm⟩

end Sys2Proof.Machine
end

section
/-! SUPPORT. What the merge loop keeps (R115 to R118), and the tree invariant of R36 for the tree it ends with. -/

namespace Sys2Proof.Machine

/-! ## The nodes made so far -/

theorem nodeAt_append_left {nodes : List Node} (more : List Node) {i : Nat} (h : i < nodes.length) :
    nodeAt (nodes ++ more) i = nodeAt nodes i := by
  simp [nodeAt, List.getD_eq_getElem?_getD, List.getElem?_append_left h]

theorem nodeAt_append_self (nodes : List Node) (n : Node) : nodeAt (nodes ++ [n]) nodes.length = n := by
  simp [nodeAt]

theorem nodeAt_of_length_le {nodes : List Node} {i : Nat} (h : nodes.length ≤ i) : nodeAt nodes i = zeroNode := by
  simp [nodeAt, List.getD_eq_getElem?_getD, List.getElem?_eq_none h]

theorem nodeAt_eq_getElem {nodes : List Node} {i : Nat} (h : i < nodes.length) : nodeAt nodes i = nodes[i] := by
  simp [nodeAt, List.getD_eq_getElem?_getD, List.getElem?_eq_getElem h]

theorem nodeAt_mem {nodes : List Node} {i : Nat} (h : i < nodes.length) : nodeAt nodes i ∈ nodes := by
  rw [nodeAt_eq_getElem h]
  exact List.getElem_mem h

theorem mergeNode_left_val (nodes : List Node) {a : Nat} (b : Nat) (h : a < 511) : (mergeNode nodes a b).left.val = a :=
  Nat.mod_eq_of_lt h

theorem mergeNode_right_val (nodes : List Node) (a : Nat) {b : Nat} (h : b < 511) : (mergeNode nodes a b).right.val = b :=
  Nat.mod_eq_of_lt h

/-- Node `i` is internal and `j` is one of its children. -/
def childOf (nodes : List Node) (i j : Nat) : Prop :=
  (nodeAt nodes i).isInternal = true ∧ ((nodeAt nodes i).left.val = j ∨ (nodeAt nodes i).right.val = j)

/-- A merge adds one parent, of the two nodes it took. -/
theorem childOf_append_mergeNode {nodes : List Node} {a b : Nat} (ha : a < 511) (hb : b < 511) (i j : Nat) :
    childOf (nodes ++ [mergeNode nodes a b]) i j ↔ childOf nodes i j ∨ (i = nodes.length ∧ (j = a ∨ j = b)) := by
  rcases Nat.lt_trichotomy i nodes.length with hi | rfl | hi
  · simp [childOf, nodeAt_append_left _ hi, Nat.ne_of_lt hi]
  · have hold : ¬ childOf nodes nodes.length j := by simp [childOf, nodeAt_of_length_le, zeroNode]
    simp only [hold, false_or, true_and]
    rw [childOf, nodeAt_append_self, mergeNode_left_val nodes b ha, mergeNode_right_val nodes a hb]
    simp [mergeNode, eq_comm]
  · have hout : nodeAt (nodes ++ [mergeNode nodes a b]) i = zeroNode := nodeAt_of_length_le (by simpa using hi)
    simp [childOf, hout, nodeAt_of_length_le (Nat.le_of_lt hi), zeroNode, Nat.ne_of_gt hi]

/-- Node `i` is the internal node over two different earlier nodes, with their exact weight (R35, R115). -/
structure MergedAt (nodes : List Node) (i : Nat) : Prop where
  inner : (nodeAt nodes i).isInternal = true
  leftBelow : (nodeAt nodes i).left.val < i
  rightBelow : (nodeAt nodes i).right.val < i
  distinct : (nodeAt nodes i).left ≠ (nodeAt nodes i).right
  unused : (nodeAt nodes i).sym = 0 ∧ (nodeAt nodes i).synth = false
  weight : (nodeAt nodes i).weight.toNat =
    (nodeAt nodes (nodeAt nodes i).left.val).weight.toNat + (nodeAt nodes (nodeAt nodes i).right.val).weight.toNat

theorem MergedAt.append {nodes : List Node} {i : Nat} (h : MergedAt nodes i) (hi : i < nodes.length) (more : List Node) :
    MergedAt (nodes ++ more) i := by
  have hself := nodeAt_append_left more hi
  have hleft := nodeAt_append_left more (Nat.lt_trans h.leftBelow hi)
  have hright := nodeAt_append_left more (Nat.lt_trans h.rightBelow hi)
  constructor <;> rw [hself]
  · exact h.inner
  · exact h.leftBelow
  · exact h.rightBelow
  · exact h.distinct
  · exact h.unused
  · rw [hleft, hright]; exact h.weight

/-- The node a merge makes, where the two weights do not overflow (R118). -/
theorem mergedAt_mergeNode {nodes : List Node} {a b : Nat} (ha : a < nodes.length) (hb : b < nodes.length) (hab : a ≠ b)
    (hn : nodes.length ≤ 511) (hw : (nodeAt nodes a).weight.toNat + (nodeAt nodes b).weight.toNat < 2 ^ 40) :
    MergedAt (nodes ++ [mergeNode nodes a b]) nodes.length := by
  have hleft := mergeNode_left_val nodes b (Nat.lt_of_lt_of_le ha hn)
  have hright := mergeNode_right_val nodes a (Nat.lt_of_lt_of_le hb hn)
  constructor <;> rw [nodeAt_append_self]
  · rfl
  · rwa [hleft]
  · rwa [hright]
  · rwa [Ne, Fin.ext_iff, hleft, hright]
  · exact ⟨rfl, rfl⟩
  · rw [hleft, hright, nodeAt_append_left _ ha, nodeAt_append_left _ hb]
    exact BitVec.toNat_add_of_lt hw

/-! ## The leaves a merge starts from (R111, R112) -/

/-- What tells a leaf from the others: its symbol, or that it is the synthetic one. -/
def Node.identity (n : Node) : Option Byte := if n.synth then none else some n.sym

/-- The leaves of steps 1 and 2: 2 to 256 of them, without children, told apart by symbol, of 32-bit weights. -/
structure LeafRow (leaves : List Node) : Prop where
  two : 2 ≤ leaves.length
  few : leaves.length ≤ 256
  plain : ∀ n ∈ leaves, n.isInternal = false ∧ n.left = 0 ∧ n.right = 0
  distinct : (leaves.map Node.identity).Nodup
  light : ∀ n ∈ leaves, n.weight.toNat < 2 ^ 32

/-- The sum of the leaves' weights, which no merge changes (R117). -/
def totalWeight (leaves : List Node) : Nat := (leaves.map fun n => n.weight.toNat).sum

/-- No sum of leaf weights reaches 2^40 (R118). -/
theorem LeafRow.totalWeight_lt {leaves : List Node} (h : LeafRow leaves) : totalWeight leaves < 2 ^ 40 := by
  have hsum : totalWeight leaves ≤ (leaves.map fun n => n.weight.toNat).length • (2 ^ 32 - 1) := by
    apply List.sum_le_card_nsmul
    intro w hw
    obtain ⟨n, hn, rfl⟩ := List.mem_map.mp hw
    exact Nat.le_pred_of_lt (h.light n hn)
  have hfew := h.few
  simp only [List.length_map, smul_eq_mul] at hsum
  omega

/-- A leaf of step 1 is that of a symbol with non-zero count (R111). -/
theorem mem_leavesFrom {s : Nat} {cs : List Word} {n : Node} (h : n ∈ leavesFrom s cs) :
    ∃ (k : Nat) (c : Word), cs[k]? = some c ∧ c ≠ 0 ∧ n = leafNode (BitVec.ofNat 8 (s + k)) (c.setWidth 40) := by
  induction cs generalizing s with
  | nil => simp [leavesFrom] at h
  | cons c cs ih =>
    have later (hn : n ∈ leavesFrom (s + 1) cs) :
        ∃ (k : Nat) (c' : Word), (c :: cs)[k]? = some c' ∧ c' ≠ 0 ∧ n = leafNode (BitVec.ofNat 8 (s + k)) (c'.setWidth 40) := by
      obtain ⟨k, c', hk, hc', rfl⟩ := ih hn
      exact ⟨k + 1, c', by simpa using hk, hc', by rw [Nat.add_right_comm, Nat.add_assoc]⟩
    unfold leavesFrom at h
    split at h
    · exact later h
    · next hc =>
      rcases List.mem_cons.mp h with rfl | hn
      · exact ⟨0, c, rfl, hc, rfl⟩
      · exact later hn

/-- Step 1 makes its leaves in rising symbol order, so no two have one symbol. -/
theorem leavesFrom_rising {s : Nat} {cs : List Word} (h : s + cs.length ≤ 256) :
    (leavesFrom s cs).Pairwise fun a b => a.sym.toNat < b.sym.toNat := by
  induction cs generalizing s with
  | nil => exact List.Pairwise.nil
  | cons c cs ih =>
    rw [List.length_cons] at h
    have htail := ih (s := s + 1) (by omega)
    unfold leavesFrom
    split
    · exact htail
    · refine List.pairwise_cons.mpr ⟨fun n hn => ?_, htail⟩
      obtain ⟨k, c', hk, -, rfl⟩ := mem_leavesFrom hn
      obtain ⟨hlt, -⟩ := List.getElem?_eq_some_iff.mp hk
      show (BitVec.ofNat 8 s).toNat < (BitVec.ofNat 8 (s + 1 + k)).toNat
      rw [BitVec.toNat_ofNat, BitVec.toNat_ofNat, Nat.mod_eq_of_lt (by omega), Nat.mod_eq_of_lt (by omega)]
      omega

theorem leavesFrom_synth {s : Nat} {cs : List Word} {n : Node} (h : n ∈ leavesFrom s cs) : n.synth = false := by
  obtain ⟨_, _, -, -, rfl⟩ := mem_leavesFrom h
  rfl

theorem leavesFrom_identity_nodup {s : Nat} {cs : List Word} (h : s + cs.length ≤ 256) :
    ((leavesFrom s cs).map Node.identity).Nodup := by
  refine List.pairwise_map.mpr ((leavesFrom_rising h).imp_of_mem fun {a b} ha hb hab => ?_)
  intro heq
  have hsym : a.sym = b.sym := by simpa [Node.identity, leavesFrom_synth ha, leavesFrom_synth hb] using heq
  exact Nat.ne_of_lt hab (congrArg BitVec.toNat hsym)

/-- Steps 1 and 2 of the builder make a row of leaves from any counts that are not all zero. -/
theorem leafRow_withSynthetic {cs : List Word} (hcs : cs.length ≤ 256) {l : Node} {ls : List Node}
    (h : leavesFrom 0 cs = l :: ls) : LeafRow (withSynthetic (l :: ls)) := by
  have hplain : ∀ n ∈ l :: ls, (n.isInternal = false ∧ n.left = 0 ∧ n.right = 0) ∧ n.weight.toNat < 2 ^ 32 := by
    intro n hn
    obtain ⟨_, c, -, -, rfl⟩ := mem_leavesFrom (h ▸ hn)
    refine ⟨⟨rfl, rfl, rfl⟩, ?_⟩
    show (c.setWidth 40).toNat < 2 ^ 32
    rw [BitVec.toNat_setWidth_of_le (by decide)]
    exact c.isLt
  cases ls with
  | nil =>
    have hreal : l.synth = false := leavesFrom_synth (s := 0) (cs := cs) (by simp [h])
    obtain ⟨hform, hweight⟩ := hplain l (by simp)
    exact
      { two := Nat.le_refl 2
        few := by simp [withSynthetic]
        plain := by rintro n (_ | ⟨_, _ | ⟨_, ⟨⟩⟩⟩); exacts [hform, ⟨rfl, rfl, rfl⟩]
        distinct := by simp [withSynthetic, Node.identity, hreal, synthLeaf]
        light := by rintro n (_ | ⟨_, _ | ⟨_, ⟨⟩⟩⟩); exacts [hweight, by decide] }
  | cons l' ls =>
    have hnodup := leavesFrom_identity_nodup (s := 0) (cs := cs) (by omega)
    have hlen := leavesFrom_length_le 0 cs
    rw [h] at hnodup hlen
    exact
      { two := by simp [withSynthetic]
        few := Nat.le_trans hlen hcs
        plain := fun n hn => (hplain n hn).1
        distinct := hnodup
        light := fun n hn => (hplain n hn).2 }

/-- The synthetic leaf is there exactly when step 1 made one leaf (R112). -/
theorem withSynthetic_synth {cs : List Word} {l : Node} {ls : List Node} (h : leavesFrom 0 cs = l :: ls) :
    ls.isEmpty = true ↔ ∃ n ∈ withSynthetic (l :: ls), n.synth = true := by
  cases ls with
  | nil => simp [withSynthetic, synthLeaf]
  | cons l' ls =>
    refine ⟨fun h => absurd h Bool.false_ne_true, ?_⟩
    rintro ⟨n, hn, hs⟩
    rw [leavesFrom_synth (s := 0) (cs := cs) (h ▸ hn)] at hs
    cases hs

/-! ## The merge loop -/

/-- Two extractions take two different members out of Q (R115). -/
theorem extractMin_twice_perm {sentinel : Nat} {nodes : List Node} {q q1 q2 : List Nat} {a b : Nat}
    (h1 : extractMin sentinel nodes q = some (a, q1)) (h2 : extractMin sentinel nodes q1 = some (b, q2)) :
    q.Perm (a :: b :: q2) := by
  obtain ⟨ha, rfl, -⟩ := extractMin_spec h1
  obtain ⟨hb, rfl, -⟩ := extractMin_spec h2
  exact (List.perm_cons_erase ha).trans ((List.perm_cons_erase hb).cons a)

/-- The nodes and Q between two merges: the leaves come first, every later node is a merge, Q holds each node that has no parent, and the weights in Q add up to that of the leaves. -/
structure MergeState (leaves nodes : List Node) (q : List Nat) : Prop where
  grown : leaves <+: nodes
  count : nodes.length + q.length = 2 * leaves.length
  nodup : q.Nodup
  below : ∀ j ∈ q, j < nodes.length
  newest : nodes.length - 1 ∈ q
  merged : ∀ i, leaves.length ≤ i → i < nodes.length → MergedAt nodes i
  queued : ∀ j ∈ q, ∀ i, ¬ childOf nodes i j
  oneParent : ∀ j, j < nodes.length → j ∉ q → ∃ i, childOf nodes i j ∧ ∀ i', childOf nodes i' j → i' = i
  total : (q.map fun j => (nodeAt nodes j).weight.toNat).sum = totalWeight leaves

theorem MergeState.leafAt {leaves nodes : List Node} {q : List Nat} (h : MergeState leaves nodes q) {i : Nat}
    (hi : i < leaves.length) : nodeAt nodes i = nodeAt leaves i := by
  obtain ⟨made, rfl⟩ := h.grown
  exact nodeAt_append_left made hi

theorem LeafRow.not_childOf {leaves : List Node} (hl : LeafRow leaves) (i j : Nat) : ¬ childOf leaves i j := by
  rintro ⟨hinner, -⟩
  by_cases hi : i < leaves.length
  · rw [(hl.plain _ (nodeAt_mem hi)).1] at hinner
    cases hinner
  · rw [nodeAt_of_length_le (Nat.le_of_not_lt hi)] at hinner
    cases hinner

/-- A parent was made after its child. -/
theorem MergeState.childOf_lt {leaves nodes : List Node} {q : List Nat} (h : MergeState leaves nodes q) (hl : LeafRow leaves)
    {i j : Nat} (hc : childOf nodes i j) : j < i ∧ i < nodes.length := by
  have hi : i < nodes.length := by
    by_contra hi
    rw [childOf, nodeAt_of_length_le (Nat.le_of_not_lt hi)] at hc
    cases hc.1
  have hleaf : leaves.length ≤ i := by
    by_contra hlt
    refine hl.not_childOf i j ?_
    rwa [childOf, ← h.leafAt (Nat.lt_of_not_le hlt)]
  have hm := h.merged i hleaf hi
  rcases hc.2 with rfl | rfl
  · exact ⟨hm.leftBelow, hi⟩
  · exact ⟨hm.rightBelow, hi⟩

/-- Q starts as all the leaves. -/
theorem LeafRow.mergeState {leaves : List Node} (hl : LeafRow leaves) :
    MergeState leaves leaves (List.range leaves.length) where
  grown := List.prefix_refl leaves
  count := by rw [List.length_range]; omega
  nodup := List.nodup_range
  below _ hj := List.mem_range.mp hj
  newest := List.mem_range.mpr (by have := hl.two; omega)
  merged i hle hlt := absurd hlt (Nat.not_lt.mpr hle)
  queued j _ i := hl.not_childOf i j
  oneParent j hj hq := absurd (List.mem_range.mpr hj) hq
  total := by
    rw [totalWeight]
    congr 1
    refine List.ext_getElem (by simp) fun i h1 h2 => ?_
    rw [List.length_map] at h2
    simp [nodeAt_eq_getElem h2]

/-- One merge keeps all of it (R115). -/
theorem MergeState.merge {leaves nodes : List Node} {q q2 : List Nat} {a b : Nat} (h : MergeState leaves nodes q)
    (hl : LeafRow leaves) (hq : q.Perm (a :: b :: q2)) :
    MergeState leaves (nodes ++ [mergeNode nodes a b]) (q2 ++ [nodes.length]) := by
  have hnodup := hq.nodup_iff.mp h.nodup
  simp only [List.nodup_cons, List.mem_cons, not_or] at hnodup
  obtain ⟨⟨hab, haq⟩, hbq, hq2⟩ := hnodup
  have hmem {j : Nat} : j ∈ q ↔ j = a ∨ j = b ∨ j ∈ q2 := by rw [hq.mem_iff]; simp
  have ha := h.below a (hmem.mpr (.inl rfl))
  have hb := h.below b (hmem.mpr (.inr (.inl rfl)))
  have hcount := h.count
  have hlen := hq.length_eq
  simp only [List.length_cons] at hlen
  have hn : nodes.length ≤ 511 := by have := hl.few; omega
  have hchild := childOf_append_mergeNode (nodes := nodes) (Nat.lt_of_lt_of_le ha hn) (Nat.lt_of_lt_of_le hb hn)
  have hsum : (nodeAt nodes a).weight.toNat + ((nodeAt nodes b).weight.toNat +
      (q2.map fun j => (nodeAt nodes j).weight.toNat).sum) = totalWeight leaves := by
    rw [← h.total, (hq.map _).sum_eq]
    simp
  have hnew : MergedAt (nodes ++ [mergeNode nodes a b]) nodes.length :=
    mergedAt_mergeNode ha hb hab hn (by have := hl.totalWeight_lt; omega)
  refine
    { grown := h.grown.trans (List.prefix_append _ _)
      count := by simp only [List.length_append, List.length_singleton]; omega
      nodup := ?_, below := ?_, newest := by simp, merged := ?_, queued := ?_, oneParent := ?_, total := ?_ }
  · refine List.nodup_append.mpr ⟨hq2, List.nodup_singleton _, ?_⟩
    rintro j hj _ (_ | ⟨_, ⟨⟩⟩)
    exact Nat.ne_of_lt (h.below j (hmem.mpr (.inr (.inr hj))))
  · intro j hj
    rw [List.length_append, List.length_singleton]
    rcases List.mem_append.mp hj with hj | hj
    · exact Nat.lt_succ_of_lt (h.below j (hmem.mpr (.inr (.inr hj))))
    · exact List.mem_singleton.mp hj ▸ Nat.lt_succ_self _
  · intro i hle hlt
    rw [List.length_append, List.length_singleton] at hlt
    rcases Nat.lt_succ_iff_lt_or_eq.mp hlt with hi | rfl
    · exact (h.merged i hle hi).append hi _
    · exact hnew
  · intro j hj i hc
    rcases List.mem_append.mp hj with hj | hj
    · have hjq : j ∈ q := hmem.mpr (.inr (.inr hj))
      rcases (hchild i j).mp hc with hold | ⟨-, rfl | rfl⟩
      · exact h.queued j hjq i hold
      · exact haq hj
      · exact hbq hj
    · obtain rfl := List.mem_singleton.mp hj
      rcases (hchild i _).mp hc with hold | ⟨-, hj | hj⟩
      · have := h.childOf_lt hl hold; omega
      · omega
      · omega
  · intro j hj hjq
    simp only [List.mem_append, List.mem_singleton, not_or] at hjq
    rw [List.length_append, List.length_singleton] at hj
    by_cases hold : j ∈ q
    · have hjab : j = a ∨ j = b := by rcases hmem.mp hold with h | h | h <;> simp_all
      refine ⟨nodes.length, (hchild _ j).mpr (.inr ⟨rfl, hjab⟩), fun i' hc => ?_⟩
      rcases (hchild i' j).mp hc with hc | ⟨hi, -⟩
      · exact absurd hc (h.queued j hold i')
      · exact hi
    · obtain ⟨i, hc, huniq⟩ := h.oneParent j (by omega) hold
      refine ⟨i, (hchild i j).mpr (.inl hc), fun i' hc' => ?_⟩
      rcases (hchild i' j).mp hc' with hc' | ⟨-, hjab⟩
      · exact huniq i' hc'
      · exact absurd (hmem.mpr (hjab.elim .inl fun h => .inr (.inl h))) hold
  · have hkeep : (q2.map fun j => (nodeAt (nodes ++ [mergeNode nodes a b]) j).weight.toNat) =
        q2.map fun j => (nodeAt nodes j).weight.toNat :=
      List.map_congr_left fun j hj => by rw [nodeAt_append_left _ (h.below j (hmem.mpr (.inr (.inr hj))))]
    have hweight := hnew.weight
    rw [nodeAt_append_self, mergeNode_left_val nodes b (by omega), mergeNode_right_val nodes a (by omega),
      nodeAt_append_left _ ha, nodeAt_append_left _ hb] at hweight
    rw [List.map_append, List.sum_append, hkeep, List.map_singleton, List.sum_singleton, nodeAt_append_self, hweight]
    omega

/-- The loop ends with one node in Q (R117). -/
theorem MergeState.mergeLoop {leaves nodes : List Node} {q : List Nat} (hl : LeafRow leaves) (sentinel k : Nat)
    (h : MergeState leaves nodes q) (hk : q.length = k + 1) :
    ∃ r, MergeState leaves (mergeLoop sentinel k nodes q) [r] := by
  induction k generalizing nodes q with
  | zero =>
    obtain ⟨r, rfl⟩ := List.length_eq_one_iff.mp hk
    exact ⟨r, h⟩
  | succ k ih =>
    obtain ⟨a, q1, b, q2, h1, h2, heq⟩ := mergeLoop_succ sentinel k nodes q (by omega)
    have hperm := extractMin_twice_perm h1 h2
    have hlen := hperm.length_eq
    rw [heq]
    exact ih (h.merge hl hperm) (by simp only [List.length_append, List.length_cons, List.length_nil] at hlen ⊢; omega)

/-- The finished merge: Q holds the root, the last node made, alone. -/
theorem LeafRow.mergeAll {leaves : List Node} (hl : LeafRow leaves) (sentinel : Nat) :
    MergeState leaves (mergeAll sentinel leaves) [(mergeAll sentinel leaves).length - 1] := by
  obtain ⟨r, h⟩ := hl.mergeState.mergeLoop hl sentinel (leaves.length - 1)
    (by rw [List.length_range]; have := hl.two; omega)
  rwa [← List.mem_singleton.mp h.newest] at h

/-! ## The tree invariant (R36) -/

/-- NODE memory, the tree registers and SYNTH_PRESENT hold the finished merge over `leaves`. -/
structure HoldsMerge (s : State) (leaves nodes : List Node) : Prop where
  row : LeafRow leaves
  merge : MergeState leaves nodes [nodes.length - 1]
  node : ∀ i : Fin 511, s.node.get i = nodeAt nodes i.val
  root : s.root.val = nodes.length - 1
  nodeCount : s.nodeCount.val = nodes.length
  leafCount : s.leafCount.val = leaves.length
  synth : s.status.synthPresent = true ↔ ∃ n ∈ leaves, n.synth = true

section
variable {s : State} {leaves nodes : List Node} (h : HoldsMerge s leaves nodes)
include h

theorem HoldsMerge.length_eq : nodes.length = 2 * leaves.length - 1 := by
  have := h.merge.count
  simp only [List.length_singleton] at this
  omega

theorem HoldsMerge.inTree_iff (i : Fin 511) : s.inTree i ↔ i.val < nodes.length := by
  rw [State.inTree, h.nodeCount]

theorem HoldsMerge.leafAt {i : Fin 511} (hi : i.val < leaves.length) :
    s.node.get i = nodeAt leaves i.val ∧ s.node.get i ∈ leaves := by
  rw [h.node, h.merge.leafAt hi]
  exact ⟨rfl, nodeAt_mem hi⟩

theorem HoldsMerge.isInternal_iff {i : Fin 511} (hi : i.val < nodes.length) :
    (s.node.get i).isInternal = true ↔ leaves.length ≤ i.val := by
  rcases Nat.lt_or_ge i.val leaves.length with hlt | hle
  · simp [(h.row.plain _ (h.leafAt hlt).2).1, Nat.not_le.mpr hlt]
  · simp [h.node, (h.merge.merged i hle hi).inner, hle]

theorem HoldsMerge.isInner_iff (i : Fin 511) : s.isInner i ↔ leaves.length ≤ i.val ∧ i.val < nodes.length := by
  rw [State.isInner, h.inTree_iff, and_comm]
  exact and_congr_left fun hi => h.isInternal_iff hi

theorem HoldsMerge.isLeaf_iff (i : Fin 511) : s.isLeaf i ↔ i.val < leaves.length := by
  have hlen := h.length_eq
  have htwo := h.row.two
  rw [State.isLeaf, h.inTree_iff, ← Bool.not_eq_true]
  refine ⟨fun ⟨hi, hleaf⟩ => Nat.lt_of_not_le (mt (h.isInternal_iff hi).mpr hleaf), fun hi => ?_⟩
  have hi' : i.val < nodes.length := by omega
  exact ⟨hi', mt (h.isInternal_iff hi').mp (Nat.not_le.mpr hi)⟩

/-- An inner node is a merge of the nodes NODE memory holds. -/
theorem HoldsMerge.mergedAt {i : Fin 511} (hi : s.isInner i) : MergedAt nodes i.val :=
  let ⟨hle, hlt⟩ := (h.isInner_iff i).mp hi
  h.merge.merged i hle hlt

theorem HoldsMerge.childOf_iff (i j : Fin 511) :
    childOf nodes i.val j.val ↔ s.isInner i ∧ ((s.node.get i).left = j ∨ (s.node.get i).right = j) := by
  rw [childOf, h.node, Fin.ext_iff, Fin.ext_iff]
  refine and_congr_left fun hchild => ⟨fun hinner => ?_, fun hi => (h.mergedAt hi).inner⟩
  have hi : i.val < nodes.length := (h.merge.childOf_lt h.row ⟨hinner, hchild⟩).2
  exact ⟨(h.inTree_iff i).mpr hi, by rwa [h.node]⟩

/-- Two leaves with one identity are one leaf. -/
theorem HoldsMerge.leaf_ext {i j : Fin 511} (hi : s.isLeaf i) (hj : s.isLeaf j)
    (hid : (s.node.get i).identity = (s.node.get j).identity) : i = j := by
  rw [h.isLeaf_iff] at hi hj
  rw [(h.leafAt hi).1, (h.leafAt hj).1, nodeAt_eq_getElem hi, nodeAt_eq_getElem hj] at hid
  exact Fin.ext ((h.row.distinct.getElem_inj_iff (hi := by simpa using hi) (hj := by simpa using hj)).mp (by simpa using hid))

theorem HoldsMerge.exists_synth_iff : (∃ i, s.isLeaf i ∧ (s.node.get i).synth = true) ↔ s.status.synthPresent = true := by
  rw [h.synth]
  constructor
  · rintro ⟨i, hi, hs⟩
    exact ⟨_, (h.leafAt ((h.isLeaf_iff i).mp hi)).2, hs⟩
  · rintro ⟨n, hn, hs⟩
    obtain ⟨k, hk, rfl⟩ := List.mem_iff_getElem.mp hn
    have hfew := h.row.few
    refine ⟨⟨k, by omega⟩, (h.isLeaf_iff _).mpr hk, ?_⟩
    rwa [(h.leafAt (i := ⟨k, _⟩) hk).1, nodeAt_eq_getElem hk]

/-- Every node but the root, which Q still holds, has one parent. -/
theorem HoldsMerge.oneParent {j : Fin 511} (hj : s.inTree j) (hroot : j ≠ s.root) :
    ∃ i, (s.isInner i ∧ ((s.node.get i).left = j ∨ (s.node.get i).right = j)) ∧
      ∀ i', s.isInner i' → ((s.node.get i').left = j ∨ (s.node.get i').right = j) → i' = i := by
  have hq : j.val ∉ [nodes.length - 1] := by
    rw [List.mem_singleton, ← h.root]
    exact fun heq => hroot (Fin.ext heq)
  obtain ⟨i, hc, huniq⟩ := h.merge.oneParent j ((h.inTree_iff j).mp hj) hq
  have hlen := h.length_eq
  have hfew := h.row.few
  have hi := (h.merge.childOf_lt h.row hc).2
  refine ⟨⟨i, by omega⟩, (h.childOf_iff _ j).mp hc, fun i' hinner hchild => Fin.ext ?_⟩
  exact huniq i' ((h.childOf_iff i' j).mpr ⟨hinner, hchild⟩)

/-- A finished merge meets R36, clause by clause. -/
theorem HoldsMerge.treeShape : TreeShape s := by
  have hlen := h.length_eq
  have htwo := h.row.two
  exact
    { counts := by rw [h.nodeCount, h.leafCount]; exact ⟨hlen, htwo, h.row.few⟩
      rootLast := by
        rw [h.root, h.nodeCount]
        exact ⟨rfl, (h.isInternal_iff (by rw [h.root]; omega)).mpr (by rw [h.root]; omega)⟩
      childrenBelow := fun i hi => by
        have hm := h.mergedAt hi
        rw [h.node]
        exact ⟨hm.leftBelow, hm.rightBelow, hm.distinct⟩
      oneParent := fun j hj hroot => h.oneParent hj hroot
      leavesFirst := fun i hi => by
        rw [← Bool.not_eq_true, h.isInternal_iff ((h.inTree_iff i).mp hi), Nat.not_le, h.leafCount]
      synthOnce := ⟨fun i j hi hj hsi hsj => h.leaf_ext hi hj (by simp [Node.identity, hsi, hsj]), h.exists_synth_iff⟩
      realDistinct := fun i j hi hj hsi hsj hsym => h.leaf_ext hi hj (by simp [Node.identity, hsi, hsj, hsym])
      restZero := fun i hi => by
        rw [h.node, nodeAt_of_length_le (Nat.le_of_not_lt (mt (h.inTree_iff i).mpr hi))]
      unusedZero := ⟨fun i hi => by rw [h.node]; exact (h.mergedAt hi).unused,
        fun i hi => (h.row.plain _ (h.leafAt ((h.isLeaf_iff i).mp hi)).2).2⟩
      weights := fun i hi => by
        rw [h.node, h.node (nodeAt nodes i.val).left, h.node (nodeAt nodes i.val).right]
        exact (h.mergedAt hi).weight }

end

/-- A state that holds the tree of some counts holds a finished merge, or the absent tree (R110, R114). -/
theorem holdsMerge_of_treeOf {s : State} {f : FreqTable} (h : s.treeHeld = treeOf f) :
    s.treeHeld = absentTree ∨ (s.status.treePresent = true ∧ ∃ leaves nodes, HoldsMerge s leaves nodes) := by
  cases hleaves : leavesFrom 0 f.toList with
  | nil => exact .inl (by rw [h, treeOf, hleaves]; rfl)
  | cons l ls =>
    have hrow := leafRow_withSynthetic (by simp) hleaves
    have hmerge := hrow.mergeAll Config.sentinel
    have hlen := hmerge.count
    have hfew := hrow.few
    rw [List.length_singleton] at hlen
    rw [treeOf, hleaves] at h
    simp only [State.treeHeld, treeOfLeaves, TreeImage.mk.injEq] at h
    obtain ⟨hnode, hroot, hcount, hleafCount, hpresent, hsynth, -⟩ := h
    refine .inr ⟨hpresent, _, _, hrow, hmerge, fun i => ?_, ?_, ?_, ?_, ?_⟩
    · rw [hnode, tableOfList_get]; rfl
    · rw [hroot]; exact Nat.mod_eq_of_lt (by omega)
    · rw [hcount]; exact Nat.mod_eq_of_lt (by omega)
    · rw [hleafCount]; exact Nat.mod_eq_of_lt (by omega)
    · rw [hsynth]; exact withSynthetic_synth hleaves

/-- Every tree that was built meets the tree invariant (R34, R36). -/
theorem TreeBuilt.treeInvariant {s : State} (h : TreeBuilt s) : TreeInvariant s := by
  obtain ⟨f, hf⟩ := (treeBuilt_iff s).mp h
  rcases holdsMerge_of_treeOf hf with habsent | ⟨hpresent, leaves, nodes, hm⟩
  · exact treeInvariant_of_absent habsent
  · exact ⟨fun _ => hm.treeShape, fun hp => absurd hpresent (by simp [hp])⟩

theorem treeInvariant_stepClosed : StepClosed TreeInvariant where
  port _ _ _ _ _ _ h := h.congr rfl
  transfer s r h := h.congr (s.transfer_frame r).1
  command s i _ h := by
    rcases commandOf_treeHeld i s with kept | ⟨-, built⟩
    · exact h.congr kept
    · exact ((treeBuilt_iff _).mpr built).treeInvariant
  illegal _ _ h := h.congr rfl
  reset _ _ := treeInvariant_of_absent rfl

end Sys2Proof.Machine
end

section
/-! PROOFS. The statements of the family 10_state.md. -/

namespace Sys2Proof.Proofs

open Sys2Proof.Machine

/-- Settles O56: each kind of move keeps the buffers and the configuration. -/
theorem stepsKeepBuffersCanonicalAndInCapacity : Obligations.StepsKeepBuffersCanonicalAndInCapacity :=
  fun s _ hv hs h => (capsAndBuffers_stepClosed s.caps hv).step ⟨hs, rfl⟩ h

/-- Settles O57: each kind of move keeps the report, since a command starts from the clean report of its acceptance. -/
theorem stepsKeepTheErrorReportSound : Obligations.StepsKeepTheErrorReportSound :=
  fun _ _ hs h => reportInvariant_stepClosed.step hs h

/-- Settles O59: each part of the invariant is kept by each kind of move; the tree is kept or built anew. -/
theorem stepsKeepTheBlockInvariant : Obligations.StepsKeepTheBlockInvariant := by
  intro s t hs h
  obtain ⟨hbuffers, hcaps⟩ := stepsKeepBuffersCanonicalAndInCapacity s t hs.caps hs.buffers h
  exact
    { caps := hcaps ▸ hs.caps
      buffers := hbuffers
      report := reportInvariant_stepClosed.step hs.report h
      tree := treeInvariant_stepClosed.step hs.tree h
      code := codeTableInvariant_stepClosed.step hs.code h }

/-- Settles O18: what BUILD_TREE leaves is the finished merge over the leaves of its counts, or the absent tree. -/
theorem builtTreeMeetsTheTreeInvariant : Obligations.BuiltTreeMeetsTheTreeInvariant := by
  intro s t h
  rw [exec_eq, Host.Outcome.next.injEq] at h
  have built : TreeBuilt t := (treeBuilt_iff t).mpr ⟨s.freq, by rw [← h]; rfl⟩
  exact built.treeInvariant

/-- Settles O58: the reset state holds the absent tree, which is that of the all-zero table, and each kind of move keeps the tree or builds one. -/
theorem everyTreeHeldWasBuilt : Obligations.EveryTreeHeldWasBuilt :=
  ⟨(treeBuilt_iff _).mpr ⟨zeroFreq, treeOf_zeroFreq.symm⟩, fun _ _ hs h => treeBuilt_stepClosed.step hs h⟩

/-- Settles O41: of the moves, only a reset and the completion of BUILD_TREE or COMPRESS reach the tree held. -/
theorem onlyTreeCommandsChangeTheTree : Obligations.OnlyTreeCommandsChangeTheTree := by
  intro s t hreset hcmd h
  have held : t.treeHeld = s.treeHeld := by
    rcases perform_cases s.nextMove s.popped t h with rfl | ⟨r, rs, -, -, -, rfl⟩ | ⟨r, -, -, -, rfl⟩ |
      ⟨w, i, hm, hw, hi, rfl⟩ | ⟨w, e, -, -, -, rfl⟩ | ⟨hm, -⟩
    · rfl
    · exact (State.transfer_frame _ r).1
    · rfl
    · rcases commandOf_treeHeld i s.popped with kept | ⟨rfl | rfl, -⟩
      · exact kept
      · exact absurd hi (hcmd w hm hw).1
      · exact absurd hi (hcmd w hm hw).2
    · rfl
    · exact absurd hm hreset
  simpa only [State.treeHeld, TreeImage.mk.injEq] using held

/-- Settles O48: STATUS is the number of its ten bits, lowest first, read exactly even while busy, and a write of it is `clearStatus`. -/
theorem statusBitsAndWriteOneToClear : Obligations.StatusBitsAndWriteOneToClear := by
  intro s d
  refine ⟨?_, ?_, ?_⟩
  · rw [State.statusWord, BitVec.toNat_setWidth_of_le (by simp)]
    simp only [BitVec.ofBoolListLE, BitVec.toNat_concat, BitVec.toNat_zero_length, Bool.toNat_false]
    omega
  · rw [hostRead_exactReg (locate_status s.caps) (by decide) (.inr rfl)]
    rfl
  · rw [hostWrite_status (locate_status s.caps)]
    rfl

/-- The capacities of R10 fit 32 bits. -/
theorem capWord_toNat {n : Nat} (h : n ≤ 0x80000) : (BitVec.ofNat 32 n).toNat = n := by
  rw [BitVec.toNat_ofNat]
  exact Nat.mod_eq_of_lt (by omega)

/-- Settles O49: the four registers are read exactly even while busy, with no draw. -/
theorem idAndParamsAreConstants : Obligations.IdAndParamsAreConstants := by
  have read {s : State} {a : HostAddr} {r : Reg} (h : locate s.caps a = some (.reg r)) (hc : r ≠ .cmd)
      (hx : (Location.reg r).exactWhileBusy = true) := hostRead_exactReg h hc (.inr hx)
  have hid (s : State) : hostRead 0x00 s = _ := read (r := .id) (locate_reg s.caps _ rfl (by decide)) (by decide) rfl
  have hin (s : State) : hostRead 0x04 s = _ := read (r := .paramInCap) (locate_reg s.caps _ rfl (by decide)) (by decide) rfl
  have htok (s : State) : hostRead 0x08 s = _ := read (r := .paramTokCap) (locate_reg s.caps _ rfl (by decide)) (by decide) rfl
  have hout (s : State) : hostRead 0x0C s = _ := read (r := .paramOutCap) (locate_reg s.caps _ rfl (by decide)) (by decide) rfl
  refine ⟨fun s hv => ?_, by decide, by rw [hin]; rfl, by rw [htok]; rfl, by rw [hout]; rfl⟩
  obtain ⟨⟨-, -, hinCap⟩, ⟨-, -, htokCap⟩, ⟨-, -, houtCap⟩⟩ := (Config.Caps.valid_iff s.caps).mp hv
  rw [hid, hin, htok, hout]
  exact ⟨rfl, ⟨capWord_toNat (by omega), rfl, rfl⟩, ⟨capWord_toNat (by omega), rfl, rfl⟩, ⟨capWord_toNat houtCap, rfl, rfl⟩⟩

/-- Settles O52: a completion sets DONE and leaves IRQ_EN; each of the other events clears one of them. -/
theorem irqIsEnableAndDone : Obligations.IrqIsEnableAndDone := by
  refine ⟨fun s => by simp [State.irq], fun i s t h => ?_, fun s w => by simp [State.irq], fun s d hd => ?_, fun s d hd => ?_,
    fun s => rfl⟩
  · obtain ⟨-, hen, hdone⟩ := commandOf_frame i s
    rw [exec_eq, Host.Outcome.next.injEq] at h
    rw [← h, State.irq, hen, hdone, Bool.and_true]
  · rw [hostWrite_status (locate_status s.caps), State.irq, State.clearStatus_status, hd, Bool.not_true, Bool.and_false,
      Bool.and_false]
  · rw [hostWrite_ctrl (locate_ctrl s.caps), State.irq, State.writeCtrl_irqEn, hd, Bool.false_and]

/-- Settles O60: the base case of the block invariant. -/
theorem resetMeetsTheBlockInvariant : Obligations.ResetMeetsTheBlockInvariant where
  caps := by decide
  buffers := ⟨⟨rfl, rfl⟩, ⟨rfl, rfl⟩, ⟨rfl, rfl⟩⟩
  report := reportInvariant_reset
  tree := treeInvariant_of_absent rfl
  code := .inl rfl

/-- Settles O10: each side is `readList` of its buffer. -/
theorem inputAndStreamAreTheBuffers : Obligations.InputAndStreamAreTheBuffers := by
  intro s
  refine ⟨s.inputBytes_length, fun k v hk h => ?_, s.streamTokens_length, fun k v hk h => ?_⟩
  · exact Memory.readList_written s.inBuf s.draws 0 _ k hk v (by rwa [Nat.zero_add])
  · exact Memory.readList_written s.tokBuf s.draws 0 _ k hk v (by rwa [Nat.zero_add])

end Sys2Proof.Proofs
end

section
/-! SUPPORT. The address map of R53 as the memory statements use it: where each register, table and buffer word lies, which addresses have a location, and which of these are read-only. -/

namespace Sys2Proof.Machine

/-! ## Registers by address (R23) -/

/-- The address of a register (R23). -/
def Reg.addr : Reg → HostAddr
  | .id => 0x00
  | .paramInCap => 0x04
  | .paramTokCap => 0x08
  | .paramOutCap => 0x0C
  | .ctrl => 0x10
  | .cmd => 0x14
  | .status => 0x18
  | .errCode => 0x1C
  | .errPos => 0x20
  | .inLen => 0x24
  | .tokLen => 0x28
  | .outLen => 0x2C
  | .root => 0x30
  | .nodeCount => 0x34
  | .leafCount => 0x38
  | .rootWeightLo => 0x3C
  | .rootWeightHi => 0x40

theorem Reg.addr_aligned (r : Reg) : r.addr.toNat % 4 = 0 := by cases r <;> rfl

theorem Reg.addr_lt (r : Reg) : r.addr.toNat < 0x44 := by cases r <;> decide

theorem regAt_addr (r : Reg) : regAt (r.addr.toNat / 4) = some r := by cases r <;> rfl

theorem addr_of_regAt {n : Nat} {r : Reg} (h : regAt n = some r) : r.addr.toNat = 4 * n := by
  unfold regAt at h
  split at h <;> cases h <;> rfl

theorem regAt_isSome_iff (n : Nat) : (regAt n).isSome = true ↔ n < 17 := by
  refine ⟨fun h => ?_, fun h => ?_⟩
  · obtain ⟨r, hr⟩ := Option.isSome_iff_exists.mp h
    have := addr_of_regAt hr
    have := r.addr_lt
    omega
  · interval_cases n <;> rfl

@[simp] theorem locate_addr (c : Config.Caps) (r : Reg) : locate c r.addr = some (.reg r) := by
  rw [locate_reg c r.addr r.addr_aligned r.addr_lt, regAt_addr, Option.map_some]

/-! ## The map, both ways (R53) -/

/-- Where an address with a location lies: at its register, or word-aligned in the range of its table or buffer. -/
theorem locate_cases {c : Config.Caps} {a : HostAddr} {l : Location} (h : locate c a = some l) :
    (∃ r, l = .reg r ∧ a = r.addr) ∨
    (∃ y, l = .freq y ∧ 0x400 ≤ a.toNat ∧ a.toNat < 0x800) ∨
    (∃ i j, l = .node i j ∧ a.toNat % 4 = 0 ∧ 0x2000 ≤ a.toNat ∧ a.toNat < 0x3FF0) ∨
    (∃ y j, l = .code y j ∧ a.toNat % 4 = 0 ∧ 0x4000 ≤ a.toNat ∧ a.toNat < 0x8000) ∨
    (∃ k, (l = .inBuf k ∨ l = .tokBuf k ∨ l = .outBuf k) ∧ 0x10000 ≤ a.toNat) := by
  unfold locate at h
  dsimp only at h
  split at h
  · cases h
  next h4 =>
  split at h
  · obtain ⟨r, hr, rfl⟩ := Option.map_eq_some_iff.mp h
    have := addr_of_regAt hr
    exact .inl ⟨r, rfl, BitVec.eq_of_toNat_eq (by omega)⟩
  split at h
  · cases h
    exact .inr (.inl ⟨_, rfl, by omega⟩)
  split at h
  · cases h
    exact .inr (.inr (.inl ⟨_, _, rfl, by omega⟩))
  split at h
  · cases h
    exact .inr (.inr (.inr (.inl ⟨_, _, rfl, by omega⟩)))
  split at h
  · cases h
    exact .inr (.inr (.inr (.inr ⟨_, .inl rfl, by omega⟩)))
  split at h
  · cases h
    exact .inr (.inr (.inr (.inr ⟨_, .inr (.inl rfl), by omega⟩)))
  split at h
  · cases h
    exact .inr (.inr (.inr (.inr ⟨_, .inr (.inr rfl), by omega⟩)))
  · cases h

/-- An address has a location exactly where R53 maps it. -/
theorem locate_isSome_iff (c : Config.Caps) (a : HostAddr) : (locate c a).isSome = true ↔ mapped c a := by
  unfold locate mapped mappedRange
  dsimp only
  split_ifs
  on_goal 2 => rw [Option.isSome_map, regAt_isSome_iff]
  all_goals simp
  all_goals omega

theorem locate_of_mapped {c : Config.Caps} {a : HostAddr} (h : mapped c a) : ∃ l, locate c a = some l :=
  Option.isSome_iff_exists.mp ((locate_isSome_iff c a).mpr h)

theorem locate_of_not_mapped {c : Config.Caps} {a : HostAddr} (h : ¬ mapped c a) : locate c a = none := by
  rwa [← locate_isSome_iff, Bool.not_eq_true, Option.isSome_eq_false_iff, Option.isNone_iff_eq_none] at h

/-- The read-only locations are those at the addresses R52 lists. -/
theorem readOnly_iff {c : Config.Caps} {a : HostAddr} {l : Location} (h : locate c a = some l) :
    l.readOnly = true ↔ readOnlyAddr a.toNat := by
  unfold readOnlyAddr
  simp only [List.mem_cons, List.not_mem_nil, or_false]
  rcases locate_cases h with ⟨r, rfl, rfl⟩ | ⟨y, rfl, hlo, hhi⟩ | ⟨i, j, rfl, h4, hlo, hhi⟩ | ⟨y, j, rfl, h4, hlo, hhi⟩ |
    ⟨k, hl, hlo⟩
  · cases r <;> decide
  · simp only [Location.readOnly, Bool.false_eq_true, false_iff]
    omega
  · simp only [Location.readOnly, true_iff]
    omega
  · simp only [Location.readOnly, true_iff]
    omega
  · have := a.isLt
    rcases hl with rfl | rfl | rfl <;> simp only [Location.readOnly, Bool.false_eq_true, false_iff] <;> omega

/-- Every read-only address is mapped (R52, R53). -/
theorem mapped_of_readOnlyAddr {c : Config.Caps} {a : HostAddr} (h : readOnlyAddr a.toNat) : mapped c a := by
  unfold readOnlyAddr at h
  simp only [List.mem_cons, List.not_mem_nil, or_false] at h
  unfold mapped mappedRange
  omega

/-! ## Tables and buffers by address (R54, R55) -/

theorem hostAddr_toNat {n : Nat} (h : n < 0x100000) : (BitVec.ofNat 20 n).toNat = n := by
  rw [BitVec.toNat_ofNat]
  exact Nat.mod_eq_of_lt h

theorem locate_freq (c : Config.Caps) (y : Fin 256) :
    locate c (BitVec.ofNat 20 (0x400 + 4 * y.val)) = some (.freq y) := by
  have hy := y.isLt
  unfold locate
  rw [hostAddr_toNat (by omega)]
  dsimp only
  rw [if_neg (by omega), if_neg (by omega), if_pos (by omega), Option.some.injEq, Location.freq.injEq, Fin.ext_iff,
    Fin.val_ofNat]
  omega

theorem locate_node (c : Config.Caps) (i : Fin 511) (j : Fin 4) :
    locate c (BitVec.ofNat 20 (0x2000 + 16 * i.val + 4 * j.val)) = some (.node i j) := by
  have hi := i.isLt
  have hj := j.isLt
  unfold locate
  rw [hostAddr_toNat (by omega)]
  dsimp only
  rw [if_neg (by omega), if_neg (by omega), if_neg (by omega), if_pos (by omega), Option.some.injEq, Location.node.injEq,
    Fin.ext_iff, Fin.ext_iff, Fin.val_ofNat, Fin.val_ofNat]
  omega

theorem locate_code (c : Config.Caps) (y : Fin 256) (j : Fin 16) :
    locate c (BitVec.ofNat 20 (0x4000 + 64 * y.val + 4 * j.val)) = some (.code y j) := by
  have hy := y.isLt
  have hj := j.isLt
  unfold locate
  rw [hostAddr_toNat (by omega)]
  dsimp only
  rw [if_neg (by omega), if_neg (by omega), if_neg (by omega), if_neg (by omega), if_pos (by omega), Option.some.injEq,
    Location.code.injEq, Fin.ext_iff, Fin.ext_iff, Fin.val_ofNat, Fin.val_ofNat]
  omega

/-- Past the tables the map is the three buffers' ranges. -/
theorem locate_buffers (c : Config.Caps) {n : Nat} (h4 : n % 4 = 0) (hlo : 0x10000 ≤ n) (hhi : n < 0x100000) :
    locate c (BitVec.ofNat 20 n) =
      if n < 0x10000 + c.inCap then some (.inBuf (n - 0x10000))
      else if 0x40000 ≤ n ∧ n < 0x40000 + c.tokCap then some (.tokBuf (n - 0x40000))
      else if 0x80000 ≤ n ∧ n < 0x80000 + c.outCap then some (.outBuf (n - 0x80000))
      else none := by
  unfold locate
  rw [hostAddr_toNat hhi]
  dsimp only
  rw [if_neg (by omega), if_neg (by omega), if_neg (by omega), if_neg (by omega), if_neg (by omega)]
  simp only [hlo, true_and]

section
variable {c : Config.Caps} (hv : c.valid = true) {m : Nat}
include hv

theorem locate_inBufWord (hm : 4 * m < c.inCap) : locate c (BitVec.ofNat 20 (0x10000 + 4 * m)) = some (.inBuf (4 * m)) := by
  obtain ⟨⟨-, -, hin⟩, -, -⟩ := (Config.Caps.valid_iff c).mp hv
  rw [locate_buffers c (by omega) (by omega) (by omega), if_pos (by omega), Nat.add_sub_cancel_left]

theorem locate_tokBufWord (hm : 4 * m < c.tokCap) : locate c (BitVec.ofNat 20 (0x40000 + 4 * m)) = some (.tokBuf (4 * m)) := by
  obtain ⟨⟨-, -, hin⟩, ⟨-, -, htok⟩, -⟩ := (Config.Caps.valid_iff c).mp hv
  rw [locate_buffers c (by omega) (by omega) (by omega), if_neg (by omega), if_pos (by omega), Nat.add_sub_cancel_left]

theorem locate_outBufWord (hm : 4 * m < c.outCap) : locate c (BitVec.ofNat 20 (0x80000 + 4 * m)) = some (.outBuf (4 * m)) := by
  obtain ⟨⟨-, -, hin⟩, ⟨-, -, htok⟩, ⟨-, -, hout⟩⟩ := (Config.Caps.valid_iff c).mp hv
  rw [locate_buffers c (by omega) (by omega) (by omega), if_neg (by omega), if_neg (by omega), if_pos (by omega),
    Nat.add_sub_cancel_left]

end

end Sys2Proof.Machine
end

section
/-! SUPPORT. What a transaction answers at a location of each kind (R51, R52), and the four lanes of a buffer word (R56). -/

namespace Sys2Proof.Machine

/-! ## Transactions by location -/

theorem eq_addr_of_locate {c : Config.Caps} {a : HostAddr} {r : Reg} (h : locate c a = some (.reg r)) : a = r.addr := by
  rcases locate_cases h with ⟨r', hr, ha⟩ | ⟨_, hr, -⟩ | ⟨_, _, hr, -⟩ | ⟨_, _, hr, -⟩ | ⟨_, hr | hr | hr, -⟩
  on_goal 1 => rw [ha, Location.reg.inj hr]
  all_goals cases hr

/-- The locations `store_word` of R52 serves: the writable ones but CTRL, CMD and STATUS (`stores_iff`). -/
def Location.stores : Location → Bool
  | .reg .inLen | .reg .tokLen | .freq _ | .inBuf _ | .tokBuf _ | .outBuf _ => true
  | _ => false

theorem Location.stores_iff (l : Location) :
    l.stores = true ↔ l.readOnly = false ∧ l ≠ .reg .status ∧ l ≠ .reg .ctrl ∧ l ≠ .reg .cmd := by
  cases l with
  | reg r => cases r <;> decide
  | freq | node | code | inBuf | tokBuf | outBuf => simp [Location.stores, Location.readOnly]

section
variable {a : HostAddr} {s : State} {l : Location} {d : Word}

theorem hostRead_unmapped (h : locate s.caps a = none) : hostRead a s = ({ data := 0, err := true }, s.flagBusErr) := by
  simp [hostRead, h]

theorem hostRead_cmd (s : State) : hostRead Reg.cmd.addr s = ({ data := 0, err := false }, s) := by
  simp [hostRead]

/-- A location a busy engine hides reads as the next draw (R64). -/
theorem hostRead_hidden (h : locate s.caps a = some l) (hc : l ≠ .reg .cmd) (hb : s.busy = true)
    (hx : l.exactWhileBusy = false) :
    hostRead a s = ({ data := Config.drawWord s.draws, err := false }, { s with draws := s.draws + 1 }) := by
  simp [hostRead, h, hc, hb, hx]

theorem hostRead_reg {r : Reg} (hc : r ≠ .cmd) (hx : s.busy = false ∨ (Location.reg r).exactWhileBusy = true) :
    hostRead r.addr s = ({ data := s.regWord r, err := false }, s) :=
  hostRead_exactReg (locate_addr s.caps r) hc hx

/-- An idle read that takes no draw leaves the state as it is. -/
theorem hostRead_drawFree (h : locate s.caps a = some l) (hc : l ≠ .reg .cmd) (hb : s.busy = false)
    (hw : s.wordAt l = d) (hn : s.drawsAt l = 0) : hostRead a s = ({ data := d, err := false }, s) := by
  rw [hostRead_exact h hc (.inl hb), hw, hn]
  rfl

theorem hostWrite_unmapped (h : locate s.caps a = none) : hostWrite a d s = (true, s.flagBusErr) := by
  simp [hostWrite, h]

theorem hostWrite_readOnly (h : locate s.caps a = some l) (hr : l.readOnly = true) :
    hostWrite a d s = (true, s.flagBusErr) := by
  simp [hostWrite, h, hr]

/-- A busy engine drops a write to any writable location but STATUS and CTRL (R63). -/
theorem hostWrite_dropped (h : locate s.caps a = some l) (hr : l.readOnly = false) (hs : l ≠ .reg .status)
    (hc : l ≠ .reg .ctrl) (hb : s.busy = true) : hostWrite a d s = (true, s.flagBusyViol) := by
  simp [hostWrite, h, hr, hs, hc, hb]

/-- An idle engine stores a word at the locations `store_word` serves (R52). -/
theorem hostWrite_stored (h : locate s.caps a = some l) (hl : l.stores = true) (hb : s.busy = false) :
    hostWrite a d s = (false, s.storeWord l d) := by
  obtain ⟨hr, hs, hc, hm⟩ := l.stores_iff.mp hl
  simp [hostWrite, h, hr, hs, hc, hm, hb]

end

/-- While busy only the exempt registers and CMD are not hidden (R64). -/
theorem exactWhileBusy_of_not_exempt {c : Config.Caps} {a : HostAddr} {l : Location} (h : locate c a = some l)
    (ha : a.toNat ∉ [0x00, 0x04, 0x08, 0x0C, 0x10, 0x14, 0x18]) : l ≠ .reg .cmd ∧ l.exactWhileBusy = false := by
  cases l with
  | reg r =>
    obtain rfl := eq_addr_of_locate h
    revert ha
    cases r <;> decide
  | freq | node | code | inBuf | tokBuf | outBuf => exact ⟨by simp, rfl⟩

/-! ## Register words -/

theorem State.ctrlWord_eq_ite (s : State) : s.ctrlWord = if s.irqEn then 1 else 0 := by
  unfold State.ctrlWord
  cases s.irqEn <;> rfl

/-- A write of CTRL keeps bit 0 of the data alone (R26). -/
theorem State.ctrlWord_writeCtrl (s : State) (d : Word) : (s.writeCtrl d).ctrlWord = BitVec.ofNat 32 (d.toNat % 2) := by
  rw [State.ctrlWord_eq_ite, State.writeCtrl_irqEn, BitVec.getLsbD, Nat.testBit_zero]
  rcases Nat.mod_two_eq_zero_or_one d.toNat with h | h <;> rw [h] <;> rfl

theorem State.statusWord_bit0 (s : State) : s.statusWord.getLsbD 0 = s.busy := by
  rw [State.statusWord, BitVec.getLsbD_setWidth, BitVec.getLsbD_ofBoolListLE]
  rfl

theorem State.rootWeight_toNat (s : State) :
    s.rootWeight.toNat = if s.status.treePresent then (s.node.get s.root).weight.toNat else 0 := by
  unfold State.rootWeight
  split <;> rfl

theorem State.regWord_rootWeightLo (s : State) : s.regWord .rootWeightLo = BitVec.ofNat 32 (s.rootWeight.toNat % 2 ^ 32) := by
  apply BitVec.eq_of_toNat_eq
  simp [State.regWord]

theorem State.regWord_rootWeightHi (s : State) : s.regWord .rootWeightHi = BitVec.ofNat 32 (s.rootWeight.toNat / 2 ^ 32) := by
  have hlt := s.rootWeight.isLt
  apply BitVec.eq_of_toNat_eq
  rw [show s.regWord .rootWeightHi = 0#24 ++ s.rootWeight.extractLsb' 32 8 from rfl, BitVec.toNat_append,
    BitVec.extractLsb'_toNat, Nat.shiftRight_eq_div_pow, BitVec.toNat_ofNat]
  simp
  omega

/-! ## Lanes of a word (R56) -/

theorem lane_eq (d : Word) (b : Nat) : lane d b = BitVec.ofNat 8 (d.toNat / 2 ^ (8 * b)) := by
  rw [lane, BitVec.extractLsb', Nat.shiftRight_eq_div_pow]

@[simp] theorem lanesOf_length (d : Word) : (lanesOf d).length = 4 := rfl

theorem lanesOf_getElem? (d : Word) {b : Nat} (hb : b < 4) :
    (lanesOf d)[b]? = some (BitVec.ofNat 8 (d.toNat / 2 ^ (8 * b))) := by
  rw [← lane_eq]
  match b, hb with
  | 0, _ | 1, _ | 2, _ | 3, _ => rfl

/-- Bit `i` of a word is bit `i % 8` of its lane `i / 8`, lane 0 lowest. -/
theorem getLsbD_wordOfLanes (b0 b1 b2 b3 : Byte) (i : Nat) : (wordOfLanes b0 b1 b2 b3).getLsbD i =
    if i < 8 then b0.getLsbD i else if i < 16 then b1.getLsbD (i - 8)
    else if i < 24 then b2.getLsbD (i - 16) else b3.getLsbD (i - 24) := by
  rw [show (wordOfLanes b0 b1 b2 b3).getLsbD i = (b3 ++ b2 ++ b1 ++ b0).getLsbD i from rfl]
  simp only [BitVec.getLsbD_append, Nat.sub_sub]
  grind

/-- The lanes of a word made of four elements are those elements. -/
theorem lanesOf_wordOfList {vs : List Byte} (h : vs.length = 4) : lanesOf (wordOfList vs) = vs := by
  match vs, h with
  | [b0, b1, b2, b3], _ =>
    simp only [wordOfList, lanesOf, List.cons.injEq, and_true]
    refine ⟨?_, ?_, ?_, ?_⟩ <;> (ext i hi; grind [lane, getLsbD_wordOfLanes])

theorem wordOfList_lanesOf (d : Word) : wordOfList (lanesOf d) = d := by
  apply BitVec.eq_of_getLsbD_eq
  intro i hi
  simp only [lanesOf, wordOfList, getLsbD_wordOfLanes, lane, BitVec.getLsbD_extractLsb']
  grind

/-! ## Elements read in order (R48) -/

/-- How many draws precede an element is how many elements before it are unwritten. -/
theorem Memory.drawCount_eq (m : Memory) (k n : Nat) : m.drawCount k n = m.unwrittenIn k n := by
  induction n generalizing k with
  | zero => rfl
  | succ n ih =>
    rw [Memory.drawCount, ih]
    cases h : m.read k <;>
      simp [Memory.unwrittenIn, List.range_succ_eq_map, List.filter_map, Function.comp_def, Nat.add_left_comm k,
        Nat.add_comm, h]

/-- The element `b` places on: as written, or the draw after those the elements before it took. -/
theorem Memory.readList_getElem? (m : Memory) (d k : Nat) {n b : Nat} (hb : b < n) :
    (m.readList d k n)[b]? = some ((m.read (k + b)).getD (Config.drawByte (d + m.drawCount k b))) := by
  induction n generalizing d k b with
  | zero => omega
  | succ n ih =>
    cases b with
    | zero =>
      unfold Memory.readList
      cases h : m.read k <;> simp [Memory.drawCount]
    | succ b =>
      have hb : b < n := by omega
      rw [Memory.readList, Memory.drawCount, show k + (b + 1) = k + 1 + b by omega]
      cases h : m.read k with
      | none => rw [List.getElem?_cons_succ, ih _ _ hb, Nat.add_right_comm d]; rfl
      | some v => exact ih _ _ hb

/-- A sequence just written reads back as it is, with no draw. -/
theorem Memory.readList_writeList (vs : List Byte) (m : Memory) (d k : Nat) :
    (m.writeList k vs).readList d k vs.length = vs := by
  apply List.ext_getElem?
  intro j
  by_cases hj : j < vs.length
  · rw [List.getElem?_eq_getElem hj]
    exact Memory.readList_written _ d k vs.length j hj _ (Memory.read_writeList_inside vs m k j hj)
  · rw [List.getElem?_eq_none (by simpa using hj), List.getElem?_eq_none (by omega)]

theorem Memory.drawCount_writeList (vs : List Byte) (m : Memory) (k : Nat) :
    (m.writeList k vs).drawCount k vs.length = 0 :=
  Memory.drawCount_written _ k vs.length fun j hj => by rw [Memory.read_writeList_inside vs m k j hj, Option.isSome_some]

/-! ## A buffer word -/

section
variable (m : Memory) (k : Nat) (d : Word)

theorem Memory.read_writeWord_lane {b : Nat} (hb : b < 4) :
    (m.writeList k (lanesOf d)).read (k + b) = some (BitVec.ofNat 8 (d.toNat / 2 ^ (8 * b))) :=
  (Memory.read_writeList_inside (lanesOf d) m k b hb).trans
    ((List.getElem?_eq_getElem hb).symm.trans (lanesOf_getElem? d hb))

theorem Memory.read_writeWord_other {j : Nat} (hj : j < k ∨ k + 4 ≤ j) :
    (m.writeList k (lanesOf d)).read j = m.read j := by
  rcases hj with hj | hj
  · exact Memory.read_writeList_before (lanesOf d) m k j hj
  · exact Memory.read_writeList_after (lanesOf d) m k j hj

theorem Memory.readWord_writeWord (draws : Nat) : (m.writeList k (lanesOf d)).readWord draws k = d :=
  (congrArg wordOfList (Memory.readList_writeList (lanesOf d) m draws k)).trans (wordOfList_lanesOf d)

theorem Memory.drawCount_writeWord : (m.writeList k (lanesOf d)).drawCount k 4 = 0 :=
  Memory.drawCount_writeList (lanesOf d) m k

/-- Each lane of a buffer word is its element: as written, or the next draw. -/
theorem Memory.readWord_lane (draws : Nat) {b : Nat} (hb : b < 4) :
    BitVec.ofNat 8 ((m.readWord draws k).toNat / 2 ^ (8 * b)) =
      (m.read (k + b)).getD (Config.drawByte (draws + m.unwrittenIn k b)) := by
  have hlen : (m.readList draws k 4).length = 4 := m.readList_length draws k 4
  rw [← Option.some.injEq, ← lanesOf_getElem? _ hb, Memory.readWord, lanesOf_wordOfList hlen,
    m.readList_getElem? draws k hb, m.drawCount_eq]

end

/-! ## What is stored reads back -/

/-- A stored word is what its location then presents, with no draw. -/
theorem State.wordAt_storeWord (s : State) {l : Location} (d : Word) (hl : l.stores = true) :
    (s.storeWord l d).wordAt l = d ∧ (s.storeWord l d).drawsAt l = 0 := by
  cases l with
  | reg r =>
    cases r
    case inLen | tokLen => exact ⟨rfl, rfl⟩
    all_goals cases hl
  | freq y => exact ⟨Vector.getElem_set_self y.isLt, rfl⟩
  | node i j => cases hl
  | code y j => cases hl
  | inBuf k => exact ⟨s.inBuf.readWord_writeWord k d s.draws, s.inBuf.drawCount_writeWord k d⟩
  | tokBuf k => exact ⟨s.tokBuf.readWord_writeWord k d s.draws, s.tokBuf.drawCount_writeWord k d⟩
  | outBuf k => exact ⟨s.outBuf.readWord_writeWord k d s.draws, s.outBuf.drawCount_writeWord k d⟩

theorem State.storeWord_frame (s : State) (l : Location) (d : Word) :
    (s.storeWord l d).caps = s.caps ∧ (s.storeWord l d).eng = s.eng := by
  rw [s.storeWord_state l d]
  exact ⟨rfl, rfl⟩

/-- An idle write where `store_word` serves is answered without error, and the location then reads as written. -/
theorem hostWrite_readBack {a : HostAddr} {s : State} {l : Location} (d : Word) (h : locate s.caps a = some l)
    (hl : l.stores = true) (hb : s.busy = false) :
    hostWrite a d s = (false, s.storeWord l d) ∧
      hostRead a (s.storeWord l d) = ({ data := d, err := false }, s.storeWord l d) := by
  obtain ⟨hword, hdraws⟩ := s.wordAt_storeWord d hl
  obtain ⟨-, -, -, hcmd⟩ := l.stores_iff.mp hl
  obtain ⟨hcaps, heng⟩ := s.storeWord_frame l d
  have hidle : (s.storeWord l d).busy = false := by rwa [State.busy_false_iff, heng, ← State.busy_false_iff]
  exact ⟨hostWrite_stored h hl hb, hostRead_drawFree (hcaps ▸ h) hcmd hidle hword hdraws⟩

/-- An idle read of a location that presents four elements of a buffer gives them in their lanes. -/
theorem readsLanes_of_locate {s : State} {a : HostAddr} {l : Location} {m : Memory} {k : Nat} (h : locate s.caps a = some l)
    (hc : l ≠ .reg .cmd) (hb : s.busy = false) (hw : s.wordAt l = m.readWord s.draws k)
    (hn : s.drawsAt l = m.drawCount k 4) : readsLanes s a m k := by
  rw [readsLanes, hostRead_exact h hc (.inl hb), hw, hn, m.drawCount_eq]
  exact ⟨rfl, rfl, fun b hb4 => m.readWord_lane k s.draws hb4⟩

end Sys2Proof.Machine
end

section
/-! SUPPORT. The port's transfers, move by move (R73, R74), and what every move but a transfer leaves of the port. -/

namespace Sys2Proof.Machine

/-- The outstanding response, the waiting requests, the responses taken and those still to be taken. -/
def State.portHeld (s : State) : Option Response × List Request × List Response × Option Nat :=
  (s.rsp, s.requests, s.received, s.accepts)

/-- No command reaches the port: its completion transfers nothing. -/
theorem commandOf_portHeld (i : Instr) (s : State) : (commandOf i s).finish.portHeld = s.portHeld := by
  rcases commandOf_cases i s with ⟨_, _, _, _, -, h⟩ | ⟨_, _, _, h⟩ | ⟨-, h⟩ | ⟨-, h⟩ | ⟨-, -, h⟩ | ⟨-, h⟩ | ⟨-, h⟩ <;> rw [h]
  on_goal 5 => rw [decodeBody_finish]
  on_goal 6 => rw [encodeBody_finish]
  on_goal 7 => rw [encodeBody_finish]
  all_goals rfl

theorem hostRead_requests (a : HostAddr) (s : State) : (hostRead a s).2.requests = s.requests := by
  rw [hostRead_state]

theorem hostWrite_requests (a : HostAddr) (d : Word) (s : State) : (hostWrite a d s).2.requests = s.requests := by
  rcases hostWrite_result a d s with h | h | h | h | ⟨-, h⟩ | ⟨l, -, h⟩ <;> rw [h]
  on_goal 6 => rw [s.storeWord_state l d]
  all_goals rfl

/-- A transfer leaves the requests behind it waiting, and its response outstanding (R73, R74). -/
theorem State.transfer_port (s : State) (r : Request) :
    (s.transfer r).requests = s.requests ∧ (s.transfer r).rsp.isSome = true := by
  cases r with
  | read a => exact ⟨hostRead_requests a s, rfl⟩
  | write a d => exact ⟨hostWrite_requests a d s, rfl⟩

section
variable {s : State}

theorem nextMove_of_schedule {m : Move} {ms : List Move} (h : s.schedule = m :: ms) : s.nextMove = m := by
  rw [State.nextMove, h]

theorem popped_of_schedule {m : Move} {ms : List Move} (h : s.schedule = m :: ms) : s.popped = { s with schedule := ms } := by
  rw [State.popped, h, List.tail_cons]

/-- With no response outstanding the oldest waiting request transfers (R73). -/
theorem step_request_free (hm : s.nextMove = .request) {r : Request} {rs : List Request} (hrsp : s.rsp = none)
    (hreq : s.requests = r :: rs) : step s = .next (State.transfer { s.popped with requests := rs } r) := by
  simp [step_eq, hm, perform, State.requestEdge, hrsp, hreq]

theorem step_request_outstanding (hm : s.nextMove = .request) (hrsp : s.rsp ≠ none) : step s = .next s.popped := by
  obtain ⟨r, hr⟩ := Option.ne_none_iff_exists'.mp hrsp
  simp [step_eq, hm, perform, State.requestEdge, hr]

/-- The outstanding response goes to a host that still takes responses (R74). -/
theorem step_response_taken (hm : s.nextMove = .response) {r : Response} (hrsp : s.rsp = some r)
    (hacc : s.hostStalls = false) :
    step s = .next { s.popped.countAccepted with rsp := none, received := r :: s.received } := by
  have hacc' : s.popped.hostStalls = false := hacc
  simp [step_eq, hm, perform, State.responseEdge, hrsp, hacc']

end

/-- A host that takes no more responses stalls the port: only a reset moves it (R230, U18). -/
theorem step_portHeld_of_stalls {s t : State} (hrsp : s.rsp ≠ none) (hacc : s.hostStalls = true) (hrst : s.rst = false)
    (h : step s = .next t) : t.portHeld = s.portHeld := by
  rcases perform_cases s.nextMove s.popped t h with rfl | ⟨r, rs, -, hnone, -, -⟩ | ⟨r, -, -, htakes, -⟩ |
    ⟨w, i, -, -, -, rfl⟩ | ⟨w, e, -, -, -, rfl⟩ | ⟨hm, -⟩
  · rfl
  · exact absurd hnone hrsp
  · exact absurd (hacc.symm.trans htakes) (by decide)
  · exact commandOf_portHeld i s.popped
  · rfl
  · exact absurd (s.rst_iff.mpr hm) (by simp [hrst])

end Sys2Proof.Machine
end

section
/-! PROOFS. The statements of the family 20_memory.md. -/

namespace Sys2Proof.Proofs

open Sys2Proof.Machine

/-- Settles O46: the map's ranges are R53's, and each table and buffer word has its own place. -/
theorem addressMapPlacesEveryTable : Obligations.AddressMapPlacesEveryTable := fun c hv =>
  ⟨locate_isSome_iff c, locate_freq c, locate_node c, locate_code c, fun _ => locate_inBufWord hv,
    fun _ => locate_tokBufWord hv, fun _ => locate_outBufWord hv⟩

/-- Settles O45: an address without a location, and a write at a read-only location, flag the bus error and do no more. -/
theorem unmappedAndReadOnlyAccessesAreBusErrors : Obligations.UnmappedAndReadOnlyAccessesAreBusErrors := by
  intro s a d _
  refine ⟨fun hm => ?_, fun hro => ?_⟩
  · have hl := locate_of_not_mapped hm
    exact ⟨hostRead_unmapped hl, hostWrite_unmapped hl⟩
  · obtain ⟨l, hl⟩ := locate_of_mapped (mapped_of_readOnlyAddr (c := s.caps) hro)
    exact hostWrite_readOnly hl ((readOnly_iff hl).mpr hro)

/-- Settles O43: past the read-only check a busy engine lets only STATUS and CTRL be written. -/
theorem hostCannotTouchARunningCommand : Obligations.HostCannotTouchARunningCommand := by
  intro s d hb
  refine ⟨fun a hm hro hstatus hctrl => ?_, hostWrite_status (locate_status s.caps), hostWrite_ctrl (locate_ctrl s.caps),
    fun a => ?_⟩
  · obtain ⟨l, hl⟩ := locate_of_mapped hm
    have hr : l.readOnly = false := by rwa [← readOnly_iff hl, Bool.not_eq_true] at hro
    refine hostWrite_dropped hl hr ?_ ?_ hb
    · rintro rfl
      exact hstatus (eq_addr_of_locate hl)
    · rintro rfl
      exact hctrl (eq_addr_of_locate hl)
  · rcases hostWrite_cases a d s with ⟨-, h⟩ | ⟨_, -, -, h⟩ | ⟨-, h⟩ | ⟨-, h⟩ | ⟨_, -, -, -, -, -, h⟩ | ⟨-, hidle, -⟩ |
      ⟨_, -, -, -, -, -, hidle, -⟩
    on_goal 6 => exact absurd (hb.symm.trans hidle) (by decide)
    on_goal 6 => exact absurd (hb.symm.trans hidle) (by decide)
    all_goals exact ⟨_, _, _, _, congrArg Prod.snd h⟩

/-- Settles O44: the exempt registers read exactly, and any other location but CMD is hidden behind a draw. -/
theorem busyReadsAreDrawsButForTheExemptOnes : Obligations.BusyReadsAreDrawsButForTheExemptOnes := by
  intro s hb
  have read {r : Reg} (hc : r ≠ .cmd) (hx : (Location.reg r).exactWhileBusy = true) := hostRead_reg (s := s) hc (.inr hx)
  refine ⟨read (r := .id) (by decide) rfl, read (r := .paramInCap) (by decide) rfl, read (r := .paramTokCap) (by decide) rfl,
    read (r := .paramOutCap) (by decide) rfl, ?_, read (r := .status) (by decide) rfl, ?_, hostRead_cmd s, fun a hm ha => ?_⟩
  · rw [← s.ctrlWord_eq_ite]
    exact read (r := .ctrl) (by decide) rfl
  · rw [s.statusWord_bit0, hb]
  · obtain ⟨l, hl⟩ := locate_of_mapped hm
    obtain ⟨hc, hx⟩ := exactWhileBusy_of_not_exempt hl ha
    exact hostRead_hidden hl hc hb hx

/-- Settles O50: an idle engine presents every register and table word with no draw, and what is stored reads back. -/
theorem idleReadsAndWritesOfRegistersAndTables : Obligations.IdleReadsAndWritesOfRegistersAndTables := by
  intro s d hidle
  have hb : s.busy = false := State.busy_of_idle hidle
  have read {r : Reg} (hc : r ≠ .cmd) := hostRead_reg (s := s) hc (.inl hb)
  have errCodeRead : s.regWord .errCode = BitVec.ofNat 32 s.errCode.toCode.toNat :=
    (BitVec.ofNat_toNat 32 s.errCode.toCode).symm
  obtain ⟨writeInLen, readInLen⟩ := hostWrite_readBack d (locate_addr s.caps .inLen) rfl hb
  obtain ⟨writeTokLen, readTokLen⟩ := hostWrite_readBack d (locate_addr s.caps .tokLen) rfl hb
  refine ⟨errCodeRead ▸ read (r := .errCode) (by decide), rfl, hostRead_cmd s, read (r := .errPos) (by decide),
    read (r := .inLen) (by decide), read (r := .tokLen) (by decide), read (r := .outLen) (by decide),
    read (r := .root) (by decide), read (r := .nodeCount) (by decide), read (r := .leafCount) (by decide), ?_,
    fun y => ?_, fun i j => ?_, fun y j => ?_, writeInLen, congrArg Prod.fst readInLen, writeTokLen,
    congrArg Prod.fst readTokLen, fun y => ?_, hostWrite_ctrl (locate_ctrl s.caps), ?_⟩
  · rintro v rfl
    rw [← s.rootWeight_toNat, ← s.regWord_rootWeightLo, ← s.regWord_rootWeightHi]
    exact ⟨read (r := .rootWeightLo) (by decide), read (r := .rootWeightHi) (by decide)⟩
  · exact hostRead_drawFree (locate_freq s.caps y) (by simp) hb rfl rfl
  · exact hostRead_drawFree (locate_node s.caps i j) (by simp) hb rfl rfl
  · exact hostRead_drawFree (locate_code s.caps y j) (by simp) hb rfl rfl
  · obtain ⟨hwrite, hread⟩ := hostWrite_readBack d (locate_freq s.caps y) rfl hb
    exact ⟨_, hwrite, rfl, Vector.getElem_set_self y.isLt,
      fun z hz => Vector.getElem_set_ne y.isLt z.isLt (Fin.val_ne_of_ne hz.symm), congrArg Prod.fst hread⟩
  · rw [← s.ctrlWord_writeCtrl d]
    exact congrArg Prod.fst (hostRead_reg (s := s.writeCtrl d) (r := .ctrl) (by decide) (.inl hb))

/-- Settles O51: a stored buffer word is its four lanes and reads back; a read gives each element, written or drawn, in its lane. -/
theorem bufferWordsAndIdleReads : Obligations.BufferWordsAndIdleReads := by
  intro s d m hv hidle
  have hb : s.busy = false := State.busy_of_idle hidle
  refine ⟨fun hm => ?_, fun hm => ?_, fun hm => ?_, fun hm => ?_, fun hm => ?_, fun hm => ?_, fun a hm => ?_⟩
  · obtain ⟨hwrite, hread⟩ := hostWrite_readBack d (locate_inBufWord hv hm) rfl hb
    exact ⟨_, hwrite, rfl, fun _ => s.inBuf.read_writeWord_lane _ d, fun _ => s.inBuf.read_writeWord_other _ d, hread⟩
  · obtain ⟨hwrite, hread⟩ := hostWrite_readBack d (locate_tokBufWord hv hm) rfl hb
    exact ⟨_, hwrite, rfl, fun _ => s.tokBuf.read_writeWord_lane _ d, fun _ => s.tokBuf.read_writeWord_other _ d, hread⟩
  · obtain ⟨hwrite, hread⟩ := hostWrite_readBack d (locate_outBufWord hv hm) rfl hb
    exact ⟨_, hwrite, rfl, fun _ => s.outBuf.read_writeWord_lane _ d, fun _ => s.outBuf.read_writeWord_other _ d, hread⟩
  · exact readsLanes_of_locate (locate_inBufWord hv hm) (by simp) hb rfl rfl
  · exact readsLanes_of_locate (locate_tokBufWord hv hm) (by simp) hb rfl rfl
  · exact readsLanes_of_locate (locate_outBufWord hv hm) (by simp) hb rfl rfl
  · obtain ⟨l, hl⟩ := locate_of_mapped hm
    by_cases hc : l = .reg .cmd
    · subst hc
      obtain rfl := eq_addr_of_locate hl
      exact ⟨s.draws, by rw [hostRead_cmd], by rw [hostRead_cmd]⟩
    · rw [hostRead_exact hl hc (.inl hb)]
      exact ⟨_, rfl, rfl⟩

/-- Settles O7: a request transfers only with no response outstanding, a response only to a host that takes it, and no other move but a reset reaches the port. -/
theorem portTransfersOneAtATime : Obligations.PortTransfersOneAtATime := by
  refine ⟨fun s ms => ⟨fun hs hrsp => ?_, fun hs hrsp => ?_, fun r hs hrsp => ?_⟩, fun s t r hrsp hacc hrst h => ?_,
    fun s => ⟨fun h => ?_, fun h => ?_, fun h hv => ?_, fun h => ?_, fun r h hrsp => ?_, fun a rs hreq => ?_,
      fun a d rs hreq => ?_⟩⟩
  · refine ⟨fun a rs hreq => ?_, fun a d rs hreq => ?_⟩ <;>
      rw [step_request_free (nextMove_of_schedule hs) hrsp hreq, popped_of_schedule hs] <;> rfl
  · rw [step_request_outstanding (nextMove_of_schedule hs) hrsp, popped_of_schedule hs]
  · refine ⟨fun hacc => ?_, fun n hacc => ?_⟩ <;>
      rw [step_response_taken (nextMove_of_schedule hs) hrsp (by simp [State.hostStalls, hacc]), popped_of_schedule hs,
        State.countAccepted, hacc] <;> rfl
  · have held := step_portHeld_of_stalls (by simp [hrsp]) (by simp [hacc]) hrst h
    simp only [State.portHeld, Prod.mk.injEq] at held
    obtain ⟨hr, hreq, hrec, ha⟩ := held
    exact ⟨hr.trans hrsp, ha.trans hacc, hreq, hrec⟩
  · obtain ⟨hm, hrsp⟩ := s.reqReady_iff.mp h
    exact ⟨hrsp, by simp [State.rst, hm]⟩
  · have hm := s.rst_iff.mp h
    exact ⟨by simp [State.reqReady, hm], by simp [State.rspValid, State.rspPort, h]⟩
  · obtain ⟨hm, hrsp⟩ := s.reqReady_iff.mp h
    obtain ⟨r, rs, hreq⟩ : ∃ r rs, s.requests = r :: rs := by
      rw [State.reqValid, State.reqPort, List.isSome_head?] at hv
      exact List.exists_cons_of_ne_nil hv
    obtain ⟨hrest, hout⟩ := State.transfer_port { s.popped with requests := rs } r
    exact ⟨_, step_request_free hm hrsp hreq, by rw [hrest, hreq]; rfl, hout⟩
  · simp [State.rspValid, State.rspRdata, State.rspErr, State.rspPort, h]
  · obtain ⟨hm, hacc⟩ := s.rspReady_iff.mp h
    exact ⟨_, step_response_taken hm hrsp hacc, rfl, rfl⟩
  · simp [State.reqValid, State.reqWrite, State.reqAddr, State.reqPort, hreq, Request.isWrite, Request.addr]
  · simp [State.reqValid, State.reqWrite, State.reqAddr, State.reqWdata, State.reqPort, hreq, Request.isWrite, Request.addr,
      Request.wdata]

end Sys2Proof.Proofs
end

section
/-! SUPPORT. The decoder, read as a statement about the number of a word (30_encoding.md R80, R81, R84, R92). -/

namespace Sys2Proof

/-! ## The fields of a command word (R80) -/

@[simp] theorem opField_toNat (w : Word) : (opField w).toNat = w.toNat % 16 := by
  rw [opField, BitVec.extractLsb'_toNat, Nat.shiftRight_zero]

@[simp] theorem rsvdField_toNat (w : Word) : (rsvdField w).toNat = w.toNat / 16 := by
  have hlt := w.isLt
  rw [rsvdField, BitVec.extractLsb'_toNat, Nat.shiftRight_eq_div_pow]
  omega

theorem rsvdField_eq_zero_iff (w : Word) : rsvdField w = 0 ↔ w.toNat / 16 = 0 := by
  rw [← BitVec.toNat_inj, rsvdField_toNat]
  rfl

/-! ## The opcode map (R81) -/

theorem instrOfOp_opOfInstr (i : Instr) : instrOfOp (opOfInstr i) = some i := by cases i <;> rfl

theorem instrOfOp_eq_some_iff {op : BitVec 4} {i : Instr} : instrOfOp op = some i ↔ op = opOfInstr i := by
  refine ⟨fun h => ?_, fun h => h ▸ instrOfOp_opOfInstr i⟩
  unfold instrOfOp at h
  split at h <;> cases h <;> exact BitVec.eq_of_toNat_eq ‹_›

theorem instrOfOp_eq_none_iff (op : BitVec 4) : instrOfOp op = none ↔ 7 ≤ op.toNat := by
  revert op
  decide

theorem opOfInstr_toNat_lt (i : Instr) : (opOfInstr i).toNat < 7 := by cases i <;> decide

/-! ## The decoder (R92) and the encoder -/

theorem decodeWord_of_rsvd {w : Word} (h : rsvdField w ≠ 0) : decodeWord w = .error .reservedBits := if_pos h

/-- With RSVD = 0 the decoder reads OP alone. -/
theorem decodeWord_of_op {w : Word} (h : rsvdField w = 0) :
    decodeWord w = (instrOfOp (opField w)).elim (.error .reservedOpcode) .ok := by
  rw [decodeWord, if_neg (not_not_intro h)]
  cases instrOfOp (opField w) <;> rfl

/-- A word decodes to a command exactly when RSVD is 0 and OP is the command's opcode. -/
theorem decodeWord_ok_iff {w : Word} {i : Instr} :
    decodeWord w = .ok i ↔ w.toNat / 16 = 0 ∧ w.toNat % 16 = (opOfInstr i).toNat := by
  rw [← rsvdField_eq_zero_iff, ← opField_toNat, BitVec.toNat_inj, ← instrOfOp_eq_some_iff]
  by_cases hr : rsvdField w = 0
  · rw [decodeWord_of_op hr]
    cases instrOfOp (opField w) <;> simp [hr]
  · exact iff_of_false (by simp [decodeWord_of_rsvd hr]) fun h => hr h.1

/-- A word is ILLEGAL exactly when RSVD is not 0 or OP is a reserved opcode (R84). -/
theorem decodeWord_error_iff {w : Word} :
    (∃ e, decodeWord w = .error e) ↔ w.toNat / 16 ≠ 0 ∨ 7 ≤ w.toNat % 16 := by
  rw [ne_eq, ← rsvdField_eq_zero_iff, ← opField_toNat, ← instrOfOp_eq_none_iff]
  by_cases hr : rsvdField w = 0
  · rw [decodeWord_of_op hr]
    cases instrOfOp (opField w) <;> simp [hr]
  · exact iff_of_true ⟨_, decodeWord_of_rsvd hr⟩ (.inl hr)

theorem encode_toNat (i : Instr) : (encode i).toNat = (opOfInstr i).toNat := by cases i <;> rfl

/-- Below 2^32 the decoder of the opcode table is the decoder of R92. -/
theorem decodeTableWord_eq_some_iff {n : Nat} {i : Instr} (hn : n < 2 ^ 32) :
    decodeTableWord 32 n = some i ↔ decodeWord (BitVec.ofNat 32 n) = .ok i := by
  unfold decodeTableWord
  rw [Nat.mod_eq_of_lt hn]
  dsimp only
  rw [if_pos hn]
  cases decodeWord (BitVec.ofNat 32 n) <;> simp

end Sys2Proof
end

section
/-! SUPPORT. The completion step of an accepted word, from the next move to the report (30_encoding.md R83, 45_control.md R167), and the acceptance of a word. -/

namespace Sys2Proof.Machine

section
variable {s : State} {w : Word}

/-- While a word is accepted the default move is its completion (R231). -/
theorem nextMove_of_default (h : s.schedule = []) (hw : s.eng = .busy w) : s.nextMove = .completion := by
  simp [State.nextMove, State.defaultMove, h, hw]

theorem popped_of_default (h : s.schedule = []) : s.popped = s := by
  rw [State.popped, h, List.tail_nil, ← h]

theorem step_completion (hm : s.nextMove = .completion) (hw : s.eng = .busy w) : step s = completeStep w s.popped := by
  simp [step_eq, hm, perform, hw]

theorem completeStep_of_ok {i : Instr} (h : decodeWord w = .ok i) : completeStep w s = exec i s := by
  rw [completeStep, h]

/-- A reserved word is reported, and nothing else changes (R84, R167). -/
theorem completeStep_of_error (h : ∃ e, decodeWord w = .error e) : completeStep w s =
    .next { s with eng := .idle, errCode := .illegalCmd, errPos := 0, status := s.status.ended true } := by
  obtain ⟨e, he⟩ := h
  rw [completeStep, he]
  rfl

/-- Whether the schedule or the default gives the completion step, it runs on the state with the schedule less its head. -/
theorem step_completions (hw : s.eng = .busy w) :
    (∀ rest, s.schedule = .completion :: rest → step s = completeStep w { s with schedule := rest }) ∧
    (s.schedule = [] → step s = completeStep w s) := by
  refine ⟨fun rest h => ?_, fun h => ?_⟩
  · rw [step_completion (nextMove_of_schedule h) hw, popped_of_schedule h]
  · rw [step_completion (nextMove_of_default h hw) hw, popped_of_default h]

/-- A write of CMD while idle is the acceptance of the word (R52, R83). -/
theorem hostWrite_cmd (d : Word) (hb : s.busy = false) : hostWrite Reg.cmd.addr d s = (false, s.accept d) := by
  simp [hostWrite, Location.readOnly, hb]

end

end Sys2Proof.Machine
end

section
/-! SUPPORT. The words of NODE and CODE as sums of their fields (30_encoding.md R86, R87). -/

namespace Sys2Proof.Machine

/-- Fields side by side are a sum: the upper one counts in units of the lower one's range. -/
theorem append_toNat {m n : Nat} (x : BitVec m) (y : BitVec n) : (x ++ y).toNat = 2 ^ n * x.toNat + y.toNat := by
  rw [BitVec.toNat_append, ← Nat.shiftLeft_add_eq_or_of_lt y.isLt, Nat.shiftLeft_eq, Nat.mul_comm]

section
variable (n : Node)

theorem Node.word_zero_toNat : (n.word 0).toNat = n.weight.toNat % 2 ^ 32 := by
  rw [Node.word, BitVec.extractLsb'_toNat, Nat.shiftRight_zero]

theorem Node.word_one_toNat : (n.word 1).toNat = n.weight.toNat / 2 ^ 32 := by
  have hlt := n.weight.isLt
  rw [Node.word, append_toNat, BitVec.extractLsb'_toNat, Nat.shiftRight_eq_div_pow]
  simp only [BitVec.toNat_zero]
  omega

theorem Node.word_two_toNat : (n.word 2).toNat = n.left.val + 2 ^ 16 * n.right.val := by
  have hl := n.left.isLt
  have hr := n.right.isLt
  simp only [Node.word, append_toNat, BitVec.toNat_ofNat]
  omega

theorem Node.word_three_toNat :
    (n.word 3).toNat = n.sym.toNat + 2 ^ 8 * n.synth.toNat + 2 ^ 31 * n.isInternal.toNat := by
  simp only [Node.word, append_toNat, BitVec.toNat_ofBool, BitVec.toNat_zero]
  omega

end

section
variable (e : CodeEntry)

theorem CodeEntry.word_zero_toNat :
    (e.word 0).toNat = e.len.toNat + 2 ^ 8 * e.valid.toNat + 2 ^ 9 * e.synth.toNat := by
  rw [show e.word 0 = 0#22 ++ BitVec.ofBool e.synth ++ BitVec.ofBool e.valid ++ e.len from rfl]
  simp only [append_toNat, BitVec.toNat_ofBool, BitVec.toNat_zero]
  omega

/-- Words 1 to 8 are the digits from 32 (j - 1) on. -/
theorem CodeEntry.word_digits {j : Fin 16} (hj : 1 ≤ j.val) (hj8 : j.val ≤ 8) {b : Nat} (hb : b < 32) :
    (e.word j).getLsbD b = e.bits.getLsbD (32 * (j.val - 1) + b) := by
  rw [CodeEntry.word, if_neg (by omega), if_pos hj8, BitVec.getLsbD_extractLsb', decide_eq_true hb, Bool.true_and]

theorem CodeEntry.word_above {j : Fin 16} (hj : 9 ≤ j.val) : e.word j = 0 := by
  rw [CodeEntry.word, if_neg (by omega), if_neg (by omega)]

/-- Digit `n` is at bit `n % 32` of word `1 + n / 32`. -/
theorem CodeEntry.word_digit {n : Nat} (hn : n < 255) :
    (e.word (Fin.ofNat 16 (1 + n / 32))).getLsbD (n % 32) = e.bits.getLsbD n := by
  have hj : (Fin.ofNat 16 (1 + n / 32)).val = 1 + n / 32 := Nat.mod_eq_of_lt (by omega)
  rw [e.word_digits (by omega) (by omega) (Nat.mod_lt n (by decide)), hj, Nat.add_sub_cancel_left, Nat.div_add_mod]

/-- BITS has no digit 255. -/
theorem CodeEntry.word_eight_bit31 : (e.word 8).getLsbD 31 = false := by
  rw [e.word_digits (by decide) (by decide) (by decide)]
  exact BitVec.getLsbD_of_ge _ _ (by decide)

end

end Sys2Proof.Machine
end

section
/-! PROOFS. The statements of the family 30_encoding.md. -/

namespace Sys2Proof.Proofs

open Sys2Proof.Machine

/-- Settles O2: each clause is the decoder's condition on RSVD and OP. -/
theorem decodeIsTheOpcodeMap : Obligations.DecodeIsTheOpcodeMap := by
  intro w
  refine ⟨fun hr => decodeWord_error_iff.mpr (.inl hr), fun hr => ?_⟩
  have read (i : Instr) (hop : w.toNat % 16 = (opOfInstr i).toNat) : decodeWord w = .ok i := decodeWord_ok_iff.mpr ⟨hr, hop⟩
  exact ⟨read .nop, read .count, read .buildTree, read .buildTable, read .encode, read .decode, read .compress,
    fun hop => decodeWord_error_iff.mpr (.inr hop)⟩

/-- Settles O3: the encoding is the word whose number is the opcode, and the decoder's condition says just that. -/
theorem decodeAndEncodeAgree : Obligations.DecodeAndEncodeAgree := by
  intro w i
  have hlt := opOfInstr_toNat_lt i
  rw [decodeWord_ok_iff, ← BitVec.toNat_inj, encode_toNat]
  omega

/-- Settles O6: the completion step of an illegal word is its report. -/
theorem reservedWordIsReported : Obligations.ReservedWordIsReported := by
  intro s w hw
  refine ⟨decodeWord_error_iff, fun hreserved => ?_, rfl⟩
  have hill := decodeWord_error_iff.mpr hreserved
  obtain ⟨scheduled, byDefault⟩ := step_completions hw
  exact ⟨fun rest h => (scheduled rest h).trans (completeStep_of_error hill),
    fun h => (byDefault h).trans (completeStep_of_error hill)⟩

/-- Settles O47: word by word. -/
theorem wordLayoutsOfNodeAndCode : Obligations.WordLayoutsOfNodeAndCode :=
  ⟨fun n => ⟨n.word_zero_toNat, n.word_one_toNat, n.word_two_toNat, n.word_three_toNat⟩,
    fun e => ⟨e.word_zero_toNat, fun _ => e.word_digit, e.word_eight_bit31, fun _ => e.word_above⟩⟩

/-- Settles O1: eleven words, each decoded by computation. -/
theorem commandWordsDecode : Obligations.CommandWordsDecode := ⟨by decide, by decide⟩

/-- Settles O4: the completion step of a word that decodes is its command, and withFetchWord schedules that step. -/
theorem stepRunsTheDecodedCommand : Obligations.StepRunsTheDecodedCommand := by
  refine ⟨fun s w i hw hi => ?_, fun s n i hn hi => ?_⟩
  · obtain ⟨scheduled, byDefault⟩ := step_completions hw
    exact ⟨fun rest h => (scheduled rest h).trans (completeStep_of_ok hi),
      fun h => (byDefault h).trans (completeStep_of_ok hi)⟩
  · rw [decodeTableWord_eq_some_iff hn] at hi
    have accepted : s.withFetchWord 32 n =
        { s.accept (BitVec.ofNat 32 n) with schedule := .completion :: s.schedule } := by
      rw [State.withFetchWord, Nat.mod_eq_of_lt hn]
    rw [accepted, (step_completions rfl).1 s.schedule rfl]
    exact completeStep_of_ok hi

/-- Settles O5: CMD's write while idle is the acceptance. -/
theorem acceptanceLatchesTheWord : Obligations.AcceptanceLatchesTheWord := by
  intro s d hidle
  have hcmd : hostWrite 0x14 d s = (false, s.accept d) := hostWrite_cmd d (State.busy_of_idle hidle)
  rw [hcmd]
  exact ⟨rfl, rfl⟩

end Sys2Proof.Proofs
end

section
/-! SUPPORT. The frequency table as the counts of the input bytes (40_frequency.md R100, R101), and the commands with no input or too long a one (R100, R102, R140, R145, R156, R166). -/

namespace Sys2Proof.Machine

/-! ## Symbols and their indices -/

theorem symIndex_ofNat (y : Fin 256) : symIndex (BitVec.ofNat 8 y.val) = y :=
  Fin.ext (Nat.mod_eq_of_lt y.isLt)

theorem symIndex_injective : Function.Injective symIndex := fun _ _ h => BitVec.eq_of_toNat_eq (congrArg Fin.val h)

theorem symIndex_eq_iff {b : Byte} {y : Fin 256} : symIndex b = y ↔ b = BitVec.ofNat 8 y.val := by
  rw [← symIndex_injective.eq_iff, symIndex_ofNat]

/-- Every byte is one of the 256 symbols, so the counts of the symbols sum to the length. -/
theorem sum_count_symbols (input : List Byte) :
    (∑ y : Fin 256, input.count (BitVec.ofNat 8 y.val)) = input.length := by
  have hcount (y : Fin 256) :
      input.count (BitVec.ofNat 8 y.val) = (↑(input.map symIndex) : Multiset (Fin 256)).count y := by
    rw [Multiset.coe_count, ← List.count_map_of_injective input symIndex symIndex_injective, symIndex_ofNat]
  calc ∑ y : Fin 256, input.count (BitVec.ofNat 8 y.val)
      = ∑ y : Fin 256, (↑(input.map symIndex) : Multiset (Fin 256)).count y := Finset.sum_congr rfl fun y _ => hcount y
    _ = (input.map symIndex).length := Multiset.sum_count_eq_card fun y _ => Finset.mem_univ y
    _ = input.length := List.length_map _

/-! ## The table COUNT builds -/

theorem bumpFreq_get (f : FreqTable) (b : Byte) (y : Fin 256) :
    (bumpFreq f b).get y = if b = BitVec.ofNat 8 y.val then f.get y + 1 else f.get y := by
  split
  · next h =>
    obtain rfl := symIndex_eq_iff.mpr h
    exact Vector.getElem_set_self _
  · next h => exact Vector.getElem_set_ne _ y.isLt (Fin.val_ne_of_ne (mt symIndex_eq_iff.mp h))

/-- The loop of R100 adds to each entry the number of its bytes, modulo the width of an entry. -/
theorem foldl_bumpFreq_get (input : List Byte) (f : FreqTable) (y : Fin 256) :
    (input.foldl bumpFreq f).get y = f.get y + BitVec.ofNat 32 (input.count (BitVec.ofNat 8 y.val)) := by
  induction input generalizing f with
  | nil => simp
  | cons b bs ih =>
    rw [List.foldl_cons, ih, bumpFreq_get]
    split
    · next h => rw [h, List.count_cons_self, BitVec.ofNat_add, BitVec.add_assoc, BitVec.add_comm 1]; rfl
    · next h => rw [List.count_cons_of_ne h]

/-- An entry never wraps on an input whose length a register holds (R101). -/
theorem countTable_get_toNat {input : List Byte} (h : input.length < 2 ^ 32) (y : Fin 256) :
    ((countTable input).get y).toNat = input.count (BitVec.ofNat 8 y.val) := by
  have hle : input.count (BitVec.ofNat 8 y.val) ≤ input.length := List.count_le_length
  rw [countTable, foldl_bumpFreq_get, zeroFreq_get, zero_add, BitVec.toNat_ofNat, Nat.mod_eq_of_lt (by omega)]

/-! ## COUNT, and the branch of a long input -/

theorem exec_count_ok {s : State} (h : s.inLen.toNat ≤ s.caps.inCap) :
    exec .count s = .next { s with
      eng := .idle, status := s.status.ended false, freq := countTable s.inputBytes
      draws := s.draws + s.inBuf.drawCount 0 s.inLen.toNat } := by
  rw [exec_eq, commandOf, countCommand_ok (s.inLenBad_false_iff.mpr h)]
  rfl

@[simp] theorem raiseInLen_finish (s : State) :
    (raiseInLen s).finish = { s with
      eng := .idle, errCode := .lenRange, errPos := 0, tokLen := 0
      status := { s.status.ended true with synthHit := false } } := rfl

/-! ## Empty operands -/

section
variable {s : State}

theorem State.inLenBad_of_empty (h : s.inLen = 0) : s.inLenBad = false := by simp [h]

theorem State.tokLenBad_of_empty (h : s.tokLen = 0) : s.tokLenBad = false := by simp [h]

theorem State.inputBytes_of_empty (h : s.inLen = 0) : s.inputBytes = [] :=
  List.length_eq_zero_iff.mp (by rw [s.inputBytes_length, h]; rfl)

/-- The encoder's loop over no byte reads, writes and raises nothing, whatever the table (R145). -/
theorem State.encodeRun_of_empty (h : s.inLen = 0) :
    s.encodeRun = { tokens := [], hit := false, read := 0, error := none } := by
  rw [State.encodeRun, State.inputBytes_of_empty h, encodeLoop]

/-- DECODE of the empty stream ends before the tree check (R156). -/
theorem decodeCommand_of_empty (h : s.tokLen = 0) : decodeCommand s = .completed { s with outLen := 0 } := by
  simp [decodeCommand, State.tokLenBad_of_empty h, h]

end

end Sys2Proof.Machine
end

section
/-! PROOFS. The statements of the family 40_frequency.md. -/

namespace Sys2Proof.Proofs

open Sys2Proof.Machine

/-- Settles O9: the loop adds one to an entry for each of its bytes, and no entry wraps, since IN_LEN is a 32-bit word. -/
theorem countGivesTheCounts : Obligations.CountGivesTheCounts := by
  intro s _ hlen
  have hcount : ∀ y : Fin 256, ((countTable s.inputBytes).get y).toNat = s.inputBytes.count (BitVec.ofNat 8 y.val) :=
    countTable_get_toNat (by rw [s.inputBytes_length]; exact s.inLen.isLt)
  have hsum : (∑ y : Fin 256, ((countTable s.inputBytes).get y).toNat) = s.inLen.toNat := by
    rw [Finset.sum_congr rfl fun y _ => hcount y, sum_count_symbols, s.inputBytes_length]
  exact ⟨_, exec_count_ok hlen, hcount, hsum, rfl⟩

/-- Settles O11: the length check raises before any other write of the three commands. -/
theorem longInputIsRejected : Obligations.LongInputIsRejected := by
  intro s hlen
  have hbad : s.inLenBad = true := s.inLenBad_iff.mpr hlen
  refine ⟨?_, ?_, ?_, rfl⟩
  · rw [exec_eq, commandOf, countCommand_bad hbad]
    rfl
  · rw [exec_eq, commandOf, encodeCommand_bad hbad, raiseInLen_finish]
  · rw [exec_eq, commandOf, compressCommand_bad hbad, raiseInLen_finish]

/-- Settles O12: the loops of COUNT and ENCODE run over no byte, BUILD_TREE then sees no count, and DECODE stops at its empty-stream check. -/
theorem emptyOperandsSucceed : Obligations.EmptyOperandsSucceed := by
  refine fun s => ⟨fun hin => ⟨?_, ?_⟩, fun htok => ?_⟩
  · have hfreq : countTable s.inputBytes = zeroFreq := by rw [State.inputBytes_of_empty hin]; rfl
    refine ⟨_, _, exec_count_ok (s.inLenBad_false_iff.mp (State.inLenBad_of_empty hin)), rfl, hfreq, fun y => ?_,
      exec_eq .buildTree _, ?_⟩
    · exact (congrArg (·.get y) hfreq).trans (zeroFreq_get y)
    · exact congrArg TreeImage.present ((congrArg treeOf hfreq).trans treeOf_zeroFreq)
  · rw [exec_eq, commandOf, encodeCommand_ok (State.inLenBad_of_empty hin), encodeBody_finish, State.encodeRun_of_empty hin]
    rfl
  · rw [exec_eq, commandOf, decodeCommand_of_empty htok, CmdResult.finish_completed]

end Sys2Proof.Proofs
end

section
/-! SUPPORT. The tree of a frequency table, read off the table (41_tree_builder.md): its leaves by symbol (R111, R112), the record BUILD_TREE installs (R114), the three-node tree of one symbol (R177), and what every merge takes (R113, R115). -/

namespace Sys2Proof.Machine

/-! ## BUILD_TREE's result -/

/-- BUILD_TREE goes on, and writes the tree of FREQ, the cleared table and its report alone (R110, R116). -/
theorem exec_buildTree (s : State) : exec .buildTree s = .next { s with
    eng := .idle
    status := { s.status.ended false with
      treePresent := (treeOf s.freq).present
      synthPresent := (treeOf s.freq).synthPresent
      synthCollide := (treeOf s.freq).synthCollide }
    root := (treeOf s.freq).root, nodeCount := (treeOf s.freq).nodeCount, leafCount := (treeOf s.freq).leafCount
    node := (treeOf s.freq).node, code := zeroCodes } := rfl

/-- The tree held after BUILD_TREE is a function of FREQ (R121). -/
theorem treeHeld_of_exec_buildTree {s t : State} (h : exec .buildTree s = .next t) : t.treeHeld = treeOf s.freq := by
  rw [exec_buildTree, Host.Outcome.next.injEq] at h
  rw [← h]
  rfl

/-! ## The symbols that occur (R111) -/

/-- The symbols with a non-zero count, in increasing order. -/
def symbolsOf (f : FreqTable) : List (Fin 256) := (List.finRange 256).filter fun y => f.get y != 0

/-- The leaf of symbol `y` (R111). -/
def leafOf (f : FreqTable) (y : Fin 256) : Node := leafNode (BitVec.ofNat 8 y.val) ((f.get y).setWidth 40)

theorem leafOf_sym_toNat (f : FreqTable) (y : Fin 256) : (leafOf f y).sym.toNat = y.val := Nat.mod_eq_of_lt y.isLt

theorem leafOf_weight_toNat (f : FreqTable) (y : Fin 256) : (leafOf f y).weight.toNat = (f.get y).toNat :=
  BitVec.toNat_setWidth_of_le (by decide)

theorem leafOf_sym_eq_synthSym_iff (f : FreqTable) (y : Fin 256) : (leafOf f y).sym = Config.synthSym ↔ y = 0 := by
  rw [← BitVec.toNat_inj, leafOf_sym_toNat, Fin.ext_iff]
  rfl

@[simp] theorem mem_symbolsOf {f : FreqTable} {y : Fin 256} : y ∈ symbolsOf f ↔ f.get y ≠ 0 := by
  simp [symbolsOf]

theorem symbolsOf_rising (f : FreqTable) : (symbolsOf f).Pairwise (· < ·) :=
  (List.pairwise_lt_finRange 256).filter _

theorem symbolsOf_nodup (f : FreqTable) : (symbolsOf f).Nodup := (List.nodup_finRange 256).filter _

theorem symbolsOf_eq_nil_iff (f : FreqTable) : symbolsOf f = [] ↔ ∀ y, f.get y = 0 := by
  simp [List.eq_nil_iff_forall_not_mem]

theorem symbolsOf_eq_singleton_iff {f : FreqTable} {x : Fin 256} :
    symbolsOf f = [x] ↔ f.get x ≠ 0 ∧ ∀ y, y ≠ x → f.get y = 0 := by
  constructor
  · intro h
    have hmem (y : Fin 256) : f.get y ≠ 0 ↔ y = x := by rw [← mem_symbolsOf, h, List.mem_singleton]
    exact ⟨(hmem x).mpr rfl, fun y hy => not_not.mp (mt (hmem y).mp hy)⟩
  · rintro ⟨hx, hrest⟩
    refine List.perm_singleton.mp ((List.perm_ext_iff_of_nodup (symbolsOf_nodup f) (List.nodup_singleton x)).mpr fun y => ?_)
    rw [mem_symbolsOf, List.mem_singleton]
    exact ⟨not_imp_comm.mp (hrest y), fun hy => hy ▸ hx⟩

/-- The counts of the symbols that occur sum to those of all symbols. -/
theorem sum_symbolsOf (f : FreqTable) : ((symbolsOf f).map fun y => (f.get y).toNat).sum = ∑ y, (f.get y).toNat := by
  rw [← List.sum_toFinset _ (symbolsOf_nodup f)]
  refine Finset.sum_subset (Finset.subset_univ _) fun y _ hy => ?_
  rw [List.mem_toFinset, mem_symbolsOf, not_not] at hy
  rw [hy]
  rfl

/-- In a rising list each element stands at the number of those below it. -/
theorem getElem?_countP_lt {n : Nat} {l : List (Fin n)} (hl : l.Pairwise (· < ·)) {y : Fin n} (hy : y ∈ l) :
    l[l.countP (· < y)]? = some y := by
  induction l with
  | nil => cases hy
  | cons x l ih =>
    obtain ⟨hx, hl⟩ := List.pairwise_cons.mp hl
    rcases List.mem_cons.mp hy with rfl | hy
    · have hnone : (y :: l).countP (· < y) = 0 := by
        refine List.countP_eq_zero.mpr fun z hz => ?_
        rcases List.mem_cons.mp hz with rfl | hz
        · simp
        · simpa using (hx z hz).le
      rw [hnone]
      rfl
    · rw [List.countP_cons_of_pos (by simpa using hx y hy), List.getElem?_cons_succ]
      exact ih hl hy

/-- A symbol's place among those that occur is its rank: the number of smaller symbols that occur (R111). -/
theorem symbolsOf_getElem?_rank {f : FreqTable} {y : Fin 256} (hy : f.get y ≠ 0) :
    (symbolsOf f)[(Finset.univ.filter fun z : Fin 256 => z < y ∧ f.get z ≠ 0).card]? = some y := by
  have hrank : (Finset.univ.filter fun z : Fin 256 => z < y ∧ f.get z ≠ 0).card = (symbolsOf f).countP (· < y) := by
    rw [List.countP_eq_length_filter, ← List.toFinset_card_of_nodup ((symbolsOf_nodup f).filter _)]
    congr 1
    ext z
    simp [and_comm]
  rw [hrank]
  exact getElem?_countP_lt (symbolsOf_rising f) (mem_symbolsOf.mpr hy)

/-! ## Leaves by symbol (R111, R112) -/

/-- Step 1 over counts numbered from `s` on. -/
theorem leavesFrom_eq_map (s : Nat) (cs : List Word) :
    leavesFrom s cs = ((cs.zipIdx s).filter fun c => c.1 != 0).map fun c => leafNode (BitVec.ofNat 8 c.2) (c.1.setWidth 40) := by
  induction cs generalizing s with
  | nil => rfl
  | cons c cs ih =>
    rw [leavesFrom, List.zipIdx_cons]
    split
    · next hc => rw [List.filter_cons_of_neg (by simpa using hc), ih]
    · next hc => rw [List.filter_cons_of_pos (by simpa using hc), List.map_cons, ih]

theorem zipIdx_toList (f : FreqTable) : f.toList.zipIdx = (List.finRange 256).map fun y => (f.get y, y.val) := by
  refine List.ext_getElem (by simp) fun i h1 h2 => ?_
  simp [Vector.get]

/-- Step 1 makes the leaves of the symbols that occur, in their order. -/
theorem leavesFrom_freq (f : FreqTable) : leavesFrom 0 f.toList = (symbolsOf f).map (leafOf f) := by
  rw [leavesFrom_eq_map, zipIdx_toList, List.filter_map, List.map_map]
  rfl

/-- The leaves of `f` after steps 1 and 2. -/
def leavesOf (f : FreqTable) : List Node := withSynthetic ((symbolsOf f).map (leafOf f))

/-- The nodes BUILD_TREE makes over them. -/
def nodesOf (f : FreqTable) : List Node := mergeAll Config.sentinel (leavesOf f)

/-- Step 2 adds at most the synthetic leaf, at the end. -/
theorem withSynthetic_eq (ls : List Node) : withSynthetic ls = ls ++ if ls.length = 1 then [synthLeaf] else [] := by
  match ls with
  | [] => rfl
  | [_] => rfl
  | _ :: _ :: _ => simp [withSynthetic]

theorem leavesOf_getElem?_rank {f : FreqTable} {y : Fin 256} (hy : f.get y ≠ 0) :
    (leavesOf f)[(Finset.univ.filter fun z : Fin 256 => z < y ∧ f.get z ≠ 0).card]? = some (leafOf f y) := by
  have hreal := congrArg (Option.map (leafOf f)) (symbolsOf_getElem?_rank hy)
  rw [← List.getElem?_map] at hreal
  obtain ⟨hlt, -⟩ := List.getElem?_eq_some_iff.mp hreal
  rw [leavesOf, withSynthetic_eq, List.getElem?_append_left hlt, hreal]
  rfl

/-- A leaf that is not the synthetic one is the leaf of a symbol that occurs. -/
theorem mem_leavesOf {f : FreqTable} {n : Node} (hn : n ∈ leavesOf f) (hs : n.synth = false) :
    ∃ y, f.get y ≠ 0 ∧ n = leafOf f y := by
  rw [leavesOf, withSynthetic_eq, List.mem_append] at hn
  rcases hn with hn | hn
  · obtain ⟨y, hy, rfl⟩ := List.mem_map.mp hn
    exact ⟨y, mem_symbolsOf.mp hy, rfl⟩
  · split at hn
    · rw [List.mem_singleton.mp hn] at hs
      cases hs
    · cases hn

/-- The synthetic leaf is there exactly when one symbol occurs (R112). -/
theorem exists_synth_leavesOf_iff (f : FreqTable) :
    (∃ n ∈ leavesOf f, n.synth = true) ↔ (symbolsOf f).length = 1 := by
  rw [leavesOf, withSynthetic_eq, List.length_map]
  constructor
  · rintro ⟨n, hn, hs⟩
    by_contra hmany
    rw [if_neg hmany, List.append_nil] at hn
    obtain ⟨y, -, rfl⟩ := List.mem_map.mp hn
    cases hs
  · intro hone
    exact ⟨synthLeaf, by simp [hone], rfl⟩

/-- The leaves weigh the sum of the counts, and one more with the synthetic leaf (R112, R117). -/
theorem totalWeight_leavesOf (f : FreqTable) :
    totalWeight (leavesOf f) = (∑ y, (f.get y).toNat) + if (symbolsOf f).length = 1 then 1 else 0 := by
  have hreal : (((symbolsOf f).map (leafOf f)).map fun n => n.weight.toNat).sum = ∑ y, (f.get y).toNat := by
    rw [← sum_symbolsOf, List.map_map]
    exact congrArg List.sum (List.map_congr_left fun y _ => leafOf_weight_toNat f y)
  rw [totalWeight, leavesOf, withSynthetic_eq, List.map_append, List.sum_append, hreal, List.length_map]
  split <;> rfl

/-! ## The tree of a table -/

/-- No count, no tree; else the merge over the leaves (R110, R114). -/
theorem treeOf_cases (f : FreqTable) : ((∀ y, f.get y = 0) ∧ treeOf f = absentTree) ∨
    (∃ y, f.get y ≠ 0) ∧ LeafRow (leavesOf f) ∧ treeOf f =
      { node := tableOfList 511 zeroNode (nodesOf f)
        root := Fin.ofNat 511 ((nodesOf f).length - 1)
        nodeCount := Fin.ofNat 512 (nodesOf f).length
        leafCount := Fin.ofNat 257 (leavesOf f).length
        present := true
        synthPresent := decide ((symbolsOf f).length = 1)
        synthCollide := decide (symbolsOf f = [0]) } := by
  have hleaves := leavesFrom_freq f
  cases hsym : symbolsOf f with
  | nil =>
    rw [hsym] at hleaves
    exact .inl ⟨(symbolsOf_eq_nil_iff f).mp hsym, by rw [treeOf, hleaves]; rfl⟩
  | cons y ys =>
    rw [hsym, List.map_cons] at hleaves
    have hrow := leafRow_withSynthetic (by simp) hleaves
    have hleavesOf : leavesOf f = withSynthetic (leafOf f y :: ys.map (leafOf f)) := by rw [leavesOf, hsym, List.map_cons]
    refine .inr ⟨⟨y, mem_symbolsOf.mp (hsym ▸ List.mem_cons_self)⟩, hleavesOf ▸ hrow, ?_⟩
    have hsynth : (ys.map (leafOf f)).isEmpty = decide ((y :: ys).length = 1) := by cases ys <;> simp
    have hcollide : ((ys.map (leafOf f)).isEmpty && (leafOf f y).sym == Config.synthSym) = decide (y :: ys = [0]) := by
      rw [Bool.eq_iff_iff, Bool.and_eq_true, beq_iff_eq, leafOf_sym_eq_synthSym_iff]
      simp [and_comm]
    rw [treeOf, hleaves, treeOfLeaves, nodesOf, hleavesOf, ← hsynth, ← hcollide]

theorem treeOf_eq_absentTree {f : FreqTable} (h : ∀ y, f.get y = 0) : treeOf f = absentTree := by
  rcases treeOf_cases f with ⟨-, htree⟩ | ⟨⟨y, hy⟩, -⟩
  · exact htree
  · exact absurd (h y) hy

theorem treeOf_present_iff (f : FreqTable) : (treeOf f).present = true ↔ ∃ y, f.get y ≠ 0 := by
  rcases treeOf_cases f with ⟨hzero, htree⟩ | ⟨hsome, -, htree⟩ <;> rw [htree]
  · simp [absentTree, hzero]
  · simpa using hsome

/-- SYNTH_PRESENT in the tree of a table says that one symbol occurs, also when none does. -/
theorem treeOf_synthPresent (f : FreqTable) : (treeOf f).synthPresent = decide ((symbolsOf f).length = 1) := by
  rcases treeOf_cases f with ⟨hzero, htree⟩ | ⟨-, -, htree⟩ <;> rw [htree]
  rw [(symbolsOf_eq_nil_iff f).mpr hzero]
  rfl

/-- A state that holds the tree of counts not all zero holds the merge over their leaves. -/
theorem holdsMerge_nodesOf {s : State} {f : FreqTable} (h : s.treeHeld = treeOf f) (hsome : ∃ y, f.get y ≠ 0) :
    HoldsMerge s (leavesOf f) (nodesOf f) := by
  have hsynth : s.status.synthPresent = decide ((symbolsOf f).length = 1) :=
    (congrArg TreeImage.synthPresent h).trans (treeOf_synthPresent f)
  rcases treeOf_cases f with ⟨hzero, -⟩ | ⟨-, hrow, htree⟩
  · obtain ⟨y, hy⟩ := hsome
    exact absurd (hzero y) hy
  have hmerge : MergeState (leavesOf f) (nodesOf f) [(nodesOf f).length - 1] := hrow.mergeAll Config.sentinel
  have hcount := hmerge.count
  have hfew := hrow.few
  rw [List.length_singleton] at hcount
  rw [htree] at h
  refine ⟨hrow, hmerge, fun i => ?_, ?_, ?_, ?_, ?_⟩
  · exact (congrArg (·.node.get i) h).trans (tableOfList_get ..)
  · exact (congrArg (·.root.val) h).trans (Nat.mod_eq_of_lt (by omega))
  · exact (congrArg (·.nodeCount.val) h).trans (Nat.mod_eq_of_lt (by omega))
  · exact (congrArg (·.leafCount.val) h).trans (Nat.mod_eq_of_lt (by omega))
  · rw [hsynth, decide_eq_true_iff, exists_synth_leavesOf_iff]

/-- A tree with a node is no absent tree, so it is the merge over the leaves. -/
theorem holdsMerge_of_inTree {s : State} {f : FreqTable} (h : s.treeHeld = treeOf f) {i : Fin 511} (hi : s.inTree i) :
    HoldsMerge s (leavesOf f) (nodesOf f) := by
  refine holdsMerge_nodesOf h ?_
  by_contra hnone
  simp only [not_exists, not_not] at hnone
  have hcount : s.nodeCount = 0 := congrArg TreeImage.nodeCount (h.trans (treeOf_eq_absentTree hnone))
  rw [State.inTree, hcount] at hi
  exact Nat.not_lt_zero _ hi

/-! ## The tree of one symbol (R177) -/

/-- The merge of two nodes puts the one of least key on the left (R115). -/
theorem mergeAll_pair (sentinel : Nat) (m n : Node) : mergeAll sentinel [m, n] =
    [m, n, if keyLt sentinel [m, n] 1 0 then mergeNode [m, n] 1 0 else mergeNode [m, n] 0 1] := by
  cases h : keyLt sentinel [m, n] 1 0 <;> simp [mergeAll, mergeLoop, extractMin, argminKey, h, List.range_succ]

/-- The synthetic leaf's weight is the least there is, and so is its symbol: only the leaf of symbol 0 with count 1 comes before it, by its index. -/
theorem keyLt_synthLeaf {f : FreqTable} {x : Fin 256} (hx : f.get x ≠ 0) :
    keyLt Config.sentinel [leafOf f x, synthLeaf] 1 0 = true ↔ ¬ (x = 0 ∧ f.get x = 1) := by
  have hpos : (f.get x).toNat ≠ 0 := fun h => hx (BitVec.eq_of_toNat_eq h)
  have hzero : x = 0 ↔ x.val = 0 := Fin.ext_iff
  have hone : f.get x = 1 ↔ (f.get x).toNat = 1 := BitVec.toNat_inj.symm
  rw [keyLt_iff]
  change 1 < (leafOf f x).weight.toNat ∨ 1 = (leafOf f x).weight.toNat ∧
    (0 < (leafOf f x).sym.toNat ∨ 0 = (leafOf f x).sym.toNat ∧ 1 < 0) ↔ _
  rw [leafOf_weight_toNat, leafOf_sym_toNat, hzero, hone]
  omega

/-- The nodes of a table in which one symbol occurs. -/
theorem nodesOf_singleton {f : FreqTable} {x : Fin 256} (h : symbolsOf f = [x]) : nodesOf f =
    [leafOf f x, synthLeaf,
      { isInternal := true, weight := (f.get x).setWidth 40 + 1, sym := 0, synth := false
        left := if x = 0 ∧ f.get x = 1 then 0 else 1
        right := if x = 0 ∧ f.get x = 1 then 1 else 0 }] := by
  have hx : f.get x ≠ 0 := (symbolsOf_eq_singleton_iff.mp h).1
  rw [nodesOf, leavesOf, h]
  change mergeAll _ [leafOf f x, synthLeaf] = _
  rw [mergeAll_pair]
  congr 3
  simp only [keyLt_synthLeaf hx]
  by_cases h0 : x = 0 ∧ f.get x = 1
  · rw [if_neg (not_not.mpr h0), if_pos h0, if_pos h0]
    rfl
  · rw [if_pos h0, if_neg h0, if_neg h0, BitVec.add_comm]
    rfl

/-! ## What every merge takes (R113, R115) -/

/-- Node `j` is one of those a merge that makes node `n` chooses from: an earlier node with no earlier parent. -/
def freeAt (nodes : List Node) (n j : Nat) : Prop := j < n ∧ ∀ i, i < n → ¬ childOf nodes i j

/-- Nodes `a` and `b` are the two of least key among those node `n` chooses from, `a` before `b`. -/
structure LeastPair (sentinel : Nat) (nodes : List Node) (n a b : Nat) : Prop where
  leftFree : freeAt nodes n a
  rightFree : freeAt nodes n b
  least : ∀ j, freeAt nodes n j → j ≠ a → keyLt sentinel nodes a j = true ∧ (j ≠ b → keyLt sentinel nodes b j = true)

/-- The children of node `n` are the pair R115 extracts for it. -/
def TakesLeast (sentinel : Nat) (nodes : List Node) (n : Nat) : Prop :=
  LeastPair sentinel nodes n (nodeAt nodes n).left.val (nodeAt nodes n).right.val

theorem childOf_append {nodes : List Node} (more : List Node) {i : Nat} (hi : i < nodes.length) (j : Nat) :
    childOf (nodes ++ more) i j ↔ childOf nodes i j := by
  rw [childOf, childOf, nodeAt_append_left more hi]

theorem freeAt_append {nodes : List Node} (more : List Node) {n : Nat} (hn : n ≤ nodes.length) (j : Nat) :
    freeAt (nodes ++ more) n j ↔ freeAt nodes n j :=
  and_congr_right fun _ => forall₂_congr fun _ hi => not_congr (childOf_append more (hi.trans_le hn) j)

theorem keyLt_append {sentinel : Nat} {nodes : List Node} (more : List Node) {i j : Nat} (hi : i < nodes.length)
    (hj : j < nodes.length) : keyLt sentinel (nodes ++ more) i j = keyLt sentinel nodes i j := by
  rw [keyLt, keyLt, nodeAt_append_left more hi, nodeAt_append_left more hj]

/-- Nodes made later change no earlier choice. -/
theorem LeastPair.append {sentinel : Nat} {nodes : List Node} {n a b : Nat} (h : LeastPair sentinel nodes n a b)
    (hn : n ≤ nodes.length) (more : List Node) : LeastPair sentinel (nodes ++ more) n a b := by
  have hfree := freeAt_append more hn
  have ha := h.leftFree.1.trans_le hn
  have hb := h.rightFree.1.trans_le hn
  refine ⟨(hfree a).mpr h.leftFree, (hfree b).mpr h.rightFree, fun j hj hja => ?_⟩
  rw [hfree] at hj
  rw [keyLt_append more ha (hj.1.trans_le hn), keyLt_append more hb (hj.1.trans_le hn)]
  exact h.least j hj hja

/-- Q holds the nodes the next merge chooses from. -/
theorem MergeState.freeAt_iff {leaves nodes : List Node} {q : List Nat} (h : MergeState leaves nodes q) (hl : LeafRow leaves)
    (j : Nat) : freeAt nodes nodes.length j ↔ j ∈ q := by
  constructor
  · rintro ⟨hj, hfree⟩
    by_contra hq
    obtain ⟨i, hi, -⟩ := h.oneParent j hj hq
    exact hfree i (h.childOf_lt hl hi).2 hi
  · exact fun hj => ⟨h.below j hj, fun i _ => h.queued j hj i⟩

/-- Two extractions take the pair of least key (R16, R115). -/
theorem MergeState.leastPair {leaves nodes : List Node} {q q1 q2 : List Nat} {sentinel a b : Nat}
    (h : MergeState leaves nodes q) (hl : LeafRow leaves) (h1 : extractMin sentinel nodes q = some (a, q1))
    (h2 : extractMin sentinel nodes q1 = some (b, q2)) : LeastPair sentinel nodes nodes.length a b := by
  obtain ⟨ha, rfl, hleast1⟩ := extractMin_spec h1
  obtain ⟨hb, rfl, hleast2⟩ := extractMin_spec h2
  have hfree := h.freeAt_iff hl
  refine ⟨(hfree a).mpr ha, (hfree b).mpr (List.mem_of_mem_erase hb), fun j hj hja => ?_⟩
  have hq := (hfree j).mp hj
  have hq1 : j ∈ q.erase a := (List.mem_erase_of_ne hja).mpr hq
  exact ⟨(hleast1 j hq).resolve_left hja, fun hjb => (hleast2 j hq1).resolve_left hjb⟩

/-- Each merge takes the least pair, so by induction all of them did. -/
theorem MergeState.takesLeast_mergeLoop {leaves nodes : List Node} {q : List Nat} (hl : LeafRow leaves) (sentinel k : Nat)
    (h : MergeState leaves nodes q) (hk : q.length = k + 1)
    (hleast : ∀ n, leaves.length ≤ n → n < nodes.length → TakesLeast sentinel nodes n) :
    ∀ n, leaves.length ≤ n → n < (Machine.mergeLoop sentinel k nodes q).length →
      TakesLeast sentinel (Machine.mergeLoop sentinel k nodes q) n := by
  induction k generalizing nodes q with
  | zero => exact hleast
  | succ k ih =>
    obtain ⟨a, q1, b, q2, h1, h2, heq⟩ := mergeLoop_succ sentinel k nodes q (by omega)
    have hperm := extractMin_twice_perm h1 h2
    have hlen := hperm.length_eq
    have hpair := h.leastPair hl h1 h2
    have hmerge := h.merge hl hperm
    have hcount := h.count
    have hn : nodes.length ≤ 511 := by have := hl.few; omega
    rw [heq]
    refine ih hmerge (by simp only [List.length_append, List.length_cons, List.length_nil] at hlen ⊢; omega) fun n hle hlt => ?_
    rw [List.length_append, List.length_singleton] at hlt
    rcases Nat.lt_succ_iff_lt_or_eq.mp hlt with hold | rfl
    · rw [TakesLeast, nodeAt_append_left _ hold]
      exact (hleast n hle hold).append hold.le _
    · rw [TakesLeast, nodeAt_append_self, mergeNode_left_val nodes b (hpair.leftFree.1.trans_le hn),
        mergeNode_right_val nodes a (hpair.rightFree.1.trans_le hn)]
      exact hpair.append le_rfl _

/-- Every internal node of the finished merge took the least pair of its time. -/
theorem LeafRow.takesLeast_mergeAll {leaves : List Node} (hl : LeafRow leaves) (sentinel n : Nat) (hle : leaves.length ≤ n)
    (hlt : n < (Machine.mergeAll sentinel leaves).length) : TakesLeast sentinel (Machine.mergeAll sentinel leaves) n :=
  hl.mergeState.takesLeast_mergeLoop hl sentinel (leaves.length - 1) (by rw [List.length_range]; have := hl.two; omega)
    (fun _ hle hlt => absurd hlt (Nat.not_lt.mpr hle)) n hle hlt

section
variable {s : State} {leaves nodes : List Node} (h : HoldsMerge s leaves nodes)
include h

theorem HoldsMerge.unmergedAt_iff (n j : Fin 511) : s.unmergedAt n j ↔ freeAt nodes n.val j.val := by
  refine and_congr_right fun _ => ⟨fun hfree i hi hc => ?_, fun hfree i hi hlt => ?_⟩
  · have hc' := (h.childOf_iff ⟨i, hi.trans n.isLt⟩ j).mp hc
    obtain ⟨hl, hr⟩ := hfree _ hc'.1 hi
    exact hc'.2.elim hl hr
  · rw [← not_or]
    exact fun hc => hfree i.val hlt ((h.childOf_iff i j).mpr ⟨hi, hc⟩)

theorem HoldsMerge.keyBelow_iff (i j : Fin 511) : s.keyBelow i j ↔ keyLt Config.sentinel nodes i.val j.val = true := by
  rw [keyLt_iff, ← h.node, ← h.node]
  exact Iff.rfl

/-- Q is left with the root, which weighs what the leaves do (R117). -/
theorem HoldsMerge.root_weight : (s.node.get s.root).weight.toNat = totalWeight leaves := by
  rw [h.node, h.root, ← h.merge.total]
  simp

end

end Sys2Proof.Machine
end

section
/-! PROOFS. The statements of the family 41_tree_builder.md. -/

namespace Sys2Proof.Proofs

open Sys2Proof.Machine

/-- Settles O13: a leaf is made exactly for a non-zero count, and no leaf gives the absent tree. -/
theorem allZeroCountsGiveTheAbsentTree : Obligations.AllZeroCountsGiveTheAbsentTree := by
  refine fun s => ⟨_, exec_buildTree s, ?_, fun hzero => ?_⟩
  · rw [← Bool.not_eq_true, treeOf_present_iff]
    simp only [not_exists, not_not]
  · rw [treeOf_eq_absentTree hzero]
    exact ⟨rfl, zeroNodes_get, zeroCodes_get⟩

/-- Settles O15: step 1 makes the leaves of the symbols that occur in order, where each stands at its rank, and no two leaves of the tree are equal. -/
theorem leavesInSymbolOrder : Obligations.LeavesInSymbolOrder := by
  intro s t h
  have hheld := treeHeld_of_exec_buildTree h
  have hleaf (y : Fin 256) (hy : s.freq.get y ≠ 0) :
      ∃ i : Fin 511, i.val = (Finset.univ.filter fun z : Fin 256 => z < y ∧ s.freq.get z ≠ 0).card ∧ t.isLeaf i ∧
        t.node.get i = leafOf s.freq y := by
    have hm := holdsMerge_nodesOf hheld ⟨y, hy⟩
    have hrank := leavesOf_getElem?_rank hy
    obtain ⟨hlt, hget⟩ := List.getElem?_eq_some_iff.mp hrank
    have hfew := hm.row.few
    refine ⟨⟨_, hlt.trans (by omega)⟩, rfl, (hm.isLeaf_iff _).mpr hlt, ?_⟩
    rw [(hm.leafAt hlt).1, nodeAt_eq_getElem hlt, hget]
  refine ⟨hleaf, fun i hi hs => ?_⟩
  have hm := holdsMerge_of_inTree hheld hi.1
  obtain ⟨y, hy, hnode⟩ := mem_leavesOf (hm.leafAt ((hm.isLeaf_iff i).mp hi)).2 hs
  obtain ⟨i', hrank, hi', hnode'⟩ := hleaf y hy
  have hsame : i = i' := hm.leaf_ext hi hi' (by rw [hnode, hnode'])
  exact ⟨y, hy, hsame ▸ hrank⟩

/-- Settles O16: with one symbol the merge is of two leaves, and the synthetic one has the lower key unless the other is of symbol 0 with count 1. -/
theorem oneSymbolGetsTheSyntheticLeaf : Obligations.OneSymbolGetsTheSyntheticLeaf := by
  refine fun s => ⟨_, exec_buildTree s, ?_, fun x hx hrest => ?_⟩
  · simp only [treeOf_synthPresent, decide_eq_true_iff, List.length_eq_one_iff, symbolsOf_eq_singleton_iff]
  · have hsym := symbolsOf_eq_singleton_iff.mpr ⟨hx, hrest⟩
    rcases treeOf_cases s.freq with ⟨hzero, -⟩ | ⟨-, -, htree⟩
    · exact absurd (hzero x) hx
    rw [htree, nodesOf_singleton hsym, leavesOf, hsym]
    refine ⟨rfl, by simp, rfl, rfl, rfl, ?_, ?_, ?_⟩ <;> rw [tableOfList_get] <;> rfl

/-- Settles O17: each merge extracts the least key of Q and then the least of the rest, and Q holds the unmerged nodes. -/
theorem mergesTakeTheTwoLeastKeys : Obligations.MergesTakeTheTwoLeastKeys := by
  intro s t h n hn
  have hm := holdsMerge_of_inTree (treeHeld_of_exec_buildTree h) hn.1
  obtain ⟨hle, hlt⟩ := (hm.isInner_iff n).mp hn
  have hpair : TakesLeast Config.sentinel (nodesOf s.freq) n := hm.row.takesLeast_mergeAll _ n hle hlt
  rw [TakesLeast, ← hm.node] at hpair
  simp only [hm.unmergedAt_iff, hm.keyBelow_iff]
  refine ⟨hpair.leftFree, hpair.rightFree, (hm.treeShape.childrenBelow n hn).2.2, fun j hj hja => ?_⟩
  simpa only [ne_eq, Fin.ext_iff] using hpair.least j.val hj (Fin.val_ne_of_ne hja)

/-- Settles O19: no merge changes the sum of the weights in Q, which is the leaves' at first and the root's at the end. -/
theorem rootWeightIsTheTotal : Obligations.RootWeightIsTheTotal := by
  intro s t h hpresent
  have hheld := treeHeld_of_exec_buildTree h
  have hsome : ∃ y, s.freq.get y ≠ 0 := (treeOf_present_iff _).mp ((congrArg TreeImage.present hheld).symm.trans hpresent)
  have hsynth : t.status.synthPresent = decide ((symbolsOf s.freq).length = 1) :=
    (congrArg TreeImage.synthPresent hheld).trans (treeOf_synthPresent _)
  have hroot : t.rootWeight.toNat = (t.node.get t.root).weight.toNat := by rw [t.rootWeight_toNat, if_pos hpresent]
  refine ⟨?_, ?_, ?_⟩
  · rw [(holdsMerge_nodesOf hheld hsome).root_weight, totalWeight_leavesOf, hsynth]
    simp
  · rw [t.regWord_rootWeightLo, hroot, BitVec.toNat_ofNat, Nat.mod_mod]
  · have hlt := (t.node.get t.root).weight.isLt
    rw [t.regWord_rootWeightHi, hroot, BitVec.toNat_ofNat, Nat.mod_eq_of_lt (by omega)]

/-- Settles O14: the next state is a record over s, and its tree is that of FREQ. -/
theorem buildTreeWritesOnlyTheTreeOfFreq : Obligations.BuildTreeWritesOnlyTheTreeOfFreq := by
  refine ⟨fun s => ⟨_, exec_buildTree s, zeroCodes_get, rfl⟩, fun s s' t t' hfreq h h' => ?_⟩
  have held : t.treeHeld = t'.treeHeld := by
    rw [treeHeld_of_exec_buildTree h, treeHeld_of_exec_buildTree h', hfreq]
  simpa only [State.treeHeld, TreeImage.mk.injEq] using held

end Sys2Proof.Proofs
end

section
/-! SUPPORT. The paths of a tree (00_scope.md R14): where a path leads, the leaves the walk of R130 meets, and, for a tree that meets R36, which leaves these are and how long their paths can be (R135). -/

namespace Sys2Proof.Machine

/-! ## Where a path leads (R14) -/

/-- From node `i` the digits of the path lead down, through internal nodes, to node `j`. -/
inductive Leads (node : NodeTable) : Fin 511 → Path → Fin 511 → Prop
  | here (i : Fin 511) : Leads node i [] i
  | down {i j : Fin 511} {b : Bool} {p : Path} (inner : (node.get i).isInternal = true)
      (rest : Leads node ((node.get i).child b) p j) : Leads node i (b :: p) j

section
variable {node : NodeTable}

/-- A path can be made longer at its end, by a child of the node it leads to. -/
theorem Leads.snoc {i j : Fin 511} {p : Path} (h : Leads node i p j) (hj : (node.get j).isInternal = true) (b : Bool) :
    Leads node i (p ++ [b]) ((node.get j).child b) := by
  induction h with
  | here i => exact .down hj (.here _)
  | down inner _ ih => exact .down inner (ih hj)

/-- No path goes on past a leaf. -/
theorem Leads.eq_of_append {i j k : Fin 511} {p q : Path} (h : Leads node i p j) (hj : (node.get j).isInternal = false)
    (h' : Leads node i (p ++ q) k) : q = [] ∧ k = j := by
  induction h with
  | here i =>
    cases h' with
    | here => exact ⟨rfl, rfl⟩
    | down inner _ => rw [hj] at inner; cases inner
  | down _ _ ih =>
    cases h' with
    | down _ rest => exact ih hj rest

/-- The only path from a leaf to a leaf is the empty one. -/
theorem exists_leads_leaf_iff {i : Fin 511} (hi : (node.get i).isInternal = false) {P : Path → Fin 511 → Prop} :
    (∃ r j, Leads node i r j ∧ (node.get j).isInternal = false ∧ P r j) ↔ P [] i := by
  constructor
  · rintro ⟨r, j, hlead, -, hP⟩
    obtain ⟨rfl, rfl⟩ := (Leads.here i).eq_of_append hi hlead
    exact hP
  · exact fun hP => ⟨[], i, .here i, hi, hP⟩

/-- A path from an internal node to a leaf starts with the digit of a child. -/
theorem exists_leads_inner_iff {i : Fin 511} (hi : (node.get i).isInternal = true) {P : Path → Fin 511 → Prop} :
    (∃ r j, Leads node i r j ∧ (node.get j).isInternal = false ∧ P r j) ↔
      ∃ b r j, Leads node ((node.get i).child b) r j ∧ (node.get j).isInternal = false ∧ P (b :: r) j := by
  constructor
  · rintro ⟨r, j, hlead, hj, hP⟩
    cases hlead with
    | here => rw [hi] at hj; cases hj
    | down _ rest => exact ⟨_, _, j, rest, hj, hP⟩
  · exact fun ⟨b, r, j, hlead, hj, hP⟩ => ⟨b :: r, j, .down hi hlead, hj, hP⟩

/-! ## The walk (R130, R131) -/

/-- The walk meets the leaves that a path within its depth leads to, each with that path. -/
theorem mem_walk_iff {depth : Nat} {i : Fin 511} {p : Path} {l : Node × Path} : l ∈ walk node depth i p ↔
    ∃ r j, Leads node i r j ∧ (node.get j).isInternal = false ∧ r.length < depth ∧ l = (node.get j, p ++ r) := by
  induction depth generalizing i p with
  | zero => simp [walk]
  | succ depth ih =>
    rw [walk]
    cases hi : (node.get i).isInternal with
    | false => simp [exists_leads_leaf_iff hi]
    | true => simp [exists_leads_inner_iff hi, ih, Node.child]

/-- A leaf's path is the beginning of no other leaf's path (R137). -/
theorem leafPaths_prefix_free {root : Fin 511} {l l' : Node × Path} (hl : l ∈ leafPaths node root)
    (hl' : l' ∈ leafPaths node root) (h : l.2 <+: l'.2) : l = l' := by
  obtain ⟨p, j, hlead, hj, -, rfl⟩ := mem_walk_iff.mp hl
  obtain ⟨p', j', hlead', -, -, rfl⟩ := mem_walk_iff.mp hl'
  obtain ⟨q, rfl⟩ : p <+: p' := h
  obtain ⟨rfl, rfl⟩ := hlead.eq_of_append hj hlead'
  rw [List.append_nil]

end

/-! ## The paths of a tree that meets R36 -/

section
variable {s : State} (h : TreeShape s)
include h

theorem TreeShape.root_isInner : s.isInner s.root := by
  obtain ⟨hcount, htwo, -⟩ := h.counts
  obtain ⟨hlast, hinner⟩ := h.rootLast
  exact ⟨by rw [State.inTree]; omega, hinner⟩

theorem TreeShape.child_lt {i : Fin 511} (hi : s.isInner i) (b : Bool) : (s.node.get i).child b < i := by
  obtain ⟨hleft, hright, -⟩ := h.childrenBelow i hi
  cases b with
  | false => exact hleft
  | true => exact hright

theorem TreeShape.child_inTree {i : Fin 511} (hi : s.isInner i) (b : Bool) : s.inTree ((s.node.get i).child b) :=
  (Fin.lt_def.mp (h.child_lt hi b)).trans hi.1

/-- Each digit of a path leads to a smaller index. -/
theorem TreeShape.leads_below {i j : Fin 511} {p : Path} (hi : s.inTree i) (hlead : Leads s.node i p j) :
    s.inTree j ∧ p.length + j.val ≤ i.val := by
  induction hlead with
  | here i => exact ⟨hi, by simp⟩
  | @down i j b p inner _ ih =>
    have hlt := Fin.lt_def.mp (h.child_lt ⟨hi, inner⟩ b)
    obtain ⟨hj, hle⟩ := ih (h.child_inTree ⟨hi, inner⟩ b)
    exact ⟨hj, by rw [List.length_cons]; omega⟩

/-- A path from node `i` goes through internal nodes, whose indices lie between LEAF_COUNT and `i` (R36). -/
theorem TreeShape.leads_length_le {i j : Fin 511} {p : Path} (hi : s.inTree i) (hlead : Leads s.node i p j) :
    p.length ≤ i.val + 1 - s.leafCount.val := by
  induction hlead with
  | here i => exact Nat.zero_le _
  | @down i j b p inner _ ih =>
    have hlt := Fin.lt_def.mp (h.child_lt ⟨hi, inner⟩ b)
    have hrest := ih (h.child_inTree ⟨hi, inner⟩ b)
    have hinner : ¬ i.val < s.leafCount.val := mt (h.leavesFirst i hi).mpr (by simp [inner])
    rw [List.length_cons]
    omega

/-- Every node has a path from the root: go up to its parent (R36), whose index is higher. -/
theorem TreeShape.exists_leads {j : Fin 511} (hj : s.inTree j) : ∃ p, Leads s.node s.root p j := by
  induction j using WellFoundedGT.induction with
  | ind j ih =>
    by_cases hroot : j = s.root
    · exact ⟨[], hroot ▸ .here _⟩
    obtain ⟨i, ⟨hi, hchild⟩, -⟩ := h.oneParent j hj hroot
    obtain ⟨b, rfl⟩ : ∃ b, (s.node.get i).child b = j := hchild.elim (⟨false, ·⟩) (⟨true, ·⟩)
    obtain ⟨p, hlead⟩ := ih i (h.child_lt hi b) hi.1
    exact ⟨p ++ [b], hlead.snoc hi.2 b⟩

/-- The walk from the root meets exactly the leaves of the tree: the bound of its depth leaves none out (log 8). -/
theorem TreeShape.mem_leafPaths_iff {l : Node × Path} :
    l ∈ leafPaths s.node s.root ↔ ∃ i, s.isLeaf i ∧ s.node.get i = l.1 ∧ Leads s.node s.root l.2 i := by
  rw [leafPaths, mem_walk_iff]
  constructor
  · rintro ⟨p, i, hlead, hi, -, rfl⟩
    exact ⟨i, ⟨(h.leads_below h.root_isInner.1 hlead).1, hi⟩, rfl, hlead⟩
  · rintro ⟨i, hi, hnode, hlead⟩
    have hbelow := (h.leads_below h.root_isInner.1 hlead).2
    exact ⟨l.2, i, hlead, hi.2, (Nat.le_of_add_right_le hbelow).trans_lt s.root.isLt, by rw [hnode, List.nil_append]⟩

/-- The leaves the walk meets and the leaves of the tree are the same nodes. -/
theorem TreeShape.exists_leafPath_iff (P : Node → Prop) :
    (∃ l ∈ leafPaths s.node s.root, P l.1) ↔ ∃ i, s.isLeaf i ∧ P (s.node.get i) := by
  constructor
  · rintro ⟨l, hl, hP⟩
    obtain ⟨i, hi, hnode, -⟩ := h.mem_leafPaths_iff.mp hl
    exact ⟨i, hi, by rwa [hnode]⟩
  · rintro ⟨i, hi, hP⟩
    obtain ⟨p, hlead⟩ := h.exists_leads hi.1
    exact ⟨(s.node.get i, p), h.mem_leafPaths_iff.mpr ⟨i, hi, rfl, hlead⟩, hP⟩

/-- A leaf is 1 to LEAF_COUNT - 1 digits below the root (R135). -/
theorem TreeShape.leafPath_length {l : Node × Path} (hl : l ∈ leafPaths s.node s.root) :
    1 ≤ l.2.length ∧ l.2.length ≤ s.leafCount.val - 1 := by
  obtain ⟨i, ⟨-, hi⟩, -, hlead⟩ := h.mem_leafPaths_iff.mp hl
  obtain ⟨hcount, htwo, -⟩ := h.counts
  obtain ⟨hlast, hinner⟩ := h.rootLast
  have hle := h.leads_length_le h.root_isInner.1 hlead
  refine ⟨List.length_pos_of_ne_nil fun hnil => ?_, by omega⟩
  rw [hnil] at hlead
  cases hlead
  rw [hi] at hinner
  cases hinner

theorem TreeShape.leafPath_length_le {l : Node × Path} (hl : l ∈ leafPaths s.node s.root) : l.2.length ≤ 255 := by
  obtain ⟨-, hlen⟩ := h.leafPath_length hl
  obtain ⟨-, -, hfew⟩ := h.counts
  omega

end

end Sys2Proof.Machine
end

section
/-! SUPPORT. The code table (42_code_table.md): the entry of a path (R130), the entries a table has by the leaves the walk meets (R132), and the table of a tree that meets R36. -/

namespace Sys2Proof.Machine

/-! ## The entry of a path (R130) -/

theorem testBit_pathNumber (p : Path) (j : Nat) : (pathNumber p).testBit j = p.getD j false := by
  induction p generalizing j with
  | nil => simp [pathNumber]
  | cons b p ih =>
    have hbit : pathNumber (b :: p) = Nat.bit b (pathNumber p) := by cases b <;> simp [pathNumber, Nat.bit, Nat.add_comm]
    rw [hbit]
    cases j with
    | zero => rw [Nat.testBit_bit_zero, List.getD_cons_zero]
    | succ j => rw [Nat.testBit_bit_succ, ih, List.getD_cons_succ]

section
variable {p : Path} (h : p.length ≤ 255) (synth : Bool)
include h

theorem codeEntry_len : (codeEntry synth p).len.toNat = p.length := by
  rw [codeEntry, BitVec.toNat_ofNat]
  exact Nat.mod_eq_of_lt (by omega)

/-- BITS holds the digits of the path, and 0 above them. -/
theorem codeEntry_bits (j : Nat) : (codeEntry synth p).bits.getLsbD j = p.getD j false := by
  rw [codeEntry, pathBits, BitVec.getLsbD_ofNat, testBit_pathNumber]
  by_cases hj : j < 255
  · simp [hj]
  · rw [List.getD_eq_default _ _ (by omega), Bool.and_false]

/-- The tokens of an entry are its path's digits (R88). -/
theorem codeEntry_tokens : (codeEntry synth p).tokens = p.map tokenOf := by
  rw [CodeEntry.tokens, codeEntry_len h]
  refine List.ext_getElem (by simp) fun j hj hj' => ?_
  simp only [List.length_map] at hj'
  simp [codeEntry_bits h, hj']

end

theorem tokenOf_injective : Function.Injective tokenOf := by decide

/-! ## The entries of a table (R130, R132) -/

/-- Leaf `l` records its code for symbol `y`: it is of that symbol, and real or beside no real leaf of it. -/
def Records (leaves : List (Node × Path)) (y : Fin 256) (l : Node × Path) : Prop :=
  symIndex l.1.sym = y ∧ ¬ (l.1.synth = true ∧ ∃ r ∈ leaves, r.1.synth = false ∧ symIndex r.1.sym = y)

/-- The condition under which R132 leaves a leaf out. -/
theorem recordLeaf_skips_iff {leaves : List (Node × Path)} {l : Node × Path} :
    (l.1.synth && leaves.any fun r => !r.1.synth && r.1.sym == l.1.sym) = true ↔
      l.1.synth = true ∧ ∃ r ∈ leaves, r.1.synth = false ∧ symIndex r.1.sym = symIndex l.1.sym := by
  simp [symIndex_injective.eq_iff]

theorem recordLeaf_get_of_records {leaves : List (Node × Path)} {y : Fin 256} {l : Node × Path} (h : Records leaves y l)
    (c : CodeTable) : (recordLeaf leaves c l).get y = codeEntry l.1.synth l.2 := by
  obtain ⟨rfl, hkept⟩ := h
  rw [recordLeaf, if_neg (mt recordLeaf_skips_iff.mp hkept)]
  exact Vector.getElem_set_self _

theorem recordLeaf_get_of_not_records {leaves : List (Node × Path)} {y : Fin 256} {l : Node × Path}
    (h : ¬ Records leaves y l) (c : CodeTable) : (recordLeaf leaves c l).get y = c.get y := by
  rw [recordLeaf]
  split
  · rfl
  · next hkept =>
    have hy : symIndex l.1.sym ≠ y := by
      rintro rfl
      exact h ⟨rfl, mt recordLeaf_skips_iff.mpr hkept⟩
    exact Vector.getElem_set_ne _ y.isLt (Fin.val_ne_of_ne hy)

/-- An entry is that of some leaf that recorded it, or as before when none did. -/
theorem foldl_recordLeaf_get (leaves ls : List (Node × Path)) (c : CodeTable) (y : Fin 256) :
    (∃ l ∈ ls, Records leaves y l ∧ (ls.foldl (recordLeaf leaves) c).get y = codeEntry l.1.synth l.2) ∨
      (∀ l ∈ ls, ¬ Records leaves y l) ∧ (ls.foldl (recordLeaf leaves) c).get y = c.get y := by
  induction ls generalizing c with
  | nil => exact .inr ⟨fun _ hl => absurd hl List.not_mem_nil, rfl⟩
  | cons x ls ih =>
    rw [List.foldl_cons]
    rcases ih (recordLeaf leaves c x) with ⟨l, hl, hrec⟩ | ⟨hnone, hget⟩
    · exact .inl ⟨l, List.mem_cons_of_mem _ hl, hrec⟩
    by_cases hx : Records leaves y x
    · exact .inl ⟨x, List.mem_cons_self, hx, hget.trans (recordLeaf_get_of_records hx c)⟩
    · exact .inr ⟨List.forall_mem_cons.mpr ⟨hx, hnone⟩, hget.trans (recordLeaf_get_of_not_records hx c)⟩

/-- If some leaf has symbol `y`, one of them records its code: a real one, or one beside no real one. -/
theorem exists_records {leaves : List (Node × Path)} {l : Node × Path} (hl : l ∈ leaves) :
    ∃ r ∈ leaves, Records leaves (symIndex l.1.sym) r := by
  by_cases hreal : ∃ r ∈ leaves, r.1.synth = false ∧ symIndex r.1.sym = symIndex l.1.sym
  · obtain ⟨r, hr, hs, hsym⟩ := hreal
    exact ⟨r, hr, hsym, by simp [hs]⟩
  · exact ⟨l, hl, rfl, fun hskip => hreal hskip.2⟩

section
variable {node : NodeTable} {root : Fin 511} {y : Fin 256}

/-- An entry is that of a leaf of its symbol, or invalid when there is no such leaf. -/
theorem codeTableOf_get_cases (node : NodeTable) (root : Fin 511) (y : Fin 256) :
    (∃ l ∈ leafPaths node root, Records (leafPaths node root) y l ∧
      (codeTableOf node root).get y = codeEntry l.1.synth l.2) ∨
    (∀ l ∈ leafPaths node root, symIndex l.1.sym ≠ y) ∧ (codeTableOf node root).get y = zeroCode := by
  refine (foldl_recordLeaf_get _ _ _ y).imp_right fun ⟨hnone, hget⟩ => ⟨?_, hget.trans (zeroCodes_get y)⟩
  rintro l hl rfl
  obtain ⟨r, hr, hrec⟩ := exists_records hl
  exact hnone r hr hrec

/-- The valid entries are those of the leaves' symbols (R134). -/
theorem codeTableOf_valid_iff : ((codeTableOf node root).get y).valid = true ↔
    ∃ l ∈ leafPaths node root, symIndex l.1.sym = y := by
  rcases codeTableOf_get_cases node root y with ⟨l, hl, hrec, hget⟩ | ⟨hnone, hget⟩ <;> rw [hget]
  · exact iff_of_true rfl ⟨l, hl, hrec.1⟩
  · exact iff_of_false Bool.false_ne_true fun ⟨l, hl, hsym⟩ => hnone l hl hsym

/-- The synthetic entries are those of the symbols that a synthetic leaf has and no real one (R132). -/
theorem codeTableOf_synth_iff : ((codeTableOf node root).get y).synth = true ↔
    (∃ l ∈ leafPaths node root, symIndex l.1.sym = y) ∧
      ¬ ∃ l ∈ leafPaths node root, l.1.synth = false ∧ symIndex l.1.sym = y := by
  rcases codeTableOf_get_cases node root y with ⟨l, hl, ⟨hsym, hkept⟩, hget⟩ | ⟨hnone, hget⟩ <;> rw [hget]
  · refine ⟨fun hs => ⟨⟨l, hl, hsym⟩, fun hreal => hkept ⟨hs, hreal⟩⟩, fun ⟨_, hreal⟩ => ?_⟩
    by_contra hs
    exact hreal ⟨l, hl, Bool.eq_false_of_not_eq_true hs, hsym⟩
  · exact iff_of_false Bool.false_ne_true fun ⟨⟨l, hl, hsym⟩, _⟩ => hnone l hl hsym

/-- A valid entry is the code of a leaf of its symbol. -/
theorem codeTableOf_get_of_valid (hvalid : ((codeTableOf node root).get y).valid = true) :
    ∃ l ∈ leafPaths node root, symIndex l.1.sym = y ∧ (codeTableOf node root).get y = codeEntry l.1.synth l.2 := by
  rcases codeTableOf_get_cases node root y with ⟨l, hl, hrec, hget⟩ | ⟨-, hget⟩
  · exact ⟨l, hl, hrec.1, hget⟩
  · rw [hget] at hvalid
    cases hvalid

end

/-- Where R36 and R38 hold, a valid entry is the code of a leaf of its symbol in the tree held. -/
theorem CodeTableInvariant.get_of_valid {s : State} (h : CodeTableInvariant s) (ht : TreeInvariant s) {y : Fin 256}
    (hvalid : (s.code.get y).valid = true) : TreeShape s ∧
    ∃ l ∈ leafPaths s.node s.root, symIndex l.1.sym = y ∧ s.code.get y = codeEntry l.1.synth l.2 := by
  rcases h with hzero | ⟨hpresent, htable⟩
  · rw [hzero, zeroCodes_get] at hvalid
    cases hvalid
  · rw [htable] at hvalid ⊢
    exact ⟨ht.1 hpresent, codeTableOf_get_of_valid hvalid⟩

/-! ## The symbols of the tree of a frequency table (R111, R112) -/

theorem mem_leavesOf_iff {f : FreqTable} {n : Node} : n ∈ leavesOf f ↔
    (∃ x, f.get x ≠ 0 ∧ leafOf f x = n) ∨ ((symbolsOf f).length = 1 ∧ n = synthLeaf) := by
  rw [leavesOf, withSynthetic_eq, List.length_map]
  by_cases hone : (symbolsOf f).length = 1 <;> simp [hone]

theorem leavesOf_length (f : FreqTable) :
    (leavesOf f).length = (symbolsOf f).length + if (symbolsOf f).length = 1 then 1 else 0 := by
  rw [leavesOf, withSynthetic_eq, List.length_append, List.length_map]
  split <;> rfl

theorem symIndex_leafOf (f : FreqTable) (x : Fin 256) : symIndex (leafOf f x).sym = x := symIndex_ofNat x

theorem exists_leavesOf_symbol_iff {f : FreqTable} {y : Fin 256} : (∃ n ∈ leavesOf f, symIndex n.sym = y) ↔
    f.get y ≠ 0 ∨ ((symbolsOf f).length = 1 ∧ y = 0) := by
  constructor
  · rintro ⟨n, hn, rfl⟩
    rcases mem_leavesOf_iff.mp hn with ⟨x, hx, rfl⟩ | ⟨hone, rfl⟩
    · exact .inl (by rwa [symIndex_leafOf])
    · exact .inr ⟨hone, rfl⟩
  · rintro (hy | ⟨hone, rfl⟩)
    · exact ⟨leafOf f y, mem_leavesOf_iff.mpr (.inl ⟨y, hy, rfl⟩), symIndex_leafOf f y⟩
    · exact ⟨synthLeaf, mem_leavesOf_iff.mpr (.inr ⟨hone, rfl⟩), rfl⟩

theorem exists_real_leavesOf_symbol_iff {f : FreqTable} {y : Fin 256} :
    (∃ n ∈ leavesOf f, n.synth = false ∧ symIndex n.sym = y) ↔ f.get y ≠ 0 := by
  constructor
  · rintro ⟨n, hn, hreal, rfl⟩
    obtain ⟨x, hx, rfl⟩ := mem_leavesOf hn hreal
    rwa [symIndex_leafOf]
  · exact fun hy => ⟨leafOf f y, mem_leavesOf_iff.mpr (.inl ⟨y, hy, rfl⟩), rfl, symIndex_leafOf f y⟩

/-- One symbol for each leaf, but for a synthetic leaf beside the real leaf of symbol 0 (R134). -/
theorem card_leavesOf_symbols (f : FreqTable) :
    (Finset.univ.filter fun y : Fin 256 => f.get y ≠ 0 ∨ ((symbolsOf f).length = 1 ∧ y = 0)).card =
      (leavesOf f).length - if symbolsOf f = [0] then 1 else 0 := by
  rw [leavesOf_length]
  by_cases hone : (symbolsOf f).length = 1
  · obtain ⟨x, hx⟩ := List.length_eq_one_iff.mp hone
    have hset : (Finset.univ.filter fun y : Fin 256 => f.get y ≠ 0 ∨ ((symbolsOf f).length = 1 ∧ y = 0)) = {x, 0} := by
      ext y
      have hmem : f.get y ≠ 0 ↔ y = x := by rw [← mem_symbolsOf, hx, List.mem_singleton]
      simp only [Finset.mem_filter, Finset.mem_univ, true_and, hmem, hone, Finset.mem_insert, Finset.mem_singleton]
    rw [hset, hx]
    by_cases h0 : x = 0 <;> simp [h0]
  · have hset : (Finset.univ.filter fun y : Fin 256 => f.get y ≠ 0 ∨ ((symbolsOf f).length = 1 ∧ y = 0)) =
        (symbolsOf f).toFinset := by
      ext y
      simp [hone]
    have hnot : symbolsOf f ≠ [0] := fun h => hone (by rw [h]; rfl)
    rw [hset, List.toFinset_card_of_nodup (symbolsOf_nodup f), if_neg hone, if_neg hnot]
    rfl

/-- The leaves of the tree held are those of the row the merge started from. -/
theorem HoldsMerge.exists_leaf_iff {s : State} {leaves nodes : List Node} (h : HoldsMerge s leaves nodes)
    (P : Node → Prop) : (∃ i, s.isLeaf i ∧ P (s.node.get i)) ↔ ∃ n ∈ leaves, P n := by
  constructor
  · rintro ⟨i, hi, hP⟩
    exact ⟨_, (h.leafAt ((h.isLeaf_iff i).mp hi)).2, hP⟩
  · rintro ⟨n, hn, hP⟩
    obtain ⟨k, hk, rfl⟩ := List.mem_iff_getElem.mp hn
    have hfew := h.row.few
    refine ⟨⟨k, by omega⟩, (h.isLeaf_iff _).mpr hk, ?_⟩
    rwa [(h.leafAt (i := ⟨k, _⟩) hk).1, nodeAt_eq_getElem hk]

/-- SYNTH_COLLIDE in the tree of a table says that symbol 0 alone occurs. -/
theorem treeOf_synthCollide (f : FreqTable) : (treeOf f).synthCollide = decide (symbolsOf f = [0]) := by
  rcases treeOf_cases f with ⟨hzero, htree⟩ | ⟨-, -, htree⟩ <;> rw [htree]
  rw [(symbolsOf_eq_nil_iff f).mpr hzero]
  rfl

/-- Where one symbol occurs, any other symbol has count 0. -/
theorem symbolsOf_ne_singleton_iff {f : FreqTable} (hone : (symbolsOf f).length = 1) (y : Fin 256) :
    symbolsOf f ≠ [y] ↔ f.get y = 0 := by
  obtain ⟨x, hx⟩ := List.length_eq_one_iff.mp hone
  rw [← not_iff_not, not_not, ← ne_eq, ← mem_symbolsOf, hx, List.mem_singleton, List.singleton_inj, eq_comm]

/-- The symbol that only the synthetic leaf has: symbol 0, where one other symbol occurs (R132). -/
theorem synthetic_symbol_iff {f : FreqTable} {y : Fin 256} :
    (f.get y ≠ 0 ∨ (symbolsOf f).length = 1 ∧ y = 0) ∧ ¬ f.get y ≠ 0 ↔
      y = 0 ∧ (symbolsOf f).length = 1 ∧ symbolsOf f ≠ [0] := by
  constructor
  · rintro ⟨hy | ⟨hone, rfl⟩, hzero⟩
    · exact absurd hy hzero
    · exact ⟨rfl, hone, (symbolsOf_ne_singleton_iff hone 0).mpr (not_not.mp hzero)⟩
  · rintro ⟨rfl, hone, hne⟩
    exact ⟨.inr ⟨hone, rfl⟩, not_not.mpr ((symbolsOf_ne_singleton_iff hone 0).mp hne)⟩

/-! ## BUILD_TABLE's result -/

/-- BUILD_TABLE goes on, and writes the table of the tree held and its report alone (R130). -/
theorem exec_buildTable (s : State) : exec .buildTable s =
    .next { s with eng := .idle, status := s.status.ended false, code := s.tableHeld } := rfl

theorem code_of_exec_buildTable {s t : State} (h : exec .buildTable s = .next t) : t.code = s.tableHeld := by
  rw [exec_buildTable, Host.Outcome.next.injEq] at h
  rw [← h]

theorem State.tableHeld_of_absent {s : State} (h : s.status.treePresent = false) : s.tableHeld = zeroCodes := by
  simp [State.tableHeld, h]

theorem State.tableHeld_of_present {s : State} (h : s.status.treePresent = true) :
    s.tableHeld = codeTableOf s.node s.root := if_pos h

end Sys2Proof.Machine
end

section
/-! PROOFS. The statements of the family 42_code_table.md. -/

namespace Sys2Proof.Proofs

open Sys2Proof.Machine

/-- Settles O21: the leaves the walk meets are the leaves of the tree, and these are the real leaves of the symbols that occur with, when one symbol occurs, the synthetic leaf of symbol 0. -/
theorem tableEntriesAreTheLeaves : Obligations.TableEntriesAreTheLeaves := by
  intro s t hbuilt hpresent h
  have hshape := hbuilt.treeInvariant.1 hpresent
  obtain ⟨f, hf⟩ := (treeBuilt_iff s).mp hbuilt
  have hm := holdsMerge_nodesOf hf ((treeOf_present_iff f).mp ((congrArg TreeImage.present hf).symm.trans hpresent))
  have hsynth : s.status.synthPresent = decide ((symbolsOf f).length = 1) :=
    (congrArg TreeImage.synthPresent hf).trans (treeOf_synthPresent f)
  have hcollide : s.status.synthCollide = decide (symbolsOf f = [0]) :=
    (congrArg TreeImage.synthCollide hf).trans (treeOf_synthCollide f)
  rw [code_of_exec_buildTable h, State.tableHeld_of_present hpresent]
  have hleaf (y : Fin 256) : ((codeTableOf s.node s.root).get y).valid = true ↔
      ∃ i, s.isLeaf i ∧ symIndex (s.node.get i).sym = y :=
    codeTableOf_valid_iff.trans (hshape.exists_leafPath_iff (fun n => symIndex n.sym = y))
  have hvalid (y : Fin 256) : ((codeTableOf s.node s.root).get y).valid = true ↔
      f.get y ≠ 0 ∨ ((symbolsOf f).length = 1 ∧ y = 0) :=
    (hleaf y).trans ((hm.exists_leaf_iff (fun n => symIndex n.sym = y)).trans exists_leavesOf_symbol_iff)
  refine ⟨fun y => ?_, ?_, fun y => ?_⟩
  · simp only [hleaf, symIndex_eq_iff]
  · simp only [hvalid, card_leavesOf_symbols, hm.leafCount, hcollide, decide_eq_true_iff]
  · rw [codeTableOf_synth_iff, ← codeTableOf_valid_iff, hvalid,
      hshape.exists_leafPath_iff (fun n => n.synth = false ∧ symIndex n.sym = y),
      hm.exists_leaf_iff (fun n => n.synth = false ∧ symIndex n.sym = y), exists_real_leavesOf_symbol_iff,
      hsynth, hcollide, decide_eq_true_iff, decide_eq_false_iff_not]
    exact synthetic_symbol_iff

/-- Settles O22: a path from the root goes down through the LEAF_COUNT - 1 internal nodes at most once each. -/
theorem codeLengthBounds : Obligations.CodeLengthBounds := by
  intro s ht hc y hvalid
  obtain ⟨hshape, l, hl, -, hentry⟩ := hc.get_of_valid ht hvalid
  obtain ⟨hpos, hle⟩ := hshape.leafPath_length hl
  obtain ⟨-, -, hfew⟩ := hshape.counts
  have hshort := hshape.leafPath_length_le hl
  rw [hentry, codeEntry_len hshort]
  refine ⟨hpos, hle, by omega, fun j hj => ?_⟩
  rw [codeEntry_bits hshort, List.getD_eq_default _ _ hj]

/-- Settles O23: the codes are paths to leaves, and no path goes on past a leaf. -/
theorem codesArePrefixFree : Obligations.CodesArePrefixFree := by
  intro s ht hc x y hxy hx hy
  obtain ⟨hshape, l, hl, rfl, hentry⟩ := hc.get_of_valid ht hx
  obtain ⟨-, l', hl', rfl, hentry'⟩ := hc.get_of_valid ht hy
  rw [hentry, hentry', codeEntry_tokens (hshape.leafPath_length_le hl), codeEntry_tokens (hshape.leafPath_length_le hl'),
    List.prefix_map_iff_of_injective tokenOf_injective, List.prefix_map_iff_of_injective tokenOf_injective]
  exact ⟨fun h => hxy (by rw [leafPaths_prefix_free hl hl' h]), fun h => hxy (by rw [leafPaths_prefix_free hl' hl h])⟩

/-- Settles O20: the next state is a record over s, and its table reads TREE_PRESENT, ROOT and NODE alone. -/
theorem buildTableWritesOnlyTheTableOfTheTree : Obligations.BuildTableWritesOnlyTheTableOfTheTree := by
  refine ⟨fun s => ⟨_, exec_buildTable s, rfl, fun habsent y => ?_⟩, fun s s' t t' hpresent hroot hnode h h' => ?_⟩
  · exact (congrArg (·.get y) (State.tableHeld_of_absent habsent)).trans (zeroCodes_get y)
  · rw [code_of_exec_buildTable h, code_of_exec_buildTable h', State.tableHeld, State.tableHeld, hpresent, hroot, hnode]

end Sys2Proof.Proofs
end

section
/-! SUPPORT. ENCODE and DECODE as one run each (R140, R150): the checks before the loop are runs that store nothing, and the next state is one record over the state before and the run. -/

namespace Sys2Proof.Machine

/-! ## The results of a run -/

theorem Memory.read_writeList_eq (m m' : Memory) {vs : List Byte} {k : Nat} (h : k < vs.length) :
    (m.writeList 0 vs).read k = (m'.writeList 0 vs).read k :=
  (Memory.holds_writeList vs m k h).trans (Memory.holds_writeList vs m' k h).symm

/-- The length register of a run that stored `n` elements: 0 on an error (R146, R158). -/
def resultLen (error : Option (ErrCode × Nat)) (n : Nat) : Word := if error.isSome then 0 else BitVec.ofNat 32 n

theorem resultLen_of_error {error : Option (ErrCode × Nat)} {n : Nat} (h : error.isSome = true) :
    resultLen error n = 0 := if_pos h

theorem resultLen_toNat_le (error : Option (ErrCode × Nat)) (n : Nat) : (resultLen error n).toNat ≤ n := by
  unfold resultLen
  split
  · exact Nat.zero_le n
  · exact (BitVec.toNat_ofNat n 32).trans_le (Nat.mod_le n (2 ^ 32))

/-- An error overwrites both report registers (R187), so nothing of the old report is left. -/
theorem report_of_error {error : Option (ErrCode × Nat)} (h : error.isSome = true) (c c' : ErrCode) (p p' : Word) :
    (error.map Prod.fst).getD c = (error.map Prod.fst).getD c' ∧
    (error.map fun e => BitVec.ofNat 32 e.2).getD p = (error.map fun e => BitVec.ofNat 32 e.2).getD p' := by
  obtain ⟨e, rfl⟩ := Option.isSome_iff_exists.mp h
  exact ⟨rfl, rfl⟩

/-! ## ENCODE -/

/-- ENCODE's run with its length check (R140): a failed check reads and stores nothing. -/
def State.checkedEncodeRun (s : State) : EncodeRun :=
  if s.inLenBad then { tokens := [], hit := false, read := 0, error := some (.lenRange, 0) } else s.encodeRun

theorem State.checkedEncodeRun_of_bad {s : State} (h : s.inLenBad = true) :
    s.checkedEncodeRun = { tokens := [], hit := false, read := 0, error := some (.lenRange, 0) } := if_pos h

theorem State.checkedEncodeRun_of_ok {s : State} (h : s.inLenBad = false) : s.checkedEncodeRun = s.encodeRun := by
  simp [State.checkedEncodeRun, h]

theorem State.checkedEncodeRun_tokens (s : State) : s.checkedEncodeRun.tokens = s.encodeStores := by
  unfold State.checkedEncodeRun State.encodeStores
  split <;> rfl

/-- ENCODE's operands are IN_LEN, IN_BUF and CODE (R147), with the configuration and the draw counter (log 2). -/
theorem State.checkedEncodeRun_congr {s s' : State} (hcaps : s.caps = s'.caps) (hdraws : s.draws = s'.draws)
    (hlen : s.inLen = s'.inLen) (hbuf : s.inBuf = s'.inBuf) (hcode : s.code = s'.code) :
    s.checkedEncodeRun = s'.checkedEncodeRun := by
  have hbad : s.inLenBad = s'.inLenBad := by rw [State.inLenBad, State.inLenBad, hcaps, hlen]
  have hinput : s.inputBytes = s'.inputBytes := by rw [State.inputBytes, State.inputBytes, hbuf, hdraws, hlen]
  rw [State.checkedEncodeRun, State.checkedEncodeRun, State.encodeRun, State.encodeRun, hbad, hcode, hcaps, hinput]

/-- The state an ENCODE with run `r` leaves. -/
def State.afterEncode (s : State) (r : EncodeRun) : State :=
  { s with
    eng := .idle
    status := { s.status.ended r.error.isSome with synthHit := r.hit }
    errCode := (r.error.map Prod.fst).getD s.errCode
    errPos := (r.error.map fun e => BitVec.ofNat 32 e.2).getD s.errPos
    tokBuf := s.tokBuf.writeList 0 r.tokens
    tokLen := resultLen r.error r.tokens.length
    draws := s.draws + s.inBuf.drawCount 0 r.read }

theorem exec_encode (s : State) : exec .encode s = .next (s.afterEncode s.checkedEncodeRun) := by
  rw [exec_eq, commandOf]
  cases hb : s.inLenBad with
  | true => rw [encodeCommand_bad hb, State.checkedEncodeRun_of_bad hb]; rfl
  | false => rw [encodeCommand_ok hb, State.checkedEncodeRun_of_ok hb, encodeBody_finish]; rfl

theorem exec_encode_of_run {s : State} {r : EncodeRun} (h : s.checkedEncodeRun = r) : exec .encode s = .next (s.afterEncode r) :=
  h ▸ exec_encode s

theorem afterEncode_of_exec {s t : State} (h : exec .encode s = .next t) : t = s.afterEncode s.checkedEncodeRun := by
  rw [exec_encode, Host.Outcome.next.injEq] at h
  exact h.symm

/-! ## The loop of ENCODE -/

theorem codeTokens_length (c : CodeTable) (bs : List Byte) :
    (codeTokens c bs).length = (bs.map fun b => (c.get (symIndex b)).len.toNat).sum := by
  simp only [codeTokens, List.length_flatMap, CodeEntry.tokens_length]

/-- A coded input that fits is read to its end (R144). -/
theorem State.checkedEncodeRun_of_fits {s : State} (hlen : s.inLen.toNat ≤ s.caps.inCap) (hc : allCoded s.code s.inputBytes)
    (hf : (codeTokens s.code s.inputBytes).length ≤ s.caps.tokCap) :
    s.checkedEncodeRun = { tokens := codeTokens s.code s.inputBytes, hit := usesSynthetic s.code s.inputBytes
                           read := s.inputBytes.length, error := none } := by
  rw [State.checkedEncodeRun_of_ok (s.inLenBad_false_iff.mpr hlen), State.encodeRun,
    encodeLoop_ok _ _ 0 0 _ hc (by rwa [Nat.zero_add])]

/-- Why the encoder stops with error `e` at byte `b` and output position `p`: the table check comes first (R141, R142). -/
def EncodeFails (c : CodeTable) (cap p : Nat) (b : Byte) (e : ErrCode) : Prop :=
  ((c.get (symIndex b)).valid = false ∧ e = .symbolNotInTable) ∨
    ((c.get (symIndex b)).valid = true ∧ cap < p + (c.get (symIndex b)).len.toNat ∧ e = .outOverflow)

theorem encodeLoop_of_fails {c : CodeTable} {cap p : Nat} {b : Byte} {e : ErrCode} (h : EncodeFails c cap p b e) (k : Nat)
    (post : List Byte) :
    encodeLoop c cap k p (b :: post) = { tokens := [], hit := false, read := 1, error := some (e, k) } := by
  rcases h with ⟨hinvalid, rfl⟩ | ⟨hvalid, hover, rfl⟩
  · simp [encodeLoop, hinvalid]
  · simp [encodeLoop, hvalid, hover]

/-- The run up to the first byte that fails keeps the codes before it (R146). -/
theorem State.checkedEncodeRun_of_fails {s : State} {pre post : List Byte} {b : Byte} {e : ErrCode}
    (hlen : s.inLen.toNat ≤ s.caps.inCap) (hin : s.inputBytes = pre ++ b :: post) (hc : allCoded s.code pre)
    (hf : (codeTokens s.code pre).length ≤ s.caps.tokCap)
    (hfails : EncodeFails s.code s.caps.tokCap (codeTokens s.code pre).length b e) :
    s.checkedEncodeRun = { tokens := codeTokens s.code pre, hit := usesSynthetic s.code pre
                           read := pre.length + 1, error := some (e, pre.length) } := by
  rw [State.checkedEncodeRun_of_ok (s.inLenBad_false_iff.mpr hlen), State.encodeRun, hin,
    encodeLoop_append _ _ 0 0 _ _ hc (by rwa [Nat.zero_add]), Nat.zero_add, Nat.zero_add, encodeLoop_of_fails hfails,
    List.append_nil, Bool.or_false]

/-! ## DECODE -/

/-- DECODE's run with the checks before its loop (R150): the length check, the empty stream (R156) and the absent tree (R157) each end it with nothing read or stored. -/
def State.checkedDecodeRun (s : State) : DecodeRun :=
  if s.tokLenBad then { bytes := [], read := 0, error := some (.lenRange, 0) }
  else if s.tokLen = 0 then { bytes := [], read := 0, error := none }
  else if !s.status.treePresent then { bytes := [], read := 0, error := some (.noTree, 0) }
  else s.decodeRun

/-- DECODE's operands are TOK_LEN, TOK_BUF and the tree held (R159), with the configuration and the draw counter (log 2). -/
theorem State.checkedDecodeRun_congr {s s' : State} (hcaps : s.caps = s'.caps) (hdraws : s.draws = s'.draws)
    (hlen : s.tokLen = s'.tokLen) (hbuf : s.tokBuf = s'.tokBuf) (hnode : s.node = s'.node) (hroot : s.root = s'.root)
    (hpresent : s.status.treePresent = s'.status.treePresent) : s.checkedDecodeRun = s'.checkedDecodeRun := by
  have hbad : s.tokLenBad = s'.tokLenBad := by rw [State.tokLenBad, State.tokLenBad, hcaps, hlen]
  have hstream : s.streamTokens = s'.streamTokens := by rw [State.streamTokens, State.streamTokens, hbuf, hdraws, hlen]
  rw [State.checkedDecodeRun, State.checkedDecodeRun, State.decodeRun, State.decodeRun, hbad, hlen, hpresent, hnode, hroot,
    hstream]

/-- The state a DECODE with run `r` leaves. -/
def State.afterDecode (s : State) (r : DecodeRun) : State :=
  { s with
    eng := .idle
    status := s.status.ended r.error.isSome
    errCode := (r.error.map Prod.fst).getD s.errCode
    errPos := (r.error.map fun e => BitVec.ofNat 32 e.2).getD s.errPos
    outBuf := s.outBuf.writeList 0 r.bytes
    outLen := resultLen r.error r.bytes.length
    draws := s.draws + s.tokBuf.drawCount 0 r.read }

theorem exec_decode (s : State) : exec .decode s = .next (s.afterDecode s.checkedDecodeRun) := by
  rw [exec_eq, commandOf]
  rcases decodeCommand_cases s with ⟨hb, h⟩ | ⟨hb, hz, h⟩ | ⟨hb, hz, ht, h⟩ | ⟨hb, hz, ht, h⟩ <;>
    rw [h, State.checkedDecodeRun]
  · rw [if_pos hb]; rfl
  · rw [if_neg (Bool.eq_false_iff.mp hb), if_pos hz]; rfl
  · rw [if_neg (Bool.eq_false_iff.mp hb), if_neg hz, if_pos (by simpa using ht)]; rfl
  · rw [if_neg (Bool.eq_false_iff.mp hb), if_neg hz, if_neg (by simpa using ht), decodeBody_finish]; rfl

theorem afterDecode_of_exec {s t : State} (h : exec .decode s = .next t) : t = s.afterDecode s.checkedDecodeRun := by
  rw [exec_decode, Host.Outcome.next.injEq] at h
  exact h.symm

end Sys2Proof.Machine
end

section
/-! PROOFS. The statements of the family 43_encoder.md. -/

namespace Sys2Proof.Proofs

open Sys2Proof.Machine

/-- Settles O24: the loop reads the whole input, and the length of the stream fits TOK_LEN since TOK_CAP does. -/
theorem encodeConcatenatesTheCodes : Obligations.EncodeConcatenatesTheCodes := by
  intro s hv hlen hc hf
  obtain ⟨-, ⟨-, -, htokCap⟩, -⟩ := (Config.Caps.valid_iff s.caps).mp hv
  have htokLen : (resultLen none (codeTokens s.code s.inputBytes).length).toNat = (codeTokens s.code s.inputBytes).length :=
    capWord_toNat (by omega)
  refine ⟨_, exec_encode_of_run (State.checkedEncodeRun_of_fits hlen hc hf), htokLen.trans (codeTokens_length _ _),
    Memory.holds_writeList _ _, ?_, htokLen.symm, rfl⟩
  exact fun k hk => Memory.sameFrom_writeList _ _ k (htokLen ▸ hk)

/-- Settles O25: the loop stops at the index of the failing byte, which fits ERRPOS since it lies below IN_LEN. -/
theorem encodeReportsTheFirstFailingByte : Obligations.EncodeReportsTheFirstFailingByte := by
  intro s pre b post c hlen hin hc hf hfails
  have hindex : pre.length < s.inLen.toNat := by
    rw [← s.inputBytes_length, hin, List.length_append, List.length_cons]
    omega
  have herrPos : (BitVec.ofNat 32 pre.length).toNat = pre.length :=
    (BitVec.toNat_ofNat _ _).trans (Nat.mod_eq_of_lt (hindex.trans s.inLen.isLt))
  exact ⟨_, exec_encode_of_run (State.checkedEncodeRun_of_fails hlen hin hc hf hfails), herrPos,
    Memory.holds_writeList _ _, Memory.sameFrom_writeList _ _, rfl⟩

/-- Settles O27: each command's run is a function of its operands, and what the host reads of the result is the run's. -/
theorem encodeIgnoresTheTreeAndDecodeTheTable : Obligations.EncodeIgnoresTheTreeAndDecodeTheTable := by
  intro s s' t t' hcaps hdraws
  refine ⟨fun hlen hbuf hcode h h' => ?_, fun hlen hbuf hnode hroot hpresent h h' => ?_⟩
  · rw [afterEncode_of_exec h, afterEncode_of_exec h', State.checkedEncodeRun_congr hcaps hdraws hlen hbuf hcode]
    exact ⟨rfl, rfl, rfl, fun k hk => Memory.read_writeList_eq _ _ (hk.trans_le (resultLen_toNat_le _ _)),
      fun herr => report_of_error herr _ _ _ _⟩
  · rw [afterDecode_of_exec h, afterDecode_of_exec h',
      State.checkedDecodeRun_congr hcaps hdraws hlen hbuf hnode hroot hpresent]
    exact ⟨rfl, rfl, fun k hk => Memory.read_writeList_eq _ _ (hk.trans_le (resultLen_toNat_le _ _)),
      fun herr => report_of_error herr _ _ _ _⟩

/-- Settles O26: the next state is a record over s, and its run stores the elements the statement names. -/
theorem encodeWritesOnlyItsWriteSet : Obligations.EncodeWritesOnlyItsWriteSet := by
  intro s t h
  rw [afterEncode_of_exec h, ← State.checkedEncodeRun_tokens]
  exact ⟨rfl, Memory.sameFrom_writeList _ _, Memory.holds_writeList _ _, fun herr => resultLen_of_error herr⟩

end Sys2Proof.Proofs
end

section
/-! SUPPORT. The loop of DECODE (R150): one token's step, what a leaf's path, a cut path and a malformed token make of it, and from these the run of a whole command. -/

namespace Sys2Proof.Machine

/-! ## Tokens and digits (R88) -/

@[simp] theorem digitOf_tokenOf (b : Bool) : digitOf (tokenOf b) = some b := by cases b <;> rfl

theorem digitOf_eq_none {t : Byte} (h0 : t ≠ 0x30) (h1 : t ≠ 0x31) : digitOf t = none :=
  (if_neg h0).trans (if_neg h1)

/-- A stream of binary digits is the tokens of a path. -/
theorem exists_path_of_allDigits {ts : List Byte} (h : allDigits ts) : ∃ p : Path, p.map tokenOf = ts := by
  have hrange : ∀ t ∈ ts, t ∈ Set.range tokenOf := by
    intro t ht
    rcases h t ht with rfl | rfl
    · exact ⟨false, rfl⟩
    · exact ⟨true, rfl⟩
  rwa [← Set.mem_range, Set.range_list_map]

/-! ## One token (R150) -/

/-- The run that first stores `bs` and reads `n` tokens, and then goes on as `r`. -/
def DecodeRun.after (r : DecodeRun) (bs : List Byte) (n : Nat) : DecodeRun :=
  { bytes := bs ++ r.bytes, read := r.read + n, error := r.error }

@[simp] theorem DecodeRun.after_error (r : DecodeRun) (bs : List Byte) (n : Nat) : (r.after bs n).error = r.error := rfl

@[simp] theorem DecodeRun.after_after (r : DecodeRun) (bs bs' : List Byte) (n n' : Nat) :
    (r.after bs n).after bs' n' = r.after (bs' ++ bs) (n + n') := by
  simp [DecodeRun.after, Nat.add_assoc]

section
variable {node : NodeTable} {root cur : Fin 511} {b : Bool}

/-- A digit that leads to an internal node: the code goes on. -/
theorem decodeLoop_inner (h : (node.get ((node.get cur).child b)).isInternal = true) (k : Nat) (st : DecoderState)
    (start : Nat) (ts : List Byte) :
    decodeLoop node root k cur st start (tokenOf b :: ts) =
      (decodeLoop node root (k + 1) ((node.get cur).child b) .descending start ts).after [] 1 := by
  simp only [decodeLoop_cons, digitOf_tokenOf, h, if_true]
  rfl

/-- A digit that leads to a leaf: its symbol is stored, and the next code starts at the root. -/
theorem decodeLoop_leaf (h : (node.get ((node.get cur).child b)).isInternal = false) (k : Nat) (st : DecoderState)
    (start : Nat) (ts : List Byte) :
    decodeLoop node root k cur st start (tokenOf b :: ts) =
      (decodeLoop node root (k + 1) root .atRoot (k + 1) ts).after [(node.get ((node.get cur).child b)).sym] 1 := by
  simp only [decodeLoop_cons, digitOf_tokenOf, h, Bool.false_eq_true, if_false]
  rfl

/-! ## Many tokens -/

/-- The first token that is no digit ends the loop with its own index, wherever the digits before it lead (R151). -/
theorem decodeLoop_error_of_malformed {x : Byte} (hx : digitOf x = none) (p : Path) (post : List Byte) (k : Nat)
    (cur : Fin 511) (st : DecoderState) (start : Nat) :
    (decodeLoop node root k cur st start (p.map tokenOf ++ x :: post)).error = some (.malformedBit, k + p.length) := by
  induction p generalizing k cur st start with
  | nil => simp [decodeLoop_cons, hx]
  | cons b p ih =>
    rw [List.map_cons, List.cons_append, List.length_cons, Nat.add_comm p.length, ← Nat.add_assoc]
    cases h : (node.get ((node.get cur).child b)).isInternal with
    | true => rw [decodeLoop_inner h, DecodeRun.after_error, ih]
    | false => rw [decodeLoop_leaf h, DecodeRun.after_error, ih]

/-- The path from an internal node to a leaf stores the leaf's symbol, and the next code starts at the root. -/
theorem decodeLoop_path {i j : Fin 511} {p : Path} (hlead : Leads node i p j) (hi : (node.get i).isInternal = true)
    (hj : (node.get j).isInternal = false) (k : Nat) (st : DecoderState) (start : Nat) (ts : List Byte) :
    decodeLoop node root k i st start (p.map tokenOf ++ ts) =
      (decodeLoop node root (k + p.length) root .atRoot (k + p.length) ts).after [(node.get j).sym] p.length := by
  induction hlead generalizing k st with
  | here i => rw [hi] at hj; cases hj
  | @down i j b p _ rest ih =>
    rw [List.map_cons, List.cons_append, List.length_cons]
    cases hchild : (node.get ((node.get i).child b)).isInternal with
    | true =>
      rw [decodeLoop_inner hchild, ih hchild hj, DecodeRun.after_after, Nat.add_assoc, Nat.add_comm 1]
      rfl
    | false =>
      obtain ⟨rfl, rfl⟩ := (Leads.here _).eq_of_append hchild rest
      rw [decodeLoop_leaf hchild]
      rfl

/-- A path cut short of the node it leads to ends the loop with the index where its code started (R154). -/
theorem decodeLoop_cut_path {i j : Fin 511} {p q : Path} (hlead : Leads node i (p ++ q) j) (hq : q ≠ [])
    (k : Nat) {st : DecoderState} (hst : st = .descending ∨ p ≠ []) (start : Nat) :
    decodeLoop node root k i st start (p.map tokenOf) =
      { bytes := [], read := p.length, error := some (.truncated, start) } := by
  induction p generalizing k i st with
  | nil =>
    obtain rfl := hst.resolve_right (not_not.mpr rfl)
    rfl
  | cons b p ih =>
    cases hlead with
    | down _ rest =>
      have hchild : (node.get ((node.get i).child b)).isInternal = true := by
        by_contra hleaf
        obtain ⟨hnil, -⟩ := (Leads.here _).eq_of_append (Bool.eq_false_of_not_eq_true hleaf) rest
        exact hq (List.append_eq_nil_iff.mp hnil).2
      rw [List.map_cons, decodeLoop_inner hchild, ih rest (k + 1) (.inl rfl)]
      rfl

/-- A sequence of leaf paths stores the leaves' symbols, and the next code starts at the root (R160). -/
theorem decodeLoop_pathTokens (hroot : (node.get root).isInternal = true) {ls : List (Node × Path)}
    (hls : ∀ l ∈ ls, l ∈ leafPaths node root) (k : Nat) (ts : List Byte) :
    decodeLoop node root k root .atRoot k (pathTokens ls ++ ts) =
      (decodeLoop node root (k + (pathTokens ls).length) root .atRoot (k + (pathTokens ls).length) ts).after
        (ls.map fun l => l.1.sym) (pathTokens ls).length := by
  induction ls generalizing k with
  | nil => rfl
  | cons l ls ih =>
    obtain ⟨hl, hrest⟩ := List.forall_mem_cons.mp hls
    obtain ⟨p, j, hlead, hj, -, rfl⟩ := mem_walk_iff.mp hl
    have htokens : pathTokens ((node.get j, [] ++ p) :: ls) = p.map tokenOf ++ pathTokens ls := rfl
    have hlen : (pathTokens ((node.get j, [] ++ p) :: ls)).length = (pathTokens ls).length + p.length := by
      rw [htokens, List.length_append, List.length_map, Nat.add_comm]
    rw [hlen, htokens, List.append_assoc, decodeLoop_path hlead hroot hj, ih hrest, DecodeRun.after_after,
      Nat.add_assoc k, Nat.add_comm p.length]
    rfl

end

/-! ## Streams of codes (R160) -/

/-- A coded symbol's tokens are the path of a leaf of that symbol. -/
theorem TreeShape.exists_leafPath_of_coded {s : State} (h : TreeShape s) {b : Byte}
    (hvalid : ((codeTableOf s.node s.root).get (symIndex b)).valid = true) :
    ∃ l ∈ leafPaths s.node s.root, l.1.sym = b ∧
      ((codeTableOf s.node s.root).get (symIndex b)).tokens = l.2.map tokenOf := by
  obtain ⟨l, hl, hsym, hentry⟩ := codeTableOf_get_of_valid hvalid
  exact ⟨l, hl, symIndex_injective hsym, by rw [hentry, codeEntry_tokens (h.leafPath_length_le hl)]⟩

/-- The codes of coded symbols are the paths of leaves of these symbols. -/
theorem TreeShape.exists_leafPaths_of_allCoded {s : State} (h : TreeShape s) {bs : List Byte}
    (hc : allCoded (codeTableOf s.node s.root) bs) :
    ∃ ls : List (Node × Path), (∀ l ∈ ls, l ∈ leafPaths s.node s.root) ∧ (ls.map fun l => l.1.sym) = bs ∧
      codeTokens (codeTableOf s.node s.root) bs = pathTokens ls := by
  induction bs with
  | nil => exact ⟨[], fun _ hl => absurd hl List.not_mem_nil, rfl, rfl⟩
  | cons b bs ih =>
    obtain ⟨hb, hbs⟩ := List.forall_mem_cons.mp hc
    obtain ⟨l, hl, rfl, hcode⟩ := h.exists_leafPath_of_coded hb
    obtain ⟨ls, hls, rfl, hcodes⟩ := ih hbs
    exact ⟨l :: ls, List.forall_mem_cons.mpr ⟨hl, hls⟩, rfl, congrArg₂ (· ++ ·) hcode hcodes⟩

/-! ## The command's run -/

theorem State.checkedDecodeRun_of_long {s : State} (h : s.caps.tokCap < s.tokLen.toNat) :
    s.checkedDecodeRun = { bytes := [], read := 0, error := some (.lenRange, 0) } := if_pos (s.tokLenBad_iff.mpr h)

theorem State.checkedDecodeRun_of_absent {s : State} (hlen : s.tokLen.toNat ≤ s.caps.tokCap) (hpos : 0 < s.tokLen.toNat)
    (habsent : s.status.treePresent = false) :
    s.checkedDecodeRun = { bytes := [], read := 0, error := some (.noTree, 0) } := by
  have hne : s.tokLen ≠ 0 := fun hz => absurd hpos (by simp [hz])
  simp only [State.checkedDecodeRun, s.tokLenBad_false_iff.mpr hlen, habsent, Bool.false_eq_true, Bool.not_false, if_false,
    if_true, if_neg hne]

/-- The empty stream (R156) needs no case of its own when a tree is present: the loop reads nothing. -/
theorem State.checkedDecodeRun_of_present {s : State} (hlen : s.tokLen.toNat ≤ s.caps.tokCap)
    (hpresent : s.status.treePresent = true) : s.checkedDecodeRun = s.decodeRun := by
  simp only [State.checkedDecodeRun, s.tokLenBad_false_iff.mpr hlen, hpresent, Bool.not_true, Bool.false_eq_true, if_false,
    ite_eq_right_iff]
  intro hz
  rw [State.decodeRun, State.streamTokens, hz]
  rfl

theorem State.checkedDecodeRun_bytes (s : State) : s.checkedDecodeRun.bytes = s.decodeStores := by
  unfold State.checkedDecodeRun State.decodeStores
  cases s.tokLenBad with
  | true => rfl
  | false =>
    by_cases hz : s.tokLen = 0#32
    · simp [hz]
    · cases s.status.treePresent <;> simp [hz]

/-- DECODE stores no more bytes than there are tokens (R153). -/
theorem State.decodeStores_length_le (s : State) : s.decodeStores.length ≤ s.tokLen.toNat := by
  unfold State.decodeStores
  split
  · exact Nat.zero_le _
  · exact (decodeLoop_fits ..).trans_eq s.streamTokens_length

theorem exec_decode_of_run {s : State} {r : DecodeRun} (h : s.checkedDecodeRun = r) : exec .decode s = .next (s.afterDecode r) :=
  h ▸ exec_decode s

/-- A position in the stream fits a register. -/
theorem State.ofNat_length_of_stream {s : State} {pre post : List Byte} (h : s.streamTokens = pre ++ post) :
    (BitVec.ofNat 32 pre.length).toNat = pre.length := by
  have hle : pre.length ≤ s.tokLen.toNat := by
    rw [← s.streamTokens_length, h, List.length_append]
    exact Nat.le_add_right _ _
  exact (BitVec.toNat_ofNat _ _).trans (Nat.mod_eq_of_lt (hle.trans_lt s.tokLen.isLt))

/-- A run without an error leaves its bytes in OUT_BUF and their number, which TOK_LEN bounds, in OUT_LEN. -/
theorem exec_decode_of_complete {s : State} {bs : List Byte} {n : Nat}
    (h : s.checkedDecodeRun = { bytes := bs, read := n, error := none }) :
    ∃ t, exec .decode s = .next t ∧ t.outLen.toNat = bs.length ∧ t.outBuf.holds bs ∧ s.outBuf.sameFrom t.outBuf bs.length ∧
      t = { s with eng := .idle, status := s.status.ended false, outBuf := t.outBuf, outLen := t.outLen, draws := t.draws } := by
  have hle : bs.length ≤ s.tokLen.toNat := by
    have hstores := s.decodeStores_length_le
    rwa [← State.checkedDecodeRun_bytes, h] at hstores
  have houtLen : (BitVec.ofNat 32 bs.length).toNat = bs.length :=
    (BitVec.toNat_ofNat _ _).trans (Nat.mod_eq_of_lt (hle.trans_lt s.tokLen.isLt))
  exact ⟨_, exec_decode_of_run h, houtLen, Memory.holds_writeList _ _, Memory.sameFrom_writeList _ _, rfl⟩

/-- Over a sequence of leaf paths the run is the leaves' symbols, and no error: it ends at the root (R152). -/
theorem TreeShape.checkedDecodeRun_of_pathTokens {s : State} (h : TreeShape s) (hpresent : s.status.treePresent = true)
    (hlen : s.tokLen.toNat ≤ s.caps.tokCap) {ls : List (Node × Path)} (hls : ∀ l ∈ ls, l ∈ leafPaths s.node s.root)
    (hstream : s.streamTokens = pathTokens ls) :
    s.checkedDecodeRun = { bytes := ls.map fun l => l.1.sym, read := (pathTokens ls).length, error := none } := by
  rw [State.checkedDecodeRun_of_present hlen hpresent, State.decodeRun, hstream, ← List.append_nil (pathTokens ls),
    decodeLoop_pathTokens h.rootLast.2 hls]
  simp [DecodeRun.after, decodeLoop]

end Sys2Proof.Machine
end

section
/-! PROOFS. The statements of the family 44_decoder.md. -/

namespace Sys2Proof.Proofs

open Sys2Proof.Machine

/-- Settles O28: each check is a run that reads and stores nothing, and reports its error at 0. -/
theorem decodeChecksLengthThenTree : Obligations.DecodeChecksLengthThenTree := fun _ =>
  ⟨fun hlong => exec_decode_of_run (State.checkedDecodeRun_of_long hlong),
    fun hpos hlen habsent => exec_decode_of_run (State.checkedDecodeRun_of_absent hlen hpos habsent)⟩

/-- Settles O29: the digits before the malformed token lead somewhere in the tree, and wherever that is the token ends the loop. -/
theorem malformedTokenIsReported : Obligations.MalformedTokenIsReported := by
  intro s pre x post hpresent hlen hstream hpre h0 h1
  obtain ⟨p, rfl⟩ := exists_path_of_allDigits hpre
  have herror : s.checkedDecodeRun.error = some (.malformedBit, (p.map tokenOf).length) := by
    rw [State.checkedDecodeRun_of_present hlen hpresent, State.decodeRun, hstream,
      decodeLoop_error_of_malformed (digitOf_eq_none h0 h1), Nat.zero_add, List.length_map]
  refine ⟨_, exec_decode s, ?_⟩
  simp only [State.afterDecode, herror]
  exact ⟨rfl, rfl, rfl, State.ofNat_length_of_stream hstream, rfl⟩

/-- Settles O30: the next state is a record over s, and its run stores the elements the statement names. -/
theorem decodeWritesOnlyItsWriteSet : Obligations.DecodeWritesOnlyItsWriteSet := by
  intro s t h
  rw [afterDecode_of_exec h, ← State.checkedDecodeRun_bytes]
  exact ⟨rfl, Memory.sameFrom_writeList _ _, Memory.holds_writeList _ _, fun herr => resultLen_of_error herr⟩

/-- Settles O31: each byte stored takes a token, and R10 gives OUT_BUF room for as many bytes as TOK_BUF holds tokens. -/
theorem decodeNeverOverflowsOutBuf : Obligations.DecodeNeverOverflowsOutBuf := by
  intro s t hv hlen h
  obtain ⟨-, -, -, hcaps, -⟩ := (Config.Caps.valid_iff s.caps).mp hv
  obtain ⟨-, hsame, -⟩ := decodeWritesOnlyItsWriteSet s t h
  have hstores := s.decodeStores_length_le
  exact ⟨hstores, hlen, hcaps, fun k hk => hsame k (hstores.trans (hlen.trans (hcaps.trans hk)))⟩

/-- Settles O32: the loop reads one leaf path after the other and ends at the root; a sequence of codes is one of leaf paths. -/
theorem decodeInvertsTheCode : Obligations.DecodeInvertsTheCode := by
  intro s _ ht hpresent hlen
  have hshape := ht.1 hpresent
  refine ⟨fun ls hls hstream => ?_, fun bs hc hstream => ?_⟩
  · simpa only [List.length_map] using
      exec_decode_of_complete (hshape.checkedDecodeRun_of_pathTokens hpresent hlen hls hstream)
  · obtain ⟨ls, hls, rfl, hcodes⟩ := hshape.exists_leafPaths_of_allCoded hc
    exact exec_decode_of_complete (hshape.checkedDecodeRun_of_pathTokens hpresent hlen hls (hstream.trans hcodes))

/-- Settles O33: after the complete codes the loop is at the root, and the tokens left are a leaf's path cut short. -/
theorem truncatedStreamIsReported : Obligations.TruncatedStreamIsReported := by
  intro s bs y rest more ht hpresent hlen hc hrest hmore hsplit hstream
  have hshape := ht.1 hpresent
  obtain ⟨hy, hbs⟩ := List.forall_mem_cons.mp hc
  obtain ⟨ls, hls, rfl, hcodes⟩ := hshape.exists_leafPaths_of_allCoded hbs
  obtain ⟨l, hl, -, hcode⟩ := hshape.exists_leafPath_of_coded hy
  obtain ⟨i, -, -, hlead⟩ := hshape.mem_leafPaths_iff.mp hl
  obtain ⟨p, q, hpq, rfl, rfl⟩ := List.map_eq_append_iff.mp (hcode.symm.trans hsplit)
  rw [hpq] at hlead
  rw [ne_eq, List.map_eq_nil_iff] at hrest hmore
  rw [hcodes] at hstream ⊢
  have hrun : s.checkedDecodeRun = { bytes := ls.map fun l => l.1.sym, read := p.length + (pathTokens ls).length
                                     error := some (.truncated, (pathTokens ls).length) } := by
    rw [State.checkedDecodeRun_of_present hlen hpresent, State.decodeRun, hstream,
      decodeLoop_pathTokens hshape.rootLast.2 hls, decodeLoop_cut_path hlead hmore _ (.inr hrest)]
    simp [DecodeRun.after]
  exact ⟨_, exec_decode_of_run hrun, rfl, rfl, rfl, State.ofNat_length_of_stream hstream, rfl, Memory.holds_writeList _ _,
    Memory.sameFrom_writeList _ _⟩

end Sys2Proof.Proofs
end

section
/-! SUPPORT. COMPRESS as an ENCODE on the state its first three bodies leave (45_control.md R166): the tables of that state, the encoder's run over the input they were made of, and the code of an input of one symbol (R177). -/

namespace Sys2Proof.Machine

/-! ## Written inputs (R48) -/

theorem Memory.written_of_holds {m : Memory} {vs : List Byte} (h : m.holds vs) : m.written vs.length :=
  fun k hk => Option.isSome_iff_exists.mpr ⟨_, h k hk⟩

theorem State.inputBytes_of_holds {s : State} {bs : List Byte} (hlen : bs.length = s.inLen.toNat) (h : s.inBuf.holds bs) :
    s.inputBytes = bs := by
  rw [State.inputBytes, ← hlen, Memory.readList_of_holds _ _ _ h]

theorem State.streamTokens_of_holds {s : State} {ts : List Byte} (hlen : ts.length = s.tokLen.toNat) (h : s.tokBuf.holds ts) :
    s.streamTokens = ts := by
  rw [State.streamTokens, ← hlen, Memory.readList_of_holds _ _ _ h]

/-- A written input is what its elements are, whatever the draws. -/
theorem State.inputBytes_of_written {s s' : State} (hlen : s.inLen = s'.inLen) (hw : s.inBuf.written s.inLen.toNat)
    (hread : ∀ k, k < s.inLen.toNat → s.inBuf.read k = s'.inBuf.read k) : s.inputBytes = s'.inputBytes := by
  have hlens : s'.inputBytes.length = s.inLen.toNat := by rw [s'.inputBytes_length, hlen]
  refine List.ext_getElem? fun k => ?_
  by_cases hk : k < s.inLen.toNat
  · obtain ⟨v, hv⟩ := Option.isSome_iff_exists.mp (hw k hk)
    rw [State.inputBytes, State.inputBytes, ← hlen, Memory.readList_written _ _ _ _ k hk v (by rwa [Nat.zero_add]),
      Memory.readList_written _ _ _ _ k hk v (by rwa [Nat.zero_add, ← hread k hk])]
  · rw [List.getElem?_eq_none (by rw [s.inputBytes_length]; omega), List.getElem?_eq_none (by omega)]

/-! ## The state the first three bodies leave (R166) -/

section
variable (s : State)

@[simp] theorem State.compressTables_caps : s.compressTables.caps = s.caps := rfl
@[simp] theorem State.compressTables_inLenBad : s.compressTables.inLenBad = s.inLenBad := rfl
@[simp] theorem State.compressTables_freq : s.compressTables.freq = countTable s.inputBytes := rfl
@[simp] theorem State.compressTables_treeHeld : s.compressTables.treeHeld = treeOf (countTable s.inputBytes) := rfl
theorem State.compressTables_code : s.compressTables.code = s.compressTables.tableHeld := rfl

end

theorem State.compressTables_inputBytes {s : State} (hw : s.inBuf.written s.inLen.toNat) :
    s.compressTables.inputBytes = s.inputBytes :=
  (State.inputBytes_of_written (s := s) (s' := s.compressTables) rfl hw fun _ _ => rfl).symm

/-- BUILD_TABLE reads the tree held alone (R139). -/
theorem State.tableHeld_congr {s s' : State} (h : s.treeHeld = s'.treeHeld) : s.tableHeld = s'.tableHeld := by
  simp only [State.treeHeld, TreeImage.mk.injEq] at h
  obtain ⟨hnode, hroot, -, -, hpresent, -, -⟩ := h
  rw [State.tableHeld, State.tableHeld, hnode, hroot, hpresent]

/-! ## COMPRESS's next state -/

theorem exec_compress_of_ok {s : State} (h : s.inLenBad = false) : exec .compress s = exec .encode s.compressTables := by
  rw [exec_eq, exec_eq, commandOf, commandOf, compressCommand_eq h, encodeCommand_ok (by rwa [s.compressTables_inLenBad])]

/-- The failed length check is ENCODE's (R140, R166). -/
theorem exec_compress_of_bad {s : State} (h : s.inLenBad = true) : exec .compress s = exec .encode s := by
  rw [exec_eq, exec_eq, commandOf, commandOf, compressCommand_bad h, encodeCommand_bad h]

theorem State.compressStores_of_ok {s : State} (h : s.inLenBad = false) : s.compressStores = s.compressTables.encodeStores := by
  rw [State.compressStores, State.encodeStores, s.compressTables_inLenBad, h]
  rfl

theorem State.compressStores_of_bad {s : State} (h : s.inLenBad = true) : s.compressStores = s.encodeStores := by
  rw [State.compressStores, State.encodeStores, if_pos h, if_pos h]

/-- ENCODE overwrites ENG, DONE, ERR and SYNTH_HIT without reading them (R147). -/
theorem exec_encode_of_control (s : State) (eng : Engine) (done err hit : Bool) :
    exec .encode { s with eng := eng, status := { s.status with done := done, err := err, synthHit := hit } } = exec .encode s := by
  rw [exec_encode, exec_encode s, State.checkedEncodeRun_congr (s' := s) rfl rfl rfl rfl rfl]
  rfl

/-! ## Every input symbol has a real code (R166) -/

theorem countTable_get_ne_zero_iff {input : List Byte} (h : input.length < 2 ^ 32) {b : Byte} :
    (countTable input).get (symIndex b) ≠ 0 ↔ b ∈ input := by
  rw [ne_eq, ← BitVec.toNat_inj, countTable_get_toNat h, ← symIndex_eq_iff.mp rfl, ← ne_eq]
  exact Nat.pos_iff_ne_zero.symm.trans List.count_pos_iff

/-- Where a symbol occurs, the tree held is present (R114). -/
theorem State.treePresent_of_counted {s : State} {f : FreqTable} (h : s.treeHeld = treeOf f) {y : Fin 256} (hy : f.get y ≠ 0) :
    s.status.treePresent = true :=
  (congrArg TreeImage.present h).trans ((treeOf_present_iff f).mpr ⟨y, hy⟩)

/-- The entry of a symbol that occurs is that of its real leaf. -/
theorem State.tableHeld_of_counted {s : State} {f : FreqTable} (h : s.treeHeld = treeOf f) {y : Fin 256} (hy : f.get y ≠ 0) :
    (s.tableHeld.get y).valid = true ∧ (s.tableHeld.get y).synth = false := by
  have hm := holdsMerge_nodesOf h ⟨y, hy⟩
  have hreal : ∃ l ∈ leafPaths s.node s.root, l.1.synth = false ∧ symIndex l.1.sym = y :=
    (hm.treeShape.exists_leafPath_iff _).mpr ((hm.exists_leaf_iff _).mpr (exists_real_leavesOf_symbol_iff.mpr hy))
  rw [State.tableHeld_of_present (State.treePresent_of_counted h hy), codeTableOf_valid_iff, ← Bool.not_eq_true,
    codeTableOf_synth_iff]
  exact ⟨hreal.imp fun _ hl => ⟨hl.1, hl.2.2⟩, fun hsynth => hsynth.2 hreal⟩

section
variable {s : State} {b : Byte} (hb : b ∈ s.inputBytes)
include hb

theorem State.countTable_of_mem : (countTable s.inputBytes).get (symIndex b) ≠ 0 :=
  (countTable_get_ne_zero_iff (s.inputBytes_length ▸ s.inLen.isLt)).mpr hb

theorem State.compressTables_present : s.compressTables.status.treePresent = true :=
  State.treePresent_of_counted s.compressTables_treeHeld (State.countTable_of_mem hb)

theorem State.compressTables_code_of_mem : (s.compressTables.code.get (symIndex b)).valid = true ∧
    (s.compressTables.code.get (symIndex b)).synth = false :=
  State.tableHeld_of_counted s.compressTables_treeHeld (State.countTable_of_mem hb)

end

theorem State.compressTables_allCoded (s : State) : allCoded s.compressTables.code s.inputBytes :=
  fun _ hb => (State.compressTables_code_of_mem hb).1

theorem State.compressTables_usesSynthetic (s : State) {bs : List Byte} (hbs : bs ⊆ s.inputBytes) :
    usesSynthetic s.compressTables.code bs = false := by
  rw [usesSynthetic, List.any_eq_false]
  exact fun b hb => by rw [(State.compressTables_code_of_mem (hbs hb)).2]; exact Bool.false_ne_true

/-- Where the input has a byte a tree is present, so its codes are those in the table of that tree. -/
theorem State.compressTables_codeTokens (s : State) : codeTokens s.compressTables.code s.inputBytes =
    codeTokens (codeTableOf s.compressTables.node s.compressTables.root) s.inputBytes :=
  List.flatMap_congr fun _ hb => by
    rw [s.compressTables_code, State.tableHeld_of_present (State.compressTables_present hb)]

/-! ## The encoder's run over that input -/

/-- The codes of an input that does not fit pass the capacity at some byte first. -/
theorem exists_first_overflow {c : CodeTable} {cap : Nat} {bs : List Byte} (h : cap < (codeTokens c bs).length) :
    ∃ pre b post, bs = pre ++ b :: post ∧ (codeTokens c pre).length ≤ cap ∧
      cap < (codeTokens c pre).length + (c.get (symIndex b)).len.toNat := by
  induction bs using List.reverseRecOn with
  | nil => exact absurd h (Nat.not_lt_zero cap)
  | append_singleton bs b ih =>
    by_cases hbs : cap < (codeTokens c bs).length
    · obtain ⟨pre, x, post, rfl, hpre⟩ := ih hbs
      exact ⟨pre, x, post ++ [b], by simp, hpre⟩
    · refine ⟨bs, b, [], rfl, Nat.le_of_not_lt hbs, ?_⟩
      simpa [codeTokens] using h

section
variable {s : State} (hlen : s.inLen.toNat ≤ s.caps.inCap) (hw : s.inBuf.written s.inLen.toNat)
include hlen hw

/-- The run reads the input COUNT counted (log 10). -/
theorem State.compressTables_run :
    s.compressTables.checkedEncodeRun = encodeLoop s.compressTables.code s.caps.tokCap 0 0 s.inputBytes := by
  rw [State.checkedEncodeRun_of_ok (s := s.compressTables) (s.inLenBad_false_iff.mpr hlen), State.encodeRun,
    State.compressTables_inputBytes hw, s.compressTables_caps]

theorem State.compressTables_run_of_fits
    (hf : (codeTokens s.compressTables.code s.inputBytes).length ≤ s.caps.tokCap) :
    s.compressTables.checkedEncodeRun =
      { tokens := codeTokens s.compressTables.code s.inputBytes, hit := false, read := s.inputBytes.length, error := none } := by
  have hcoded := s.compressTables_allCoded
  rw [← State.compressTables_inputBytes hw] at hcoded hf
  rw [State.checkedEncodeRun_of_fits (s := s.compressTables) hlen hcoded hf, State.compressTables_inputBytes hw,
    s.compressTables_usesSynthetic (List.Subset.refl _)]

theorem State.compressTables_run_of_overflow
    (hf : s.caps.tokCap < (codeTokens s.compressTables.code s.inputBytes).length) :
    s.compressTables.checkedEncodeRun.hit = false ∧
      ∃ k, s.compressTables.checkedEncodeRun.error = some (.outOverflow, k) := by
  obtain ⟨pre, b, post, hsplit, hfits, hover⟩ := exists_first_overflow hf
  have hcoded := s.compressTables_allCoded
  rw [hsplit] at hcoded
  have hpre : pre ⊆ s.inputBytes := by rw [hsplit]; exact List.subset_append_left _ _
  rw [State.checkedEncodeRun_of_fails (s := s.compressTables) hlen ((State.compressTables_inputBytes hw).trans hsplit)
    (fun x hx => hcoded x (List.mem_append_left _ hx)) hfits (.inr ⟨hcoded b (by simp), hover, rfl⟩)]
  exact ⟨s.compressTables_usesSynthetic hpre, _, rfl⟩

/-- COMPRESS of a written input whose codes fit succeeds, with the new tables and the stream of the input's codes (R168). -/
theorem exec_compress_of_fits (hv : s.caps.valid = true)
    (hf : (codeTokens s.compressTables.code s.inputBytes).length ≤ s.caps.tokCap) :
    ∃ t, exec .compress s = .next t ∧ t.status.err = false ∧ t.status.synthHit = false ∧ t.caps = s.caps ∧
      t.treeHeld = treeOf (countTable s.inputBytes) ∧ t.code = s.compressTables.code ∧
      t.tokLen.toNat = (codeTokens t.code s.inputBytes).length ∧ t.tokBuf.holds (codeTokens t.code s.inputBytes) := by
  obtain ⟨-, ⟨-, -, htokCap⟩, -⟩ := (Config.Caps.valid_iff s.caps).mp hv
  have htokLen : (BitVec.ofNat 32 (codeTokens s.compressTables.code s.inputBytes).length).toNat =
      (codeTokens s.compressTables.code s.inputBytes).length :=
    (BitVec.toNat_ofNat _ _).trans (Nat.mod_eq_of_lt (by omega))
  have hrun := exec_encode_of_run (State.compressTables_run_of_fits hlen hw hf)
  exact ⟨_, (exec_compress_of_ok (s.inLenBad_false_iff.mpr hlen)).trans hrun, rfl, rfl, rfl, rfl, rfl,
    htokLen, Memory.holds_writeList _ _⟩

end

/-! ## The empty input (R178) -/

theorem exec_compress_of_empty {s : State} (h : s.inLen = 0) :
    ∃ t, exec .compress s = .next t ∧ t.status.err = false ∧ t.tokLen = 0 ∧ t.status.treePresent = false := by
  have hbad := State.inLenBad_of_empty h
  have hrun := (State.checkedEncodeRun_of_ok (s := s.compressTables) hbad).trans (State.encodeRun_of_empty h)
  have hheld : s.compressTables.treeHeld = absentTree := by
    rw [s.compressTables_treeHeld, State.inputBytes_of_empty h]
    exact treeOf_zeroFreq
  exact ⟨_, (exec_compress_of_ok hbad).trans (exec_encode_of_run hrun), rfl, rfl, congrArg TreeImage.present hheld⟩

/-! ## The tree of one symbol (R177) -/

theorem countTable_replicate_get {n : Nat} (hn : n < 2 ^ 32) (x : Byte) :
    ((countTable (List.replicate n x)).get (symIndex x)).toNat = n := by
  rw [countTable_get_toNat (by rwa [List.length_replicate]), ← symIndex_eq_iff.mp rfl, List.count_replicate_self]

theorem symbolsOf_countTable_replicate {n : Nat} (hpos : 1 ≤ n) (hn : n < 2 ^ 32) (x : Byte) :
    symbolsOf (countTable (List.replicate n x)) = [symIndex x] := by
  have hocc (b : Byte) : (countTable (List.replicate n x)).get (symIndex b) ≠ 0 ↔ b = x := by
    rw [countTable_get_ne_zero_iff (by rwa [List.length_replicate]), List.mem_replicate]
    exact and_iff_right (Nat.ne_of_gt hpos)
  refine symbolsOf_eq_singleton_iff.mpr ⟨(hocc x).mpr rfl, fun y hy => not_not.mp fun h => hy ?_⟩
  rw [← symIndex_ofNat y] at h ⊢
  rw [(hocc _).mp h]

section
variable {s : State} {f : FreqTable} {x : Fin 256} (h : s.treeHeld = treeOf f) (hsym : symbolsOf f = [x])
include h hsym

theorem State.leafCount_of_singleton : s.leafCount.val = 2 := by
  rw [(holdsMerge_nodesOf h ⟨x, (symbolsOf_eq_singleton_iff.mp hsym).1⟩).leafCount, leavesOf_length, hsym]
  rfl

/-- The real leaf is one digit below the root: '0' exactly when it precedes the synthetic leaf. -/
theorem State.real_leafPath_of_singleton {l : Node × Path} (hl : l ∈ leafPaths s.node s.root) (hreal : l.1.synth = false) :
    ∃ b, l.2 = [b] ∧ (b = false ↔ x = 0 ∧ f.get x = 1) := by
  have hm := holdsMerge_nodesOf h ⟨x, (symbolsOf_eq_singleton_iff.mp hsym).1⟩
  have hnode := hm.node
  have hroot := hm.root
  rw [nodesOf_singleton hsym] at hnode hroot
  obtain ⟨hpos, hle⟩ := hm.treeShape.leafPath_length hl
  have hleaves := State.leafCount_of_singleton h hsym
  obtain ⟨b, hb⟩ := List.length_eq_one_iff.mp (show l.2.length = 1 by omega)
  obtain ⟨i, -, hi, hlead⟩ := hm.treeShape.mem_leafPaths_iff.mp hl
  have hchild : i = (s.node.get s.root).child b := by
    rw [hb] at hlead
    cases hlead with
    | down _ rest => cases rest; rfl
  refine ⟨b, hb, ?_⟩
  rw [← hi, hchild, hnode s.root, hroot, hnode] at hreal
  by_cases hfirst : x = 0 ∧ f.get x = 1
  · simp only [if_pos hfirst] at hreal
    rw [iff_true_right hfirst]
    cases b with
    | false => rfl
    | true => exact Bool.noConfusion hreal
  · simp only [if_neg hfirst] at hreal
    rw [iff_false_right hfirst]
    cases b with
    | false => exact Bool.noConfusion hreal
    | true => exact Bool.noConfusion

/-- The code of the one symbol. -/
theorem State.tableHeld_of_singleton : (s.tableHeld.get x).valid = true ∧ (s.tableHeld.get x).len = 1 ∧
    ((s.tableHeld.get x).bits.getLsbD 0 = false ↔ x = 0 ∧ f.get x = 1) := by
  have hx : f.get x ≠ 0 := (symbolsOf_eq_singleton_iff.mp hsym).1
  obtain ⟨hvalid, hreal⟩ := State.tableHeld_of_counted h hx
  refine ⟨hvalid, ?_⟩
  rw [State.tableHeld_of_present (State.treePresent_of_counted h hx)] at hvalid hreal ⊢
  obtain ⟨l, hl, -, hentry⟩ := codeTableOf_get_of_valid hvalid
  rw [hentry] at hreal ⊢
  obtain ⟨b, hpath, hdigit⟩ := State.real_leafPath_of_singleton h hsym hl hreal
  rw [hpath, codeEntry_bits (by simp)]
  exact ⟨rfl, hdigit⟩

end

end Sys2Proof.Machine
end

section
/-! PROOFS. The statements of the family 45_control.md. -/

namespace Sys2Proof.Proofs

open Sys2Proof.Machine

/-- Settles O8: the body of NOP is the end of a command. -/
theorem nopHasNoEffect : Obligations.NopHasNoEffect := fun s => by
  rw [exec_eq, commandOf, nopCommand, CmdResult.finish_completed]

/-- Settles O34: the states the four commands leave differ from COMPRESS's own between its bodies only in what ENCODE overwrites, and the frame of COMPRESS is that of its ENCODE. -/
theorem compressIsTheFourCommands : Obligations.CompressIsTheFourCommands := by
  refine ⟨fun s a b c d hlen ha hb hc hd => ?_, fun s => ?_⟩
  · rw [exec_count_ok hlen, Host.Outcome.next.injEq] at ha
    rw [exec_buildTree, Host.Outcome.next.injEq] at hb
    rw [exec_buildTable, Host.Outcome.next.injEq] at hc
    have hstate : c = { s.compressTables with
        eng := .idle
        status := { s.compressTables.status with done := true, err := false, synthHit := s.status.synthHit } } := by
      rw [← hc, ← hb, ← ha]
      rfl
    rw [← hd, hstate, exec_encode_of_control, exec_compress_of_ok (s.inLenBad_false_iff.mpr hlen)]
  · cases hb : s.inLenBad with
    | true =>
      rw [exec_compress_of_bad hb, State.compressStores_of_bad hb]
      obtain ⟨-, hstores⟩ := encodeWritesOnlyItsWriteSet s _ (exec_encode s)
      exact ⟨_, exec_encode s, rfl, hstores⟩
    | false =>
      rw [exec_compress_of_ok hb, State.compressStores_of_ok hb]
      obtain ⟨-, hstores⟩ := encodeWritesOnlyItsWriteSet s.compressTables _ (exec_encode _)
      exact ⟨_, exec_encode _, rfl, hstores⟩

/-- Settles O35: every input symbol was counted, so it has a real leaf, and the encoder can fail only where the stream passes TOK_CAP. -/
theorem compressFindsEverySymbol : Obligations.CompressFindsEverySymbol := by
  intro s hv hlen hw
  rcases Nat.lt_or_ge s.caps.tokCap (codeTokens s.compressTables.code s.inputBytes).length with hover | hf
  · obtain ⟨hhit, k, herr⟩ := State.compressTables_run_of_overflow hlen hw hover
    refine ⟨_, (exec_compress_of_ok (s.inLenBad_false_iff.mpr hlen)).trans (exec_encode _), hhit, ?_⟩
    simp only [State.afterEncode, herr]
    exact ⟨fun _ => rfl, iff_of_false (Bool.noConfusion ·) (Nat.not_le.mpr hover)⟩
  · obtain ⟨t, ht, herr, hhit, -, -, hcode, -⟩ := exec_compress_of_fits hlen hw hv hf
    exact ⟨t, ht, hhit, fun h => absurd h (Bool.eq_false_iff.mp herr), iff_of_true herr (hcode ▸ hf)⟩

/-- Settles O36: the tables and the encoder's run are functions of the input, which is written. -/
theorem compressIsDeterministic : Obligations.CompressIsDeterministic := by
  intro s s' t t' hcaps hinLen hlen hw hread h h'
  have hinput : s.inputBytes = s'.inputBytes := State.inputBytes_of_written hinLen hw hread
  have hw' : s'.inBuf.written s'.inLen.toNat := hinLen ▸ fun k hk => hread k hk ▸ hw k hk
  have hlen' : s'.inLen.toNat ≤ s'.caps.inCap := by rwa [← hinLen, ← hcaps]
  have hheld : s.compressTables.treeHeld = s'.compressTables.treeHeld := by
    rw [s.compressTables_treeHeld, s'.compressTables_treeHeld, hinput]
  have hcode : s.compressTables.code = s'.compressTables.code := State.tableHeld_congr hheld
  have hrun : s.compressTables.checkedEncodeRun = s'.compressTables.checkedEncodeRun := by
    rw [State.compressTables_run hlen hw, State.compressTables_run hlen' hw', hcode, hcaps, hinput]
  rw [exec_compress_of_ok (s.inLenBad_false_iff.mpr hlen)] at h
  rw [exec_compress_of_ok (s'.inLenBad_false_iff.mpr hlen')] at h'
  have hfreq : s.compressTables.freq = s'.compressTables.freq := by
    rw [s.compressTables_freq, s'.compressTables_freq, hinput]
  simp only [State.treeHeld, TreeImage.mk.injEq] at hheld
  obtain ⟨hnode, hroot, hnodes, hleaves, hpresent, hsynth, hcollide⟩ := hheld
  rw [afterEncode_of_exec h, afterEncode_of_exec h', hrun]
  exact ⟨hfreq, hnode, hroot, hnodes, hleaves, hpresent, hsynth, hcollide, rfl, rfl, hcode, rfl,
    fun k hk => Memory.read_writeList_eq _ _ (hk.trans_le (resultLen_toNat_le _ _)), fun herr => report_of_error herr _ _ _ _⟩

/-- Settles O37: the encoder reads no byte, COUNT counted none, and DECODE stops at its empty-stream check. -/
theorem emptyInputRoundTrip : Obligations.EmptyInputRoundTrip := by
  intro s h
  obtain ⟨t, ht, herr, htok, habsent⟩ := exec_compress_of_empty h
  exact ⟨t, _, ht, herr, htok, habsent, (emptyOperandsSucceed t).2 htok, rfl, rfl⟩

/-- DECODE of the codes the tree held gives to `bs` is `bs`; where no tree is present only the empty sequence is coded, and its stream needs none (R156). -/
theorem decode_of_tableHeld {s : State} {f : FreqTable} {bs : List Byte} (hv : s.caps.valid = true)
    (hheld : s.treeHeld = treeOf f) (hc : allCoded s.tableHeld bs)
    (htokLen : s.tokLen.toNat = (codeTokens s.tableHeld bs).length) (hlen : s.tokLen.toNat ≤ s.caps.tokCap)
    (hstream : s.tokBuf.holds (codeTokens s.tableHeld bs)) :
    ∃ t, exec .decode s = .next t ∧ t.status.err = false ∧ t.outLen.toNat = bs.length ∧ t.outBuf.holds bs := by
  cases hpresent : s.status.treePresent with
  | false =>
    have hnil : bs = [] := List.eq_nil_iff_forall_not_mem.mpr fun b hb => by
      have hvalid := hc b hb
      rw [State.tableHeld_of_absent hpresent, zeroCodes_get] at hvalid
      cases hvalid
    subst hnil
    exact ⟨_, (emptyOperandsSucceed s).2 (BitVec.eq_of_toNat_eq htokLen), rfl, rfl, fun j hj => absurd hj (Nat.not_lt_zero j)⟩
  | true =>
    have hinv : TreeInvariant s := ((treeBuilt_iff s).mpr ⟨f, hheld⟩).treeInvariant
    have htokens := State.streamTokens_of_holds htokLen.symm hstream
    rw [State.tableHeld_of_present hpresent] at hc htokens
    obtain ⟨t, ht, houtLen, hout, -, hframe⟩ := (decodeInvertsTheCode s hv hinv hpresent hlen).2 bs hc htokens
    exact ⟨t, ht, by rw [hframe]; rfl, houtLen, hout⟩

/-- Settles O38: COMPRESS leaves the tree of the input and the codes of its bytes in that tree, which DECODE inverts. -/
theorem roundTripLaw : Obligations.RoundTripLaw := by
  intro s bs hv hlen hcap hholds hf
  obtain rfl : s.inputBytes = bs := State.inputBytes_of_holds hlen hholds
  have hw : s.inBuf.written s.inLen.toNat := hlen ▸ Memory.written_of_holds hholds
  have hfits : (codeTokens s.compressTables.code s.inputBytes).length ≤ s.caps.tokCap := by
    rw [s.compressTables_codeTokens]
    exact hf
  obtain ⟨t, ht, herr, -, hcaps, hheld, hcode, htokLen, hstream⟩ := exec_compress_of_fits (hlen ▸ hcap) hw hv hfits
  have htable : t.code = t.tableHeld := hcode.trans (State.tableHeld_congr hheld).symm
  have hcoded : allCoded t.code s.inputBytes := hcode ▸ s.compressTables_allCoded
  have htokCap : t.tokLen.toNat ≤ t.caps.tokCap := by rwa [htokLen, hcode, hcaps]
  rw [htable] at hcoded htokLen hstream
  obtain ⟨u, hu, hresult⟩ := decode_of_tableHeld (s := t.accept (encode .decode)) (hcaps ▸ hv) hheld hcoded htokLen
    htokCap hstream
  exact ⟨t, u, ht, herr, hu, hresult⟩

/-- Settles O39: the tree has the two leaves of R112, and each input byte gives one token. -/
theorem singleSymbolCompress : Obligations.SingleSymbolCompress := by
  intro s x hv hpos hcap htok hholds
  have hinput : s.inputBytes = List.replicate s.inLen.toNat x := State.inputBytes_of_holds (by simp) hholds
  have hw : s.inBuf.written s.inLen.toNat := by simpa using Memory.written_of_holds hholds
  have hsym : symbolsOf (countTable s.inputBytes) = [symIndex x] :=
    hinput ▸ symbolsOf_countTable_replicate hpos s.inLen.isLt x
  obtain ⟨hvalid, hone, hdigit⟩ := State.tableHeld_of_singleton s.compressTables_treeHeld hsym
  rw [← s.compressTables_code] at hvalid hone hdigit
  have hlength : (codeTokens s.compressTables.code s.inputBytes).length = s.inLen.toNat := by
    rw [codeTokens_length, hinput, List.map_replicate, hone]
    simp
  have hfirst : symIndex x = 0 ∧ (countTable s.inputBytes).get (symIndex x) = 1 ↔ x = 0 ∧ s.inLen.toNat = 1 := by
    rw [symIndex_eq_iff, ← BitVec.toNat_inj (x := (countTable _).get _), hinput,
      countTable_replicate_get s.inLen.isLt]
    rfl
  obtain ⟨t, ht, herr, -, -, hheld, hcode, htokLen, -⟩ := exec_compress_of_fits hcap hw hv (hlength.trans_le htok)
  refine ⟨t, ht, herr, Fin.ext (State.leafCount_of_singleton hheld hsym), ?_, ?_⟩
  · rw [show t.status.synthPresent = _ from congrArg TreeImage.synthPresent hheld, treeOf_synthPresent, hsym]
    rfl
  · rw [hcode] at htokLen ⊢
    exact ⟨hvalid, hone, hdigit.trans hfirst, BitVec.eq_of_toNat_eq (htokLen.trans hlength)⟩

end Sys2Proof.Proofs
end

section
/-! SUPPORT. Commands over written operands (70_reset_and_hazards.md R216): their loops read no further than the operands, so no draw is taken, and the draw counter reaches nothing of the result (10_state.md R48). -/

namespace Sys2Proof.Machine

/-! ## Written elements -/

theorem Memory.drawCount_of_written {m : Memory} {n k : Nat} (h : m.written n) (hk : k ≤ n) : m.drawCount 0 k = 0 :=
  m.drawCount_written 0 k fun j hj => by rw [Nat.zero_add]; exact h j (hj.trans_le hk)

theorem Memory.readList_of_written {m : Memory} {n : Nat} (h : m.written n) (d d' : Nat) :
    m.readList d 0 n = m.readList d' 0 n :=
  m.readList_draws d d' 0 n fun j hj => by rw [Nat.zero_add]; exact h j hj

/-! ## How far the loops read -/

/-- ENCODE stops at a failing byte, and reads no further than its input. -/
theorem encodeLoop_read_le (c : CodeTable) (cap k p : Nat) (bs : List Byte) :
    (encodeLoop c cap k p bs).read ≤ bs.length := by
  induction bs generalizing k p with
  | nil => exact Nat.le_refl 0
  | cons b bs ih =>
    rw [encodeLoop, List.length_cons]
    dsimp only
    split
    · exact Nat.le_add_left 1 _
    · split
      · exact Nat.le_add_left 1 _
      · exact Nat.succ_le_succ (ih _ _)

/-- DECODE stops at a malformed token, and reads no further than its stream. -/
theorem decodeLoop_read_le (node : NodeTable) (root : Fin 511) (k : Nat) (cur : Fin 511) (st : DecoderState) (start : Nat)
    (ts : List Byte) : (decodeLoop node root k cur st start ts).read ≤ ts.length := by
  induction ts generalizing k cur st start with
  | nil => cases st <;> exact Nat.le_refl 0
  | cons t ts ih =>
    rw [decodeLoop_cons, List.length_cons]
    split
    · exact Nat.le_add_left 1 _
    · split <;> exact Nat.succ_le_succ (ih _ _ _ _)

/-! ## Commands without draws -/

/-- `exec` of `i` takes no draw, and the draw counter reaches nothing of its result but the counter itself. -/
def DrawFree (i : Instr) (s : State) : Prop :=
  ∃ t : State, ∀ d, exec i { s with draws := d } = .next { t with draws := d }

theorem DrawFree.exec_draws {i : Instr} {s t : State} (h : DrawFree i s) (ht : exec i s = .next t) (d : Nat) :
    t.draws = s.draws ∧ exec i { s with draws := d } = .next { t with draws := d } := by
  obtain ⟨u, hu⟩ := h
  have hself : exec i s = .next { u with draws := s.draws } := hu s.draws
  rw [ht, Host.Outcome.next.injEq] at hself
  subst hself
  exact ⟨rfl, hu d⟩

section
variable {s : State}

theorem State.inputBytes_of_draws (hw : s.inBuf.written s.inLen.toNat) (d : Nat) :
    { s with draws := d }.inputBytes = s.inputBytes := Memory.readList_of_written hw d s.draws

theorem State.streamTokens_of_draws (hw : s.tokBuf.written s.tokLen.toNat) (d : Nat) :
    { s with draws := d }.streamTokens = s.streamTokens := Memory.readList_of_written hw d s.draws

/-- COUNT reads each byte of the input once. -/
theorem countBody_of_written (hw : s.inBuf.written s.inLen.toNat) (d : Nat) :
    countBody { s with draws := d } = .completed { s with freq := countTable s.inputBytes, draws := d } := by
  rw [countBody, State.inputBytes_of_draws hw, Memory.drawCount_of_written hw (Nat.le_refl _), Nat.add_zero]

theorem State.compressTables_of_draws (hw : s.inBuf.written s.inLen.toNat) (d : Nat) :
    { s with draws := d }.compressTables = { s.compressTables with draws := d } := by
  have hcount (d : Nat) := countBody_of_written (s := s.clearSynthHit) hw d
  have hself : countBody s.clearSynthHit = _ := hcount s.draws
  have hother : countBody { s with draws := d }.clearSynthHit = _ := hcount d
  rw [State.compressTables, State.compressTables, hself, hother]
  rfl

theorem drawFree_count (h : definedOperands .count s) : DrawFree .count s := by
  refine ⟨(countCommand s).finish, fun d => ?_⟩
  rw [exec_eq, commandOf]
  cases hb : s.inLenBad with
  | true => rw [countCommand_bad hb, countCommand_bad (s := { s with draws := d }) hb]; rfl
  | false =>
    have hself : countBody s = _ := countBody_of_written (h hb) s.draws
    rw [countCommand_ok hb, countCommand_ok (s := { s with draws := d }) hb, hself, countBody_of_written (h hb)]
    rfl

/-- The encoder's run over a written input: the same for every draw counter, and none taken. -/
theorem State.checkedEncodeRun_drawFree (h : definedOperands .encode s) :
    (∀ d, { s with draws := d }.checkedEncodeRun = s.checkedEncodeRun) ∧
      s.inBuf.drawCount 0 s.checkedEncodeRun.read = 0 := by
  cases hb : s.inLenBad with
  | true =>
    rw [State.checkedEncodeRun_of_bad hb]
    exact ⟨fun d => State.checkedEncodeRun_of_bad (s := { s with draws := d }) hb, rfl⟩
  | false =>
    have hread : s.encodeRun.read ≤ s.inputBytes.length := encodeLoop_read_le ..
    rw [State.checkedEncodeRun_of_ok hb]
    refine ⟨fun d => ?_, Memory.drawCount_of_written (h hb) (s.inputBytes_length ▸ hread)⟩
    rw [State.checkedEncodeRun_of_ok (s := { s with draws := d }) hb, State.encodeRun, State.inputBytes_of_draws (h hb)]
    rfl

theorem drawFree_encode (h : definedOperands .encode s) : DrawFree .encode s := by
  obtain ⟨hrun, hcount⟩ := State.checkedEncodeRun_drawFree h
  refine ⟨s.afterEncode s.checkedEncodeRun, fun d => ?_⟩
  rw [exec_encode_of_run (hrun d), State.afterEncode, hcount]
  rfl

/-- With no tree present DECODE reads nothing, whether it ends at the empty stream (R156) or at the absent tree (R157). -/
theorem State.checkedDecodeRun_of_treeless (hlen : s.tokLen.toNat ≤ s.caps.tokCap) (habsent : s.status.treePresent = false) :
    s.checkedDecodeRun = { bytes := [], read := 0, error := if s.tokLen = 0 then none else some (.noTree, 0) } := by
  rw [State.checkedDecodeRun, s.tokLenBad_false_iff.mpr hlen, habsent]
  by_cases hz : s.tokLen = 0
  · rw [if_neg Bool.false_ne_true, if_pos hz, if_pos hz]
  · rw [if_neg Bool.false_ne_true, if_neg hz, if_neg hz]
    rfl

/-- The decoder's run over a written stream: the same for every draw counter, and none taken. -/
theorem State.checkedDecodeRun_drawFree (h : definedOperands .decode s) :
    (∀ d, { s with draws := d }.checkedDecodeRun = s.checkedDecodeRun) ∧
      s.tokBuf.drawCount 0 s.checkedDecodeRun.read = 0 := by
  rcases Nat.lt_or_ge s.caps.tokCap s.tokLen.toNat with hlong | hlen
  · rw [State.checkedDecodeRun_of_long hlong]
    exact ⟨fun d => State.checkedDecodeRun_of_long (s := { s with draws := d }) hlong, rfl⟩
  · cases ht : s.status.treePresent with
    | false =>
      rw [State.checkedDecodeRun_of_treeless hlen ht]
      exact ⟨fun d => State.checkedDecodeRun_of_treeless (s := { s with draws := d }) hlen ht, rfl⟩
    | true =>
      have hw : s.tokBuf.written s.tokLen.toNat := fun k hk =>
        h (s.tokLenBad_false_iff.mpr hlen) (fun hz => absurd hk (by simp [hz])) ht k hk
      have hread : s.decodeRun.read ≤ s.streamTokens.length := decodeLoop_read_le ..
      rw [State.checkedDecodeRun_of_present hlen ht]
      refine ⟨fun d => ?_, Memory.drawCount_of_written hw (s.streamTokens_length ▸ hread)⟩
      rw [State.checkedDecodeRun_of_present (s := { s with draws := d }) hlen ht, State.decodeRun,
        State.streamTokens_of_draws hw]
      rfl

theorem drawFree_decode (h : definedOperands .decode s) : DrawFree .decode s := by
  obtain ⟨hrun, hcount⟩ := State.checkedDecodeRun_drawFree h
  refine ⟨s.afterDecode s.checkedDecodeRun, fun d => ?_⟩
  rw [exec_decode_of_run (hrun d), State.afterDecode, hcount]
  rfl

/-- COMPRESS is ENCODE on s itself where the length check fails, and else on the state its first three bodies leave. -/
theorem drawFree_compress (h : definedOperands .compress s) : DrawFree .compress s := by
  cases hb : s.inLenBad with
  | true =>
    obtain ⟨t, ht⟩ := drawFree_encode h
    exact ⟨t, fun d => (exec_compress_of_bad (s := { s with draws := d }) hb).trans (ht d)⟩
  | false =>
    obtain ⟨t, ht⟩ := drawFree_encode (s := s.compressTables) h
    refine ⟨t, fun d => ?_⟩
    rw [exec_compress_of_ok (s := { s with draws := d }) hb, State.compressTables_of_draws (h hb)]
    exact ht d

end

theorem drawFree_of_definedOperands (i : Instr) {s : State} (h : definedOperands i s) : DrawFree i s := by
  cases i with
  | nop => exact ⟨(commandOf .nop s).finish, fun _ => rfl⟩
  | count => exact drawFree_count h
  | buildTree => exact ⟨(commandOf .buildTree s).finish, fun _ => rfl⟩
  | buildTable => exact ⟨(commandOf .buildTable s).finish, fun _ => rfl⟩
  | encode => exact drawFree_encode h
  | decode => exact drawFree_decode h
  | compress => exact drawFree_compress h

end Sys2Proof.Machine
end

section
/-! SUPPORT. What the other statements of 70_reset_and_hazards.md rest on: COMPRESS of the empty input (R214), an accepted word waiting for its completion step (R231), and the state a reset step enters (R210). -/

namespace Sys2Proof.Machine

/-! ## COMPRESS of the empty input (R214) -/

/-- Of no byte COUNT makes the all-zero table, BUILD_TREE the absent tree of it, and BUILD_TABLE the all-invalid table. -/
theorem State.compressTables_of_empty {s : State} (h : s.inLen = 0) :
    s.compressTables = { s.clearSynthHit.installTree absentTree with freq := zeroFreq, code := zeroCodes } := by
  have hcount : countBody s.clearSynthHit = .completed { s.clearSynthHit with freq := zeroFreq } := by
    have hw : s.inBuf.written s.inLen.toNat := fun k hk => absurd hk (by simp [h])
    have hself : countBody s.clearSynthHit = _ := countBody_of_written (s := s.clearSynthHit) hw s.draws
    rw [hself, State.inputBytes_of_empty (s := s.clearSynthHit) h]
    rfl
  have htree : (buildTreeBody { s.clearSynthHit with freq := zeroFreq }).state =
      { s.clearSynthHit.installTree absentTree with freq := zeroFreq, code := zeroCodes } := by
    rw [buildTreeBody, treeOf_zeroFreq]
    rfl
  rw [State.compressTables, hcount, CmdResult.state_completed, htree]
  rfl

/-- COMPRESS's whole next state on the empty input: the reset values of what it writes, with its completion. -/
theorem exec_compress_of_inLen_zero {s : State} (h : s.inLen = 0) : exec .compress s =
    .next { s.installTree absentTree with
      eng := .idle, freq := zeroFreq, code := zeroCodes, tokLen := 0
      status := { Status.reset with done := true, busyViol := s.status.busyViol, busErr := s.status.busErr } } := by
  rw [exec_compress_of_ok (State.inLenBad_of_empty h), exec_eq, commandOf,
    encodeCommand_ok (State.inLenBad_of_empty (s := s.compressTables) h), encodeBody_finish,
    State.encodeRun_of_empty (s := s.compressTables) h, State.compressTables_of_empty h]
  rfl

/-! ## An accepted word until its completion step (R231) -/

theorem CmdResult.finish_ends (r : CmdResult) : r.finish.eng = .idle ∧ r.finish.status.done = true := by
  cases r <;> exact ⟨rfl, rfl⟩

/-- A completion step ends with ENG = Idle and DONE = 1, whatever the word (R83). -/
theorem completeStep_ends (w : Word) (s : State) :
    ∃ t, completeStep w s = .next t ∧ t.eng = .idle ∧ t.status.done = true := by
  refine ⟨_, completeStep_eq w s, ?_⟩
  cases decodeWord w <;> exact CmdResult.finish_ends _

theorem hostRead_queue (a : HostAddr) (s : State) :
    (hostRead a s).2.eng = s.eng ∧ (hostRead a s).2.schedule = s.schedule := by
  rw [hostRead_state]
  exact ⟨rfl, rfl⟩

/-- An acceptance, the one write that reaches ENG, finds the engine idle (R63). -/
theorem hostWrite_queue_of_busy (a : HostAddr) (d : Word) {s : State} (hb : s.busy = true) :
    (hostWrite a d s).2.eng = s.eng ∧ (hostWrite a d s).2.schedule = s.schedule := by
  rcases hostWrite_result a d s with h | h | h | h | ⟨hidle, -⟩ | ⟨l, -, h⟩
  on_goal 5 => exact absurd (hb.symm.trans hidle) (by decide)
  on_goal 5 => rw [s.storeWord_state l d] at h
  all_goals rw [h]; exact ⟨rfl, rfl⟩

/-- While a word is accepted no transaction reaches ENG or the schedule. -/
theorem State.transfer_queue_of_busy {s : State} (hb : s.busy = true) (r : Request) :
    (s.transfer r).eng = s.eng ∧ (s.transfer r).schedule = s.schedule := by
  cases r with
  | read a => exact hostRead_queue a s
  | write a d => exact hostWrite_queue_of_busy a d hb

/-- A move of the port leaves an accepted word waiting, and takes itself alone off the schedule. -/
theorem step_portMove_of_busy {s : State} {w : Word} {m : Move} {ms : List Move} (hw : s.eng = .busy w)
    (hs : s.schedule = m :: ms) (hm : m = .request ∨ m = .response) :
    ∃ t, step s = .next t ∧ t.eng = .busy w ∧ t.schedule = ms := by
  obtain ⟨t, ht⟩ := perform_next m s.popped
  have htail : s.popped.schedule = ms := congrArg List.tail hs
  refine ⟨t, by rw [step_eq, nextMove_of_schedule hs, ht], ?_⟩
  rcases perform_cases m s.popped t ht with rfl | ⟨r, rs, -, -, -, rfl⟩ | ⟨r, -, -, -, rfl⟩ | ⟨_, _, rfl, -⟩ |
    ⟨_, _, rfl, -⟩ | ⟨rfl, -⟩
  · exact ⟨hw, htail⟩
  · obtain ⟨heng, hsched⟩ := State.transfer_queue_of_busy (s := { s.popped with requests := rs }) (State.busy_of_busy hw) r
    exact ⟨heng.trans hw, hsched.trans htail⟩
  · exact ⟨hw, htail⟩
  all_goals exact absurd hm (by decide)

/-- Within `k` steps the word `w` still waits in the engine, and the step after completes it. -/
def CompletesWithin (s : State) (w : Word) (k : Nat) : Prop :=
  ∃ n u t, n ≤ k ∧ reaches n s u ∧ u.eng = .busy w ∧ step u = .next t ∧ t.eng = .idle ∧ t.status.done = true

theorem completesWithin_of_step_eq {s s' : State} {w : Word} (hw : s.eng = .busy w) (h : step s = completeStep w s') (k : Nat) :
    CompletesWithin s w k := by
  obtain ⟨t, ht, hends⟩ := completeStep_ends w s'
  exact ⟨0, s, t, Nat.zero_le k, rfl, hw, h.trans ht, hends⟩

theorem CompletesWithin.before {s s' : State} {w : Word} {k : Nat} (h : CompletesWithin s' w k) (hstep : step s = .next s') :
    CompletesWithin s w (k + 1) := by
  obtain ⟨n, u, t, hn, hreach, hrest⟩ := h
  exact ⟨n + 1, u, t, Nat.succ_le_succ hn, ⟨s', hstep, hreach⟩, hrest⟩

/-- Without a reset on the schedule the accepted word is completed, at the latest by the default move after it (R231). -/
theorem completesWithin_schedule {s : State} {w : Word} (hw : s.eng = .busy w) (hrst : .reset ∉ s.schedule) :
    CompletesWithin s w s.schedule.length := by
  induction hs : s.schedule generalizing s with
  | nil => exact completesWithin_of_step_eq hw ((step_completions hw).2 hs) _
  | cons m ms ih =>
    rw [hs, List.mem_cons, not_or] at hrst
    obtain ⟨hm, hms⟩ := hrst
    have later (hport : m = .request ∨ m = .response) : CompletesWithin s w (ms.length + 1) := by
      obtain ⟨s', hstep, hw', hs'⟩ := step_portMove_of_busy hw hs hport
      exact (ih hw' (hs' ▸ hms) hs').before hstep
    cases m with
    | request => exact later (.inl rfl)
    | response => exact later (.inr rfl)
    | completion => exact completesWithin_of_step_eq hw ((step_completions hw).1 ms hs) _
    | reset => exact absurd rfl hm

/-! ## A reset (R210) -/

theorem nextMove_of_head? {s : State} {m : Move} (h : s.schedule.head? = some m) : s.nextMove = m := by
  obtain ⟨ms, hs⟩ := List.head?_eq_some_iff.mp h
  exact nextMove_of_schedule hs

theorem State.rspValid_of_rsp_none {s : State} (h : s.rsp = none) : s.rspValid = false := by
  rw [State.rspValid, State.rspPort, h, ite_self]
  rfl

theorem State.applyReset_statusWord (s : State) : s.applyReset.statusWord = 0 := by
  show State.reset.statusWord = 0
  decide

theorem step_reset {s : State} {ms : List Move} (h : s.schedule = .reset :: ms) :
    step s = .next { s.applyReset with schedule := ms } := by
  rw [step_eq, nextMove_of_schedule h, popped_of_schedule h]
  rfl

end Sys2Proof.Machine
end

section
/-! PROOFS. The statements of the family 70_reset_and_hazards.md. -/

namespace Sys2Proof.Proofs

open Sys2Proof.Machine

/-- Settles O42: the loops stay within the written operands, so they read the same elements whatever the draw counter. -/
theorem writtenOperandsGiveDrawFreeResults : Obligations.WrittenOperandsGiveDrawFreeResults :=
  fun i _ _ d hdef h => (drawFree_of_definedOperands i hdef).exec_draws h d

/-- Settles O54: COMPRESS of no byte writes reset values alone, and DECODE of the reset state stops at its empty-stream check. -/
theorem resetIsTheEmptyResult : Obligations.ResetIsTheEmptyResult := by
  refine ⟨fun s t hin h => ?_, ⟨_, (emptyOperandsSucceed _).2 rfl, rfl, rfl⟩⟩
  rw [exec_compress_of_inLen_zero hin, Host.Outcome.next.injEq] at h
  subst h
  exact ⟨rfl, rfl, rfl, rfl, rfl, rfl, rfl, rfl⟩

/-- Settles O55: every move goes on, and each move before the completion step takes one off the schedule. -/
theorem everyStepGoesOnAndCommandsComplete : Obligations.EveryStepGoesOnAndCommandsComplete :=
  ⟨fun s => perform_next s.nextMove s.popped, fun _ _ hw hrst => completesWithin_schedule hw hrst⟩

/-- Settles O40: each command's next state is a record over s that leaves these items out. -/
theorem commandsKeepTheInput : Obligations.CommandsKeepTheInput := by
  intro i s t h
  cases i with
  | nop | buildTree | buildTable =>
    rw [exec_eq, Host.Outcome.next.injEq] at h
    subst h
    exact ⟨rfl, rfl, fun _ _ => rfl, fun _ _ => rfl⟩
  | count =>
    rw [exec_eq, commandOf, Host.Outcome.next.injEq] at h
    subst h
    cases hb : s.inLenBad with
    | true =>
      rw [countCommand_bad hb]
      exact ⟨rfl, rfl, fun _ _ => rfl, fun _ _ => rfl⟩
    | false =>
      rw [countCommand_ok hb]
      exact ⟨rfl, rfl, fun hne => absurd rfl hne, fun _ _ => rfl⟩
  | encode =>
    rw [afterEncode_of_exec h]
    exact ⟨rfl, rfl, fun _ _ => rfl, fun hne => absurd rfl hne⟩
  | decode =>
    rw [afterDecode_of_exec h]
    exact ⟨rfl, rfl, fun _ _ => rfl, fun _ _ => rfl⟩
  | compress =>
    obtain ⟨-, hframes⟩ := compressIsTheFourCommands
    obtain ⟨u, hu, hframe, -⟩ := hframes s
    rw [h, Host.Outcome.next.injEq] at hu
    subst hu
    rw [hframe]
    exact ⟨rfl, rfl, fun _ hne => absurd rfl hne, fun _ hne => absurd rfl hne⟩

/-- Settles O53: the step is `applyReset` on the state with the rest of the schedule, and the ports follow the move after. -/
theorem resetEntersTheResetState : Obligations.ResetEntersTheResetState := by
  intro s ms hs
  obtain ⟨-, -, hports⟩ := portTransfersOneAtATime
  have closed (u : State) (hm : u.nextMove = .reset) : u.reqReady = false ∧ u.rspValid = false := by
    obtain ⟨-, hrst, -⟩ := hports u
    exact hrst (u.rst_iff.mpr hm)
  have hm := nextMove_of_schedule hs
  obtain ⟨hreq, hrsp⟩ := closed s hm
  exact ⟨s.rst_iff.mpr hm, hreq, hrsp, _, step_reset hs, rfl, rfl, s.applyReset_statusWord,
    rfl, rfl, rfl, rfl, rfl, rfl, rfl, rfl, zeroFreq_get, zeroNodes_get, zeroCodes_get, fun _ => ⟨rfl, rfl, rfl⟩,
    rfl, State.rspValid_of_rsp_none rfl, rfl, rfl, rfl, rfl, rfl, rfl, rfl,
    fun hnext => closed _ (nextMove_of_head? hnext), fun hnext => (State.reqReady_iff _).mpr ⟨nextMove_of_head? hnext, rfl⟩⟩

end Sys2Proof.Proofs
end
